-- ==== Sys2Proof/Word.lean ====
section
/-! DEFINITION. The word types of HUFFCORE (spec/00_scope.md R9, R10; spec/20_memory.md R60). All values are unsigned. -/

namespace Sys2Proof

/-- One word of the host port, and every 32-bit register (R60). -/
abbrev Word := BitVec 32

/-- A word address of the host port: 18 bits (R60). -/
abbrev HostAddr := BitVec 18

/-- A node handle: H_W = 9 bits for every legal NSYM (R9). -/
abbrev Handle := BitVec 9

/-- A node frequency, held in the widest FW the parameters allow: CNT_W + 8 = 40 bits (R9). -/
abbrev Freq := BitVec 40

/-- NIL = 0x1FF: "no child" and "no root" (R9). -/
abbrev nilHandle : Handle := 0x1FF#9

end Sys2Proof
end

