-- ==== Sys2Proof/Syntax.lean ====
section
/-! DEFINITION. The commands of HUFFCORE, one constructor per row of spec/opcode_table.json (spec/30_encoding.md R92). No command carries an operand (R93). -/

namespace Sys2Proof

/-- The five commands, in the order of R92. -/
inductive Instr where
  /-- `count_frequencies` (spec/40_count.md R110). -/
  | count
  /-- `build_tree` (spec/41_build.md R120). -/
  | build
  /-- `generate_codes` (spec/42_gencodes.md R140). -/
  | gencodes
  /-- `encode` (spec/43_encode.md R155). -/
  | encode
  /-- `decode` (spec/44_decode.md R170). -/
  | decode
  deriving DecidableEq, Repr

end Sys2Proof
end

