-- ==== Sys2Proof/WellFormed.lean ====
section
/-! DEFINITION. Which terms are well formed: commands (no operand, so always) and command words (spec/30_encoding.md R91, R97). -/

namespace Sys2Proof

/-- A command has no operand field that could be out of range (R91, R93). -/
def Instr.wf : Instr → Bool
  | .count => true
  | .build => true
  | .gencodes => true
  | .encode => true
  | .decode => true

/-- R91: bits 31:4 of a command word must be 0. -/
def reservedBitsClear (w : Word) : Bool := w.extractLsb' 4 28 == 0#28

/-- R92: the opcodes in use are 1 to 5. -/
def opcodeInUse (w : Word) : Bool :=
  decide (1 ≤ (w.extractLsb' 0 4).toNat) && decide ((w.extractLsb' 0 4).toNat ≤ 5)

/-- The word is one of the five of R92; every other word is an illegal command (R97). -/
def legalWord (w : Word) : Bool := reservedBitsClear w && opcodeInUse w

end Sys2Proof
end

