-- ==== Sys2Proof/Decode.lean ====
section
/-! DEFINITION. The decoder, total on every 32-bit word, and the encoder (spec/30_encoding.md R90 to R92, R97, R98). -/

namespace Sys2Proof

/-- Why a word is no command (R97). -/
inductive DecodeError where
  /-- A bit of 31:4 is 1. -/
  | reservedBits
  /-- Bits 31:4 are 0 and op is 0 or 6 to 15. -/
  | reservedOpcode
  deriving DecidableEq, Repr

/-- Bits 3:0 of a command word (R91). -/
def opField (w : Word) : BitVec 4 := w.extractLsb' 0 4

/-- Bits 31:4 of a command word (R91). -/
def rsvField (w : Word) : BitVec 28 := w.extractLsb' 4 28

/-- The opcode map of R92. -/
def decodeOp (op : BitVec 4) : Except DecodeError Instr :=
  match op.toNat with
  | 1 => .ok .count
  | 2 => .ok .build
  | 3 => .ok .gencodes
  | 4 => .ok .encode
  | 5 => .ok .decode
  | _ => .error .reservedOpcode

/-- A word is a command exactly when all 32 bits equal one of the five words (R92, R97). -/
def decode (w : Word) : Except DecodeError Instr :=
  if rsvField w = 0#28 then decodeOp (opField w) else .error .reservedBits

/-- The command of a word, where it is one. -/
def decode? (w : Word) : Option Instr :=
  match decode w with
  | .ok i => some i
  | .error _ => none

/-- The command word of a command (R92). -/
def encode : Instr → Word
  | .count => 0x00000001#32
  | .build => 0x00000002#32
  | .gencodes => 0x00000003#32
  | .encode => 0x00000004#32
  | .decode => 0x00000005#32

/-- The word whose low `nbits` bits are those of `w` and whose other bits are 0. -/
def tableWord (nbits w : Nat) : Word := BitVec.ofNat 32 (w % 2 ^ nbits)

/-- What the decoder reads from a row of spec/opcode_table.json. No command is longer than 32 bits (R98). Log 16. -/
def decodeTableWord (nbits w : Nat) : Option Instr :=
  if nbits ≤ 32 then decode? (tableWord nbits w) else none

end Sys2Proof
end

