-- ==== Sys2Proof/Config.lean ====
section
/-! DEFINITION. What a builder fixes (spec/00_scope.md R8) and the values the spec leaves open (spec/93_implementation_defined.md, section 2). -/

namespace Sys2Proof

/-- The five parameters of R8, unchecked. -/
structure Params where
  /-- SYM_W: bits in a Symbol. -/
  symW : Nat
  /-- NSYM: most distinct symbols, the capacity of FREQ and of CODE. -/
  nsym : Nat
  /-- CNT_W: bits in a count. -/
  cntW : Nat
  /-- SEQ_N: capacity of SYMBUF in symbols. -/
  seqN : Nat
  /-- BIT_N: capacity of BITBUF in bits. -/
  bitN : Nat
  deriving DecidableEq, Repr

/-- The constraints of R8's table. -/
def Params.valid (p : Params) : Bool :=
  decide (1 ≤ p.symW) && decide (p.symW ≤ 32) &&
  decide (1 ≤ p.nsym) && decide (p.nsym ≤ 256) && decide (p.nsym ≤ 2 ^ p.symW) &&
  decide (1 ≤ p.cntW) && decide (p.cntW ≤ 32) &&
  decide (1 ≤ p.seqN) && decide (p.seqN ≤ 65536) && decide (p.seqN ≤ 2 ^ p.cntW - 1) &&
  decide (32 ≤ p.bitN) && decide (p.bitN ≤ 2 ^ 20) && decide (p.bitN % 32 = 0)

/-- A legal setting: parameters together with the check, so that no HUFFCORE with another setting exists (U13). -/
structure Config where
  params : Params
  ok : params.valid = true
  deriving DecidableEq, Repr

/-- The constructor that rejects a setting outside its range (U13). -/
def Config.make? (p : Params) : Option Config :=
  if h : p.valid = true then some ⟨p, h⟩ else none

/-- The reference configuration (R8, last column). -/
def Config.reference : Config :=
  ⟨{ symW := 8, nsym := 256, cntW := 32, seqN := 65536, bitN := 1048576 }, by decide⟩

abbrev Config.symW (c : Config) : Nat := c.params.symW
abbrev Config.nsym (c : Config) : Nat := c.params.nsym
abbrev Config.cntW (c : Config) : Nat := c.params.cntW
abbrev Config.seqN (c : Config) : Nat := c.params.seqN
abbrev Config.bitN (c : Config) : Nat := c.params.bitN

/-- The storage a free value can stand in. -/
inductive Space where
  | symbuf | bitbuf | freq | node | code | heap | heapn | stack | working
  deriving DecidableEq, Repr

/-- The free values: `Config.anyWord space epoch k` is what element `k` of `space` holds when nothing has been written
there since the moment numbered `epoch` (U1, U2, U10, U11). It has no body: no proof can know a value of it. Log 5, log 7. -/
opaque Config.anyWord : Space → Nat → Nat → Word

end Sys2Proof
end

