-- ==== Sys2Proof/Machine/State.lean ====
section
/-! DEFINITION. All the state the spec gives HUFFCORE (spec/10_state.md R20 to R45), the outside's pending inputs, and the state after reset. -/

namespace Sys2Proof.Machine

/-- What the engine is doing (R22). -/
inductive Phase where
  | idle | counting | building | generating | encoding | decoding | rejecting
  deriving DecidableEq, Repr

/-- The result codes of STATUS.ERR, in the order of their numbers 0 to 7 (spec/60_exceptions.md R190). -/
inductive Err where
  | success | emptyInput | invalidTree | unknownSymbol | incompleteCode | badLength | capacity | illegalCommand
  deriving DecidableEq, Repr

/-- The fields of STATUS (R26). Bits the spec does not name read 0 and are not storage. -/
structure Status where
  busy : Bool
  done : Bool
  err : Err
  op : BitVec 4
  deriving DecidableEq, Repr

/-- A memory: its written elements, by rising index, and the epoch that says which free values the others hold. Log 5. -/
structure Store (α : Type) where
  epoch : Nat
  cells : List (Nat × α)
  deriving DecidableEq, Repr

/-- The five memories (R36 to R40). SYMBUF is keyed by element, BITBUF by bit, and FREQ, NODE, CODE by the word offset in
their window of the address map, where each field has a word of its own (spec/20_memory.md R64, R65). Log 6. -/
structure Memory where
  symbuf : Store Word
  bitbuf : Store Bool
  freq : Store Word
  node : Store Word
  code : Store Word
  deriving DecidableEq, Repr

/-- LEAF or INTERNAL (R39). -/
inductive NodeKind where
  | leaf | internal
  deriving DecidableEq, Repr

/-- One element of NODE (R39). -/
structure Node where
  kind : NodeKind
  sym : Word
  freq : Freq
  left : Handle
  right : Handle
  deriving DecidableEq, Repr

/-- The engine's working registers of R42 (STACK is a memory of its own, `State.stack`). -/
structure Work where
  i : Word
  j : BitVec 9
  out : Word
  cur : Handle
  d : BitVec 8
  path : BitVec 255
  sp : BitVec 8
  s : Word
  nd : Node
  a : Handle
  b : Handle
  h : Handle
  deriving DecidableEq, Repr

/-- What the outside does to HUFFCORE, one entry a step. Log 2. -/
inductive Input where
  /-- `HostRead(a)` (spec/20_memory.md R60). -/
  | hostRead (a : HostAddr)
  /-- `HostWrite(a, d)` (spec/20_memory.md R60). -/
  | hostWrite (a : HostAddr) (d : Word)
  /-- The engine moves next: a running command completes (spec/70_reset_and_hazards.md R240). -/
  | tick
  /-- `rst` is 1 at a rising edge of `clk` (spec/70_reset_and_hazards.md R220). -/
  | rst
  deriving DecidableEq, Repr

/-- HUFFCORE has no fault: no transaction raises a bus error (spec/20_memory.md R67) and the engine never hangs
(spec/70_reset_and_hazards.md R241); a failed command completes with an error code (spec/60_exceptions.md R197). Log 17. -/
inductive Fault
  deriving DecidableEq, Repr

/-- Why a step has no meaning. -/
inductive Refusal where
  /-- The model gives the command of this mnemonic no meaning. No arm of `exec` answers so. Safe. -/
  | notModelled (mnemonic : String)
  deriving DecidableEq, Repr

/-- The state of HUFFCORE (R20), field by field as INVENTORY.md lists it. -/
structure State where
  /-- The parameters the hardware was built with (spec/00_scope.md R8). No step writes it. Log 1. -/
  cfg : Config
  /-- CTRL bit 0, interrupt enable (R24). -/
  ie : Bool
  /-- STATUS (R26). -/
  status : Status
  /-- ERRINFO (R27). -/
  errinfo : Word
  /-- ERRPOS (R28). -/
  errpos : Word
  /-- SLEN (R29). -/
  slen : Word
  /-- BLEN (R30). -/
  blen : Word
  /-- NFREQ (R31). -/
  nfreq : Word
  /-- NNODES (R32). -/
  nnodes : Word
  /-- ROOT (R33). -/
  root : Handle
  /-- NCODE (R34). -/
  ncode : Word
  /-- SYMBUF, BITBUF, FREQ, NODE, CODE (R36 to R40). -/
  mem : Memory
  /-- PHASE (R22). -/
  phase : Phase
  /-- CMDW (R22). -/
  cmdw : Word
  /-- HEAP (R41). -/
  heap : Store Handle
  /-- HEAPN (R41). -/
  heapn : BitVec 9
  /-- STACK: entries of one handle and one depth (R42). -/
  stack : Store (Handle × BitVec 8)
  /-- The other working registers (R42). -/
  work : Work
  /-- MODEL: what the outside does next, oldest first. Log 2. -/
  inputs : List Input
  /-- MODEL: the word the latest HostRead returned, `h_rdata` (spec/20_memory.md R60). Log 4. -/
  rdata : Word
  /-- MODEL: the free-value counter. Log 7. -/
  fresh : Nat
  deriving DecidableEq, Repr

/-- The working registers at reset: the spec leaves them unspecified, and the model names 0. Log 8. -/
def Work.zero : Work :=
  { i := 0, j := 0, out := 0, cur := 0, d := 0, path := 0, sp := 0, s := 0,
    nd := { kind := .leaf, sym := 0, freq := 0, left := 0, right := 0 }, a := 0, b := 0, h := 0 }

/-- A memory nothing has been written to since the moment numbered `e`. -/
def Store.unwritten {α : Type} (e : Nat) : Store α := { epoch := e, cells := [] }

/-- The state after reset (R45, spec/70_reset_and_hazards.md R220). -/
def State.reset : State :=
  { cfg := Config.reference
    ie := false
    status := { busy := false, done := false, err := .success, op := 0 }
    errinfo := 0, errpos := 0
    slen := 0, blen := 0, nfreq := 0, nnodes := 0, root := nilHandle, ncode := 0
    mem := { symbuf := .unwritten 0, bitbuf := .unwritten 0, freq := .unwritten 0, node := .unwritten 0, code := .unwritten 0 }
    phase := .idle
    cmdw := 0
    heap := .unwritten 0
    heapn := 0
    stack := .unwritten 0
    work := .zero
    inputs := []
    rdata := 0
    fresh := 1 }

end Sys2Proof.Machine
end

