-- ==== Sys2Proof/Machine/Flags.lean ====
section
/-! DEFINITION. The flags: the fields of STATUS, their word, and the interrupt output (spec/10_state.md R22, R23, R26; spec/60_exceptions.md R190, R204). -/

namespace Sys2Proof.Machine

/-- The number of a result code (R190). -/
def errCode : Err → BitVec 3
  | .success => 0
  | .emptyInput => 1
  | .invalidTree => 2
  | .unknownSymbol => 3
  | .incompleteCode => 4
  | .badLength => 5
  | .capacity => 6
  | .illegalCommand => 7

/-- STATUS as the host reads it: BUSY bit 0, DONE bit 1, ERR bits 6:4, OP bits 11:8, all others 0 (R26). -/
def statusWord (st : Status) : Word :=
  BitVec.ofNat 32 (st.busy.toNat + 2 * st.done.toNat + 16 * (errCode st.err).toNat + 256 * st.op.toNat)

/-- STATUS at the acceptance of word `w` (spec/30_encoding.md R94). -/
def acceptedStatus (w : Word) : Status := { busy := true, done := false, err := .success, op := opField w }

/-- STATUS at completion with result `e`: OP keeps the opcode given at acceptance (spec/60_exceptions.md R197). -/
def completedStatus (st : Status) (e : Err) : Status := { st with busy := false, done := true, err := e }

/-- STATUS after a host write of `d`: bit 1 = 1 clears DONE, and nothing else changes (R26). -/
def acknowledgedStatus (st : Status) (d : Word) : Status := { st with done := st.done && !d.getLsbD 1 }

/-- PHASE after the acceptance of word `w` (spec/30_encoding.md R94). -/
def phaseOf (w : Word) : Phase :=
  match decode w with
  | .ok .count => .counting
  | .ok .build => .building
  | .ok .gencodes => .generating
  | .ok .encode => .encoding
  | .ok .decode => .decoding
  | .error _ => .rejecting

/-- The interrupt output: level-sensitive, CTRL.IE and STATUS.DONE (spec/60_exceptions.md R204). -/
def irq (s : State) : Bool := s.ie && s.status.done

end Sys2Proof.Machine
end

