-- ==== Sys2Proof/Machine/Operands.lean ====
section
/-! DEFINITION. The derived constants, and the elements of the five memories: every operand of a command is implicit, in a register or a memory element (spec/00_scope.md R9; spec/20_memory.md R63 to R65, R68; spec/30_encoding.md R93). -/

namespace Sys2Proof.Machine

/-! ## Derived constants (R9) -/

/-- NNODE_MAX = 2*NSYM - 1. -/
def nnodeMax (c : Config) : Nat := 2 * c.nsym - 1

/-- MAXLEN = NSYM - 1. -/
def maxLen (c : Config) : Nat := c.nsym - 1

/-- FW = CNT_W + 8. -/
def freqW (c : Config) : Nat := c.cntW + 8

/-! ## Bit fields -/

/-- The low `n` bits of a word, zero-extended: what a field of `n` bits keeps and reads back (R65). -/
def keepLow (n : Nat) (w : Word) : Word := if n = 0 then 0#32 else BitVec.ofNat 32 (w.toNat % 2 ^ n)

/-- The number whose bits 0 to n-1 are `f 0` to `f (n-1)`. -/
def packNat (f : Nat → Bool) : Nat → Nat
  | 0 => 0
  | n + 1 => packNat f n + (if f n then 2 ^ n else 0)

/-- The word whose bit k is `f k`: sequences are packed least significant bit first (R63, R65). -/
def packWord (f : Nat → Bool) : Word := BitVec.ofNat 32 (packNat f 32)

/-! ## Stores -/

/-- The written value of element `k`, if it was written. -/
def lookupCell {α : Type} : List (Nat × α) → Nat → Option α
  | [], _ => none
  | (j, v) :: rest, k => if k = j then some v else lookupCell rest k

/-- Write element `k`, keeping the indices rising. -/
def setCell {α : Type} : List (Nat × α) → Nat → α → List (Nat × α)
  | [], k, v => [(k, v)]
  | (j, w) :: rest, k, v =>
    if k < j then (k, v) :: (j, w) :: rest
    else if k = j then (k, v) :: rest
    else (j, w) :: setCell rest k v

/-- Read a field of `width` bits: the written word, or the free value of an element nothing has written (U1, U2). -/
def readField (sp : Space) (width : Nat) (st : Store Word) (k : Nat) : Word :=
  keepLow width ((lookupCell st.cells k).getD (Config.anyWord sp st.epoch k))

/-- Write a field of `width` bits: the low bits are kept, and a field of no bits holds nothing (R65, R67). -/
def writeField (width : Nat) (st : Store Word) (k : Nat) (v : Word) : Store Word :=
  if width = 0 then st else { st with cells := setCell st.cells k (keepLow width v) }

/-! ## SYMBUF (R36) -/

/-- SYMBUF[i]. -/
def symbol (c : Config) (m : Memory) (i : Nat) : Word := readField .symbuf c.symW m.symbuf i

/-- SYMBUF[i] <- v. -/
def setSymbol (c : Config) (i : Nat) (v : Word) (m : Memory) : Memory :=
  { m with symbuf := writeField c.symW m.symbuf i v }

/-! ## BITBUF (R37, R63) -/

/-- BITBUF[k]. -/
def bit (m : Memory) (k : Nat) : Bool :=
  (lookupCell m.bitbuf.cells k).getD ((Config.anyWord .bitbuf m.bitbuf.epoch k).getLsbD 0)

/-- BITBUF[k] <- v. -/
def setBit (k : Nat) (v : Bool) (m : Memory) : Memory :=
  { m with bitbuf := { m.bitbuf with cells := setCell m.bitbuf.cells k v } }

/-- BITBUF[start + k] <- f k for k in 0 .. n-1. -/
def setBits (start : Nat) (f : Nat → Bool) : Nat → Memory → Memory
  | 0, m => m
  | n + 1, m => setBit (start + n) (f n) (setBits start f n m)

/-- Word w of BITBUF as the host sees it (R63). -/
def bitWord (m : Memory) (w : Nat) : Word := packWord (fun k => bit m (32 * w + k))

/-- A host write of word w of BITBUF stores all 32 bits (R63). -/
def setBitWord (w : Nat) (d : Word) (m : Memory) : Memory := setBits (32 * w) (fun k => d.getLsbD k) 32 m

/-! ## FREQ (R38): 2 words per element -/

/-- Width of word `f` of a FREQ element (R65). -/
def freqWidth (c : Config) (f : Nat) : Nat :=
  if f = 0 then c.symW else if f = 1 then c.cntW else 0

/-- The word at offset k of the FREQ window. -/
def freqWord (c : Config) (m : Memory) (k : Nat) : Word := readField .freq (freqWidth c (k % 2)) m.freq k

/-- Write the word at offset k of the FREQ window. -/
def setFreqWord (c : Config) (k : Nat) (v : Word) (m : Memory) : Memory :=
  { m with freq := writeField (freqWidth c (k % 2)) m.freq k v }

/-- FREQ[j].sym. -/
def freqSym (c : Config) (m : Memory) (j : Nat) : Word := freqWord c m (2 * j)
/-- FREQ[j].cnt. -/
def freqCnt (c : Config) (m : Memory) (j : Nat) : Word := freqWord c m (2 * j + 1)
/-- FREQ[j].sym <- v. -/
def setFreqSym (c : Config) (j : Nat) (v : Word) (m : Memory) : Memory := setFreqWord c (2 * j) v m
/-- FREQ[j].cnt <- v. -/
def setFreqCnt (c : Config) (j : Nat) (v : Word) (m : Memory) : Memory := setFreqWord c (2 * j + 1) v m

/-! ## NODE (R39): 8 words per element -/

/-- Width of word `f` of a NODE element (R65). -/
def nodeWidth (c : Config) (f : Nat) : Nat :=
  if f = 0 then 1 else if f = 1 then c.symW else if f = 2 then min 32 (freqW c) else if f = 3 then freqW c - 32
  else if f = 4 then 9 else if f = 5 then 9 else 0

/-- The word at offset k of the NODE window. -/
def nodeWord (c : Config) (m : Memory) (k : Nat) : Word := readField .node (nodeWidth c (k % 8)) m.node k

/-- Write the word at offset k of the NODE window. -/
def setNodeWord (c : Config) (k : Nat) (v : Word) (m : Memory) : Memory :=
  { m with node := writeField (nodeWidth c (k % 8)) m.node k v }

/-- The kind bit: 0 LEAF, 1 INTERNAL (R65). -/
def kindOf (w : Word) : NodeKind := if w.getLsbD 0 then .internal else .leaf

/-- The kind bit of a kind (R65). -/
def kindWord : NodeKind → Word
  | .leaf => 0#32
  | .internal => 1#32

/-- NODE[h], whole. -/
def node (c : Config) (m : Memory) (h : Nat) : Node :=
  { kind := kindOf (nodeWord c m (8 * h))
    sym := nodeWord c m (8 * h + 1)
    freq := BitVec.ofNat 40 ((nodeWord c m (8 * h + 2)).toNat + 2 ^ 32 * (nodeWord c m (8 * h + 3)).toNat)
    left := (nodeWord c m (8 * h + 4)).setWidth 9
    right := (nodeWord c m (8 * h + 5)).setWidth 9 }

/-- NODE[h] <- nd, field by field; the low word of freq first in address order (R62, R65). -/
def setNode (c : Config) (h : Nat) (nd : Node) (m : Memory) : Memory :=
  setNodeWord c (8 * h + 5) (nd.right.setWidth 32) <|
  setNodeWord c (8 * h + 4) (nd.left.setWidth 32) <|
  setNodeWord c (8 * h + 3) (BitVec.ofNat 32 (nd.freq.toNat / 2 ^ 32)) <|
  setNodeWord c (8 * h + 2) (BitVec.ofNat 32 nd.freq.toNat) <|
  setNodeWord c (8 * h + 1) nd.sym <|
  setNodeWord c (8 * h) (kindWord nd.kind) m

/-! ## CODE (R40): 16 words per element -/

/-- Width of word `f` of a CODE element (R65); `bits` has MAXLEN bits (R40). Log 10. -/
def codeWidth (c : Config) (f : Nat) : Nat :=
  if f = 0 then c.symW else if f = 1 then 8 else if f < 10 then min 32 (maxLen c - 32 * (f - 2)) else 0

/-- The word at offset k of the CODE window. -/
def codeWord (c : Config) (m : Memory) (k : Nat) : Word := readField .code (codeWidth c (k % 16)) m.code k

/-- Write the word at offset k of the CODE window. -/
def setCodeWord (c : Config) (k : Nat) (v : Word) (m : Memory) : Memory :=
  { m with code := writeField (codeWidth c (k % 16)) m.code k v }

/-- CODE[j].sym. -/
def codeSym (c : Config) (m : Memory) (j : Nat) : Word := codeWord c m (16 * j)
/-- CODE[j].len. -/
def codeLen (c : Config) (m : Memory) (j : Nat) : Nat := (codeWord c m (16 * j + 1)).toNat
/-- CODE[j].bits[k]. -/
def codeBit (c : Config) (m : Memory) (j k : Nat) : Bool := (codeWord c m (16 * j + 2 + k / 32)).getLsbD (k % 32)

/-- CODE[j].bits words +2 to +2+n-1 <- the bits of a code, 0 beyond its end (R65). -/
def setCodeBits (c : Config) (j : Nat) (path : List Bool) : Nat → Memory → Memory
  | 0, m => m
  | n + 1, m =>
    setCodeWord c (16 * j + 2 + n) (packWord (fun k => path.getD (32 * n + k) false)) (setCodeBits c j path n m)

/-- CODE[j] <- { sym, len, bits[k] = path[k] for k < len, 0 beyond }. -/
def setCode (c : Config) (j : Nat) (sym : Word) (len : Nat) (path : List Bool) (m : Memory) : Memory :=
  setCodeBits c j path 8 (setCodeWord c (16 * j + 1) (BitVec.ofNat 32 len) (setCodeWord c (16 * j) sym m))

/-! ## The canonical form of the memories (log 5) -/

/-- Indices strictly rising, so that each is listed at most once. -/
abbrev rising {α : Type} (cells : List (Nat × α)) : Prop := (cells.map Prod.fst).Pairwise (· < ·)

/-- A word store in canonical form: rising indices, all below the capacity, each of a field that has bits, each value within
the field. -/
abbrev wordsWf (width : Nat → Nat) (cap : Nat) (st : Store Word) : Prop :=
  rising st.cells ∧ ∀ p ∈ st.cells, p.1 < cap ∧ 0 < width p.1 ∧ p.2.toNat < 2 ^ width p.1

/-- The five memories in canonical form. -/
abbrev Memory.wf (c : Config) (m : Memory) : Prop :=
  wordsWf (fun _ => c.symW) c.seqN m.symbuf ∧
  (rising m.bitbuf.cells ∧ ∀ p ∈ m.bitbuf.cells, p.1 < c.bitN) ∧
  wordsWf (fun k => freqWidth c (k % 2)) (2 * c.nsym) m.freq ∧
  wordsWf (fun k => nodeWidth c (k % 8)) (8 * nnodeMax c) m.node ∧
  wordsWf (fun k => codeWidth c (k % 16)) (16 * c.nsym) m.code

end Sys2Proof.Machine
end

