-- ==== Sys2Proof/Machine/Ops.lean ====
section
/-! DEFINITION. The operations every command shares: acceptance, completion, failure and its effect on the outputs, IllegalCommand, and reset by `rst` (spec/30_encoding.md R94; spec/60_exceptions.md R190 to R198; spec/70_reset_and_hazards.md R220, R221). -/

namespace Sys2Proof.Machine

/-! ## Acceptance (R94) -/

/-- A command word is accepted: STATUS, ERRINFO, ERRPOS, PHASE and CMDW change, nothing else (R94). -/
def accept (w : Word) (s : State) : State :=
  { s with cmdw := w, status := acceptedStatus w, errinfo := 0, errpos := 0, phase := phaseOf w }

/-! ## Free values (spec/93_implementation_defined.md U1, U2, U10, U11) -/

/-- The working registers as free values: they hold no defined value between commands (spec/10_state.md R21, R42). -/
def Work.any (e : Nat) : Work :=
  let w := Config.anyWord .working e
  { i := w 0, j := (w 1).setWidth 9, out := w 2, cur := (w 3).setWidth 9, d := (w 4).setWidth 8
    path := (w 5 ++ w 6 ++ w 7 ++ w 8 ++ w 9 ++ w 10 ++ w 11 ++ w 12).setWidth 255
    sp := (w 13).setWidth 8, s := w 14
    nd := { kind := kindOf (w 15), sym := w 16, freq := (w 17 ++ w 18).setWidth 40
            left := (w 19).setWidth 9, right := (w 20).setWidth 9 }
    a := (w 21).setWidth 9, b := (w 22).setWidth 9, h := (w 23).setWidth 9 }

/-- The engine has used its working registers: they and STACK hold no defined value any more (spec/10_state.md R42, R43). -/
def spoilWork (s : State) : State :=
  { s with work := Work.any s.fresh, stack := .unwritten s.fresh, fresh := s.fresh + 1 }

/-- A free value of HEAPN, within its bound NSYM (spec/10_state.md R41, spec/60_exceptions.md R198). Log 14. -/
def anyHeapn (s : State) : BitVec 9 :=
  BitVec.ofNat 9 ((Config.anyWord .heapn s.fresh 0).toNat % (s.cfg.nsym + 1))

/-- HEAP[p] as the state holds it between commands (spec/10_state.md R41). -/
def heapEntry (s : State) (p : Nat) : Handle :=
  (lookupCell s.heap.cells p).getD ((Config.anyWord .heap s.heap.epoch p).setWidth 9)

/-- Entry `p` of STACK as the state holds it between commands (spec/10_state.md R42). -/
def stackEntry (s : State) (p : Nat) : Handle × BitVec 8 :=
  (lookupCell s.stack.cells p).getD
    ((Config.anyWord .stack s.stack.epoch (2 * p)).setWidth 9, (Config.anyWord .stack s.stack.epoch (2 * p + 1)).setWidth 8)

/-! ## Completion and failure (R196 to R198) -/

/-- What a command raises: the error, ERRINFO and ERRPOS (R192, R196). -/
structure Failure where
  err : Err
  info : Word
  pos : Word
  deriving DecidableEq, Repr

/-- Completion, HUFFCORE's whole trap entry (R197). CMDW keeps its word (log 9). -/
def complete (e : Err) (info pos : Word) (s : State) : State :=
  { s with errinfo := info, errpos := pos, status := completedStatus s.status e, phase := .idle }

/-- The effect of a failure on the outputs, by command: the length or handle registers are emptied and the output memory
holds unspecified values (R198, U2). -/
def emptyOutput (i : Instr) (s : State) : State :=
  match i with
  | .count => { s with nfreq := 0, mem := { s.mem with freq := .unwritten s.fresh } }
  | .build => { s with nnodes := 0, root := nilHandle, heapn := anyHeapn s, heap := .unwritten s.fresh }
  | .gencodes => { s with ncode := 0, mem := { s.mem with code := .unwritten s.fresh } }
  | .encode => { s with blen := 0, mem := { s.mem with bitbuf := .unwritten s.fresh } }
  | .decode => { s with slen := 0, mem := { s.mem with symbuf := .unwritten s.fresh } }

/-- `raise`: the failure effect, then completion with the error (R196). -/
def raise (i : Instr) (f : Failure) (s : State) : State :=
  complete f.err f.info f.pos (spoilWork (emptyOutput i s))

/-- Completion with success: the outputs are in place in `s`, ERRINFO and ERRPOS are 0 (R197). -/
def succeed (s : State) : State := complete .success 0 0 (spoilWork s)

/-- How a command ends: `r` is the state with its outputs in place, or what it raised; a failure discards everything the
command wrote (R197, R198). -/
def finish (i : Instr) (s : State) (r : Except Failure State) : State :=
  match r with
  | .ok t => succeed t
  | .error f => raise i f s

/-- IllegalCommand: ERR = 7, ERRINFO = CMDW, ERRPOS = 0; nothing else is read or written (R195). -/
def rejectCommand (s : State) : State := complete .illegalCommand s.cmdw 0 s

/-- BadLength: the word address of the register and its value (R192, R199). -/
def badLength (addr : Word) (value : Word) : Failure := { err := .badLength, info := addr, pos := value }

/-- InvalidTreeError: the handle tested, and a depth or bit index (R192). -/
def invalidTree (h : Handle) (pos : Nat) : Failure :=
  { err := .invalidTree, info := h.setWidth 32, pos := BitVec.ofNat 32 pos }

/-! ## Reset (spec/70_reset_and_hazards.md R220, R221) -/

/-- `rst` is 1 at a clock edge: the registers of R45 take their reset values, a running command ends without completion,
and the memories, HEAP, STACK and the working registers hold unspecified values (U10). Log 15. -/
def pinReset (s : State) : State :=
  { s with
    ie := false
    status := { busy := false, done := false, err := .success, op := 0 }
    errinfo := 0, errpos := 0
    slen := 0, blen := 0, nfreq := 0, nnodes := 0, root := nilHandle, ncode := 0
    mem := { symbuf := .unwritten s.fresh, bitbuf := .unwritten s.fresh, freq := .unwritten s.fresh
             node := .unwritten s.fresh, code := .unwritten s.fresh }
    phase := .idle
    cmdw := 0
    heap := .unwritten s.fresh
    heapn := 0
    stack := .unwritten s.fresh
    work := Work.any s.fresh
    fresh := s.fresh + 1 }

end Sys2Proof.Machine
end

