-- ==== Sys2Proof/Machine/Build.lean ====
section
/-! DEFINITION. BUILD, the min-heap tree builder (spec/41_build.md R120 to R131). HEAP[0 .. HEAPN-1] is the list `q` of handles, HEAPN its length. -/

namespace Sys2Proof.Machine

/-- NODE[h].freq. -/
def nodeFreq (c : Config) (m : Memory) (h : Handle) : Freq := (node c m h.toNat).freq

/-- less(x, y): lower frequency first, then the smaller handle (R123). -/
def less (c : Config) (m : Memory) (x y : Handle) : Bool :=
  decide (nodeFreq c m x < nodeFreq c m y) || (nodeFreq c m x == nodeFreq c m y && decide (x < y))

/-- HEAP[p]; every call has p < HEAPN. -/
def heapAt (q : List Handle) (p : Nat) : Handle := q.getD p nilHandle

/-- Swap HEAP[p] and HEAP[r]. -/
def heapSwap (q : List Handle) (p r : Nat) : List Handle := (q.set p (heapAt q r)).set r (heapAt q p)

/-- The loop of heap_insert (R125) at position p. The first argument bounds the iterations: p falls at each. -/
def siftUp (c : Config) (m : Memory) : (bound p : Nat) → List Handle → List Handle
  | 0, _, q => q
  | bound + 1, p, q =>
    if 0 < p then
      let r := (p - 1) / 2
      if less c m (heapAt q p) (heapAt q r) then siftUp c m bound r (heapSwap q p r) else q
    else q

/-- heap_insert (R125). -/
def heapInsert (c : Config) (m : Memory) (h : Handle) (q : List Handle) : List Handle :=
  siftUp c m (q.length + 1) q.length (q ++ [h])

/-- The position among p and its two children that holds the least handle (R126). -/
def leastOfThree (c : Config) (m : Memory) (q : List Handle) (p : Nat) : Nat :=
  let l := 2 * p + 1
  let g := 2 * p + 2
  let t := if l < q.length && less c m (heapAt q l) (heapAt q p) then l else p
  if g < q.length && less c m (heapAt q g) (heapAt q t) then g else t

/-- The loop of heap_extract_min (R126) at position p. The first argument bounds the iterations: p rises at each. -/
def siftDown (c : Config) (m : Memory) : (bound p : Nat) → List Handle → List Handle
  | 0, _, q => q
  | bound + 1, p, q =>
    let t := leastOfThree c m q p
    if t = p then q else siftDown c m bound t (heapSwap q p t)

/-- heap_extract_min (R126): the handle returned and the heap left. Called only with HEAPN >= 1. -/
def heapExtractMin (c : Config) (m : Memory) (q : List Handle) : Handle × List Handle :=
  let r := heapAt q 0
  let q' := q.dropLast
  if q'.isEmpty then (r, q') else (r, siftDown c m q'.length 0 (q'.set 0 (heapAt q (q.length - 1))))

/-- The LEAF for FREQ[j] (R121, R122); cnt is zero-extended to FW bits. -/
def leafOf (c : Config) (m : Memory) (j : Nat) : Node :=
  { kind := .leaf, sym := freqSym c m j, freq := (freqCnt c m j).setWidth 40, left := nilHandle, right := nilHandle }

/-- The INTERNAL node over a and b: first extracted left, second right, freq the sum, sym 0 (R121, R124). -/
def mergeOf (c : Config) (m : Memory) (a b : Handle) : Node :=
  { kind := .internal, sym := 0, freq := nodeFreq c m a + nodeFreq c m b, left := a, right := b }

/-- The first loop of R121: `rem` leaves are left to make, `j` is the next. -/
def leafLoop (c : Config) : (rem j : Nat) → Memory → List Handle → Memory × List Handle
  | 0, _, m, q => (m, q)
  | rem + 1, j, m, q =>
    let m' := setNode c j (leafOf c m j) m
    leafLoop c rem (j + 1) m' (heapInsert c m' (BitVec.ofNat 9 j) q)

/-- The second loop of R121: while HEAPN > 1, merge; `k` is the working copy of NNODES. The first argument bounds the
iterations: HEAPN falls by one at each (R124). -/
def mergeLoop (c : Config) : (bound k : Nat) → Memory → List Handle → Nat × Memory × List Handle
  | 0, k, m, q => (k, m, q)
  | bound + 1, k, m, q =>
    if 1 < q.length then
      let (a, q1) := heapExtractMin c m q
      let (b, q2) := heapExtractMin c m q1
      let m' := setNode c k (mergeOf c m a b) m
      mergeLoop c bound (k + 1) m' (heapInsert c m' (BitVec.ofNat 9 k) q2)
    else (k, m, q)

/-- HEAP holding the handles of `q` at positions 0 up, the others unspecified (spec/10_state.md R41). -/
def heapStore (e : Nat) (q : List Handle) : Store Handle :=
  { epoch := e, cells := q.zipIdx.map (fun p => (p.2, p.1)) }

/-- BUILD up to its completion (R121): NODE, NNODES, ROOT, HEAP and HEAPN in place, or what it raises. -/
def buildRun (s : State) : Except Failure State :=
  if s.cfg.nsym < s.nfreq.toNat then .error (badLength 0x07 s.nfreq)
  else if s.nfreq.toNat = 0 then .error { err := .emptyInput, info := 0, pos := 0 }
  else
    let n := s.nfreq.toNat
    let (m1, q1) := leafLoop s.cfg n 0 s.mem []
    let (k, m, q) := mergeLoop s.cfg n n m1 q1
    .ok { s with mem := m, nnodes := BitVec.ofNat 32 k, root := heapAt q 0
                 heap := heapStore s.fresh q, heapn := BitVec.ofNat 9 q.length }

/-- BUILD (R121). -/
def execBuild (s : State) : Host.Outcome State Fault Refusal := .next (finish .build s (buildRun s))

end Sys2Proof.Machine
end

