-- ==== Sys2Proof/Machine/Count.lean ====
section
/-! DEFINITION. COUNT, the frequency counter (spec/40_count.md R110 to R115). -/

namespace Sys2Proof.Machine

/-- The least j in 0 .. n-1 with FREQ[j].sym = s, or none (R111). -/
def findSym (c : Config) (m : Memory) (s : Word) (n : Nat) : Option Nat :=
  (List.range n).find? (fun j => freqSym c m j == s)

/-- The loop of R111: `rem` symbols are left, `i` is the next, `n` the working copy of NFREQ. -/
def countLoop (c : Config) : (rem i n : Nat) → Memory → Except Failure (Nat × Memory)
  | 0, _, n, m => .ok (n, m)
  | rem + 1, i, n, m =>
    let s := symbol c m i
    match findSym c m s n with
    | none =>
      if n = c.nsym then .error { err := .capacity, info := s, pos := BitVec.ofNat 32 i }
      else countLoop c rem (i + 1) (n + 1) (setFreqCnt c n 1 (setFreqSym c n s m))
    | some j => countLoop c rem (i + 1) n (setFreqCnt c j (freqCnt c m j + 1) m)

/-- COUNT up to its completion: the state with FREQ and NFREQ in place, or what it raises (R111). -/
def countRun (s : State) : Except Failure State :=
  if s.cfg.seqN < s.slen.toNat then .error (badLength 0x05 s.slen)
  else
    match countLoop s.cfg s.slen.toNat 0 0 s.mem with
    | .ok (n, m) => .ok { s with mem := m, nfreq := BitVec.ofNat 32 n }
    | .error f => .error f

/-- COUNT (R111). -/
def execCount (s : State) : Host.Outcome State Fault Refusal := .next (finish .count s (countRun s))

end Sys2Proof.Machine
end

