-- ==== Sys2Proof/Machine/Decoder.lean ====
section
/-! DEFINITION. DECODE, the tree-walker decoder (spec/44_decode.md R170 to R176). -/

namespace Sys2Proof.Machine

/-- emit(s, i) of R175: `out` symbols are in SYMBUF so far. -/
def emit (c : Config) (s : Word) (i out : Nat) (m : Memory) : Except Failure (Nat × Memory) :=
  if out = c.seqN then .error { err := .capacity, info := s, pos := BitVec.ofNat 32 i }
  else .ok (out + 1, setSymbol c out s m)

/-- IncompleteCodeError with the cursor and a bit index or BLEN (R173, R174). -/
def incompleteCode (cur : Handle) (pos : Nat) : Failure :=
  { err := .incompleteCode, info := cur.setWidth 32, pos := BitVec.ofNat 32 pos }

/-- One bit of R171's loop at a LEAF cursor, which only the degenerate tree has (R173): the new `out` and memory. -/
def decodeAtLeaf (c : Config) (i : Nat) (cur : Handle) (nd : Node) (b : Bool) (out : Nat) (m : Memory) :
    Except Failure (Nat × Memory) :=
  if nd.left ≠ nilHandle ∨ nd.right ≠ nilHandle then .error (invalidTree cur i)
  else if b = true then .error (incompleteCode cur i)
  else emit c nd.sym i out m

/-- One bit of R171's loop at an INTERNAL cursor: the new cursor, `out` and memory. -/
def decodeAtInternal (c : Config) (nnodes : Nat) (root : Handle) (i : Nat) (cur : Handle) (nd : Node) (b : Bool) (out : Nat)
    (m : Memory) : Except Failure (Handle × Nat × Memory) :=
  if nd.left = nilHandle ∨ nd.right = nilHandle then .error (invalidTree cur i)
  else
    let t := if b then nd.right else nd.left
    if nnodes ≤ t.toNat then .error (invalidTree t i)
    else
      let ndt := node c m t.toNat
      match ndt.kind with
      | .leaf =>
        if ndt.left ≠ nilHandle ∨ ndt.right ≠ nilHandle then .error (invalidTree t i)
        else
          match emit c ndt.sym i out m with
          | .error f => .error f
          | .ok (out', m') => .ok (root, out', m')
      | .internal => .ok (t, out, m)

/-- One bit of R171's loop: the new cursor, `out` and memory. -/
def decodeBit (c : Config) (nnodes : Nat) (root : Handle) (i : Nat) (cur : Handle) (out : Nat) (m : Memory) :
    Except Failure (Handle × Nat × Memory) :=
  let nd := node c m cur.toNat
  match nd.kind with
  | .leaf =>
    match decodeAtLeaf c i cur nd (bit m i) out m with
    | .error f => .error f
    | .ok (out', m') => .ok (cur, out', m')
  | .internal => decodeAtInternal c nnodes root i cur nd (bit m i) out m

/-- The loop of R171: `rem` bits are left, `i` is the next. -/
def decodeLoop (c : Config) (nnodes : Nat) (root : Handle) : (rem i : Nat) → (cur : Handle) → (out : Nat) → Memory →
    Except Failure (Handle × Nat × Memory)
  | 0, _, cur, out, m => .ok (cur, out, m)
  | rem + 1, i, cur, out, m =>
    match decodeBit c nnodes root i cur out m with
    | .error f => .error f
    | .ok (cur', out', m') => decodeLoop c nnodes root rem (i + 1) cur' out' m'

/-- DECODE up to its completion (R171, with the end test of R174): SYMBUF and SLEN in place, or what it raises. -/
def decodeRun (s : State) : Except Failure State :=
  if s.cfg.bitN < s.blen.toNat then .error (badLength 0x06 s.blen)
  else if nnodeMax s.cfg < s.nnodes.toNat then .error (badLength 0x08 s.nnodes)
  else if s.nnodes.toNat ≤ s.root.toNat then .error (invalidTree s.root 0)
  else
    match decodeLoop s.cfg s.nnodes.toNat s.root s.blen.toNat 0 s.root 0 s.mem with
    | .error f => .error f
    | .ok (cur, out, m) =>
      if cur ≠ s.root then .error (incompleteCode cur s.blen.toNat)
      else .ok { s with mem := m, slen := BitVec.ofNat 32 out }

/-- DECODE (R171). -/
def execDecode (s : State) : Host.Outcome State Fault Refusal := .next (finish .decode s (decodeRun s))

end Sys2Proof.Machine
end

