-- ==== Sys2Proof/Machine/Encoder.lean ====
section
/-! DEFINITION. ENCODE, the code-table lookup engine and bitwise encoder (spec/43_encode.md R155 to R160). -/

namespace Sys2Proof.Machine

/-- CODE[j] is the code-table entry of symbol `s`: equal symbol and 1 <= len <= MAXLEN (R157). -/
def isEntry (c : Config) (m : Memory) (s : Word) (j : Nat) : Bool :=
  codeSym c m j == s && decide (1 ≤ codeLen c m j) && decide (codeLen c m j ≤ maxLen c)

/-- lookup(s): the least j in 0 .. n-1 that is an entry of `s`, or none (R157). -/
def lookup (c : Config) (m : Memory) (s : Word) (n : Nat) : Option Nat := (List.range n).find? (isEntry c m s)

/-- The loop of R156: `rem` symbols are left, `i` is the next, `out` the working copy of BLEN, `ncode` is NCODE. -/
def encodeLoop (c : Config) (ncode : Nat) : (rem i out : Nat) → Memory → Except Failure (Nat × Memory)
  | 0, _, out, m => .ok (out, m)
  | rem + 1, i, out, m =>
    let s := symbol c m i
    match lookup c m s ncode with
    | none => .error { err := .unknownSymbol, info := s, pos := BitVec.ofNat 32 i }
    | some j =>
      let n := codeLen c m j
      if c.bitN < out + n then .error { err := .capacity, info := s, pos := BitVec.ofNat 32 i }
      else encodeLoop c ncode rem (i + 1) (out + n) (setBits out (codeBit c m j) n m)

/-- ENCODE up to its completion (R156): BITBUF and BLEN in place, or what it raises. -/
def encodeRun (s : State) : Except Failure State :=
  if s.cfg.seqN < s.slen.toNat then .error (badLength 0x05 s.slen)
  else if s.cfg.nsym < s.ncode.toNat then .error (badLength 0x0A s.ncode)
  else
    match encodeLoop s.cfg s.ncode.toNat s.slen.toNat 0 0 s.mem with
    | .ok (out, m) => .ok { s with mem := m, blen := BitVec.ofNat 32 out }
    | .error f => .error f

/-- ENCODE (R156). -/
def execEncode (s : State) : Host.Outcome State Fault Refusal := .next (finish .encode s (encodeRun s))

end Sys2Proof.Machine
end

