-- ==== Sys2Proof/Machine/Gencodes.lean ====
section
/-! DEFINITION. GENCODES, the code-table generator (spec/42_gencodes.md R140 to R148). The traversal is R143's recursion; R145's explicit stack stands beside it as `stackWalk`. -/

namespace Sys2Proof.Machine

/-- What a visit finds when it raises nothing: a LEAF's symbol, or an INTERNAL node's children. -/
inductive Visit where
  | leaf (sym : Word)
  | internal (left right : Handle)
  deriving DecidableEq, Repr

/-- The checks of R143 at the visit of handle `h` at depth `d` with `n` entries written, in the order written. -/
def visit (c : Config) (nnodes : Nat) (m : Memory) (h : Handle) (d n : Nat) : Except Failure Visit :=
  if nnodes ≤ h.toNat then .error (invalidTree h d)
  else
    let nd := node c m h.toNat
    match nd.kind with
    | .leaf =>
      if nd.left ≠ nilHandle ∨ nd.right ≠ nilHandle then .error (invalidTree h d)
      else if n = c.nsym then .error (invalidTree h d)
      else .ok (.leaf nd.sym)
    | .internal =>
      if nd.left = nilHandle ∨ nd.right = nilHandle then .error (invalidTree h d)
      else if d = maxLen c then .error (invalidTree h d)
      else .ok (.internal nd.left nd.right)

/-- walk(h, d) of R143: `path` is PATH[0 .. d-1], `n` the working copy of NCODE. The first argument is MAXLEN - d, the levels
still allowed below `h`. -/
def walk (c : Config) (nnodes : Nat) : (room : Nat) → (path : List Bool) → (h : Handle) → (n : Nat) → Memory →
    Except Failure (Nat × Memory)
  | 0, path, h, n, m =>
    match visit c nnodes m h path.length n with
    | .error f => .error f
    | .ok (.leaf sym) => .ok (n + 1, setCode c n sym path.length path m)
    | .ok (.internal _ _) => .error (invalidTree h path.length)
  | room + 1, path, h, n, m =>
    match visit c nnodes m h path.length n with
    | .error f => .error f
    | .ok (.leaf sym) => .ok (n + 1, setCode c n sym path.length path m)
    | .ok (.internal l r) =>
      match walk c nnodes room (path ++ [false]) l n m with
      | .error f => .error f
      | .ok (n', m') => walk c nnodes room (path ++ [true]) r n' m'

/-- The engine's explicit stack (R145): an entry is a handle to visit, its depth, the branch into it being a right one.
`path` is PATH[0 .. d-1] at the visit of `h`; on a pop of (h, d'), PATH[d'-1] becomes 1. -/
def stackWalk (c : Config) (nnodes : Nat) : (bound : Nat) → (path : List Bool) → (h : Handle) → (n : Nat) → Memory →
    (stack : List (Handle × Nat)) → Except Failure (Nat × Memory)
  | 0, path, h, _, _, _ => .error (invalidTree h path.length)
  | bound + 1, path, h, n, m, stack =>
    match visit c nnodes m h path.length n with
    | .error f => .error f
    | .ok (.leaf sym) =>
      let m' := setCode c n sym path.length path m
      match stack with
      | [] => .ok (n + 1, m')
      | (h', d') :: rest => stackWalk c nnodes bound (path.take (d' - 1) ++ [true]) h' (n + 1) m' rest
    | .ok (.internal l r) =>
      stackWalk c nnodes bound (path ++ [false]) l n m ((r, path.length + 1) :: stack)

/-- The number of visits R146 gives as a bound for any contents of NODE. -/
def visitBound (c : Config) : Nat := (c.nsym + 1) * (maxLen c + 1)

/-- The degenerate tree, a LEAF at the root: the one code "0" (R141, R144). -/
def singleLeaf (c : Config) (root : Handle) (nd : Node) (m : Memory) : Except Failure (Nat × Memory) :=
  if nd.left ≠ nilHandle ∨ nd.right ≠ nilHandle then .error (invalidTree root 0)
  else .ok (1, setCode c 0 nd.sym 1 [false] m)

/-- GENCODES up to its completion (R141): CODE and NCODE in place, or what it raises. -/
def gencodesRun (s : State) : Except Failure State :=
  if nnodeMax s.cfg < s.nnodes.toNat then .error (badLength 0x08 s.nnodes)
  else if s.nnodes.toNat ≤ s.root.toNat then .error (invalidTree s.root 0)
  else
    let nd := node s.cfg s.mem s.root.toNat
    match (match nd.kind with
      | .leaf => singleLeaf s.cfg s.root nd s.mem
      | .internal => walk s.cfg s.nnodes.toNat (maxLen s.cfg) [] s.root 0 s.mem) with
    | .ok (n, m) => .ok { s with mem := m, ncode := BitVec.ofNat 32 n }
    | .error f => .error f

/-- GENCODES (R141). -/
def execGencodes (s : State) : Host.Outcome State Fault Refusal := .next (finish .gencodes s (gencodesRun s))

end Sys2Proof.Machine
end

