-- ==== Sys2Proof/Machine/HostPort.lean ====
section
/-! DEFINITION. The host port: the address map, reads and writes, and the BUSY rule (spec/20_memory.md R60 to R69; spec/10_state.md R24 to R35). -/

namespace Sys2Proof.Machine

/-- What stands at a word address (R64). -/
inductive Location where
  | ctrl | cmd | status | errinfo | errpos | slen | blen | nfreq | nnodes | root | ncode
  /-- The word at offset `k` of the FREQ window. -/
  | freqWord (k : Nat)
  /-- The word at offset `k` of the NODE window. -/
  | nodeWord (k : Nat)
  /-- The word at offset `k` of the CODE window. -/
  | codeWord (k : Nat)
  /-- SYMBUF[i]. -/
  | symbufWord (i : Nat)
  /-- Word `w` of BITBUF. -/
  | bitbufWord (w : Nat)
  /-- A reserved register (R35) or an unmapped address (R67). -/
  | unmapped
  deriving DecidableEq, Repr

/-- The register block (R64). -/
def registerAt (n : Nat) : Location :=
  match n with
  | 0x00 => .ctrl
  | 0x01 => .cmd
  | 0x02 => .status
  | 0x03 => .errinfo
  | 0x04 => .errpos
  | 0x05 => .slen
  | 0x06 => .blen
  | 0x07 => .nfreq
  | 0x08 => .nnodes
  | 0x09 => .root
  | 0x0A => .ncode
  | _ => .unmapped

/-- The word-address map (R64); elements beyond a capacity are unmapped. Reserved words of elements are fields of no bits
(`freqWidth`, `nodeWidth`, `codeWidth`). -/
def locate (c : Config) (a : HostAddr) : Location :=
  let n := a.toNat
  if n < 0x10 then registerAt n
  else if 0x200 ≤ n ∧ n < 0x200 + 2 * c.nsym then .freqWord (n - 0x200)
  else if 0x1000 ≤ n ∧ n < 0x1000 + 8 * nnodeMax c then .nodeWord (n - 0x1000)
  else if 0x2000 ≤ n ∧ n < 0x2000 + 16 * c.nsym then .codeWord (n - 0x2000)
  else if 0x10000 ≤ n ∧ n < 0x10000 + c.seqN then .symbufWord (n - 0x10000)
  else if 0x20000 ≤ n ∧ n < 0x20000 + c.bitN / 32 then .bitbufWord (n - 0x20000)
  else .unmapped

/-- The word at a location, as an idle HUFFCORE returns it: fields zero-extended, CMD and what is not mapped 0. -/
def wordAt (s : State) (l : Location) : Word :=
  match l with
  | .ctrl => BitVec.ofNat 32 s.ie.toNat
  | .cmd => 0
  | .status => statusWord s.status
  | .errinfo => s.errinfo
  | .errpos => s.errpos
  | .slen => s.slen
  | .blen => s.blen
  | .nfreq => s.nfreq
  | .nnodes => s.nnodes
  | .root => s.root.setWidth 32
  | .ncode => s.ncode
  | .freqWord k => freqWord s.cfg s.mem k
  | .nodeWord k => nodeWord s.cfg s.mem k
  | .codeWord k => codeWord s.cfg s.mem k
  | .symbufWord i => symbol s.cfg s.mem i
  | .bitbufWord w => bitWord s.mem w
  | .unmapped => 0

/-- CTRL and STATUS are read at all times; every other read returns 0 while BUSY = 1 (R66). -/
def readableWhileBusy (l : Location) : Bool :=
  match l with
  | .ctrl => true
  | .status => true
  | _ => false

/-- HostRead(a) (R60, R66). -/
def hostRead (s : State) (a : HostAddr) : Word :=
  let l := locate s.cfg a
  if s.status.busy && !readableWhileBusy l then 0 else wordAt s l

/-- A write at a location while BUSY = 0; a write to CMD is the acceptance of a command (R25, R94). -/
def storeAt (l : Location) (d : Word) (s : State) : State :=
  match l with
  | .ctrl => { s with ie := d.getLsbD 0 }
  | .cmd => accept d s
  | .status => { s with status := acknowledgedStatus s.status d }
  | .errinfo => s
  | .errpos => s
  | .slen => { s with slen := d }
  | .blen => { s with blen := d }
  | .nfreq => { s with nfreq := d }
  | .nnodes => { s with nnodes := d }
  | .root => { s with root := d.setWidth 9 }
  | .ncode => { s with ncode := d }
  | .freqWord k => { s with mem := setFreqWord s.cfg k d s.mem }
  | .nodeWord k => { s with mem := setNodeWord s.cfg k d s.mem }
  | .codeWord k => { s with mem := setCodeWord s.cfg k d s.mem }
  | .symbufWord i => { s with mem := setSymbol s.cfg i d s.mem }
  | .bitbufWord w => { s with mem := setBitWord w d s.mem }
  | .unmapped => s

/-- Writes to CTRL take effect at all times; every other write is ignored while BUSY = 1 (R66). -/
def writableWhileBusy (l : Location) : Bool :=
  match l with
  | .ctrl => true
  | _ => false

/-- HostWrite(a, d) (R60, R66). -/
def hostWrite (a : HostAddr) (d : Word) (s : State) : State :=
  let l := locate s.cfg a
  if s.status.busy && !writableWhileBusy l then s else storeAt l d s

/-- A read transaction: the word goes to the port, and nothing else changes (R69). -/
def performRead (a : HostAddr) (s : State) : State := { s with rdata := hostRead s a }

end Sys2Proof.Machine
end

