-- ==== Sys2Proof/Machine/Engine.lean ====
section
/-! DEFINITION. One move of the engine, one move of the outside, and the placing of a command word where the engine takes it from (spec/00_scope.md R7; spec/20_memory.md R71, R73; spec/70_reset_and_hazards.md R240). -/

namespace Sys2Proof.Machine

/-- The running command completes: the command of CMDW by its meaning, any other word as an illegal command (R92, R97, R195). -/
def runCommand (s : State) : Host.Outcome State Fault Refusal :=
  match decode s.cmdw with
  | .ok i => exec i s
  | .error _ => .next (rejectCommand s)

/-- The engine's move: it completes the command it is running; idle, it stays idle (R220, R240). -/
def engineMove (s : State) : Host.Outcome State Fault Refusal :=
  if s.status.busy then runCommand s else .next s

/-- One entry of the inputs, the others still pending in `s`. -/
def performInput (e : Input) (s : State) : Host.Outcome State Fault Refusal :=
  match e with
  | .hostRead a => .next (performRead a s)
  | .hostWrite a d => .next (hostWrite a d s)
  | .tick => engineMove s
  | .rst => .next (pinReset s)

/-- A step: the oldest input, or with none left a move of the engine, so that every command completes (R241). Log 2. -/
def nextMove (s : State) : Host.Outcome State Fault Refusal :=
  match s.inputs with
  | [] => engineMove s
  | e :: rest => performInput e { s with inputs := rest }

/-- The command word `w` accepted and the engine about to move: the engine takes its command from CMDW, where the acceptance
of a write to CMD put it (R73, R94). Log 3. -/
def placeCommand (w : Word) (s : State) : State := { accept w s with inputs := .tick :: s.inputs }

end Sys2Proof.Machine
end

