-- ==== Sys2Proof/Machine/Step.lean ====
section
/-! DEFINITION. The step, and the host's way to place an instruction for the next step. -/

namespace Sys2Proof.Machine

/-- One step of HUFFCORE and its outside. -/
def step (s : State) : Host.Outcome State Fault Refusal := nextMove s

/-- `s` with the instruction of `nbits` bits `w` placed so that the very next step runs it. Log 3. -/
def State.withFetchWord (s : State) (nbits w : Nat) : State := placeCommand (tableWord nbits w) s

end Sys2Proof.Machine
end

