-- ==== Sys2Proof/Machine/Script.lean ====
section
/-! DEFINITION. The host script notation (spec/30_encoding.md R99, R100) as inputs of the machine. The notation is the spec's, the hardware knows none of it. -/

namespace Sys2Proof.Machine

/-- The address of SYMBUF[i] (spec/20_memory.md R64). -/
def symbufAddr (i : Nat) : HostAddr := BitVec.ofNat 18 (0x10000 + i)
/-- The address of word `f` of FREQ[j]. -/
def freqAddr (j f : Nat) : HostAddr := BitVec.ofNat 18 (0x200 + 2 * j + f)
/-- The address of word `f` of NODE[h]. -/
def nodeAddr (h f : Nat) : HostAddr := BitVec.ofNat 18 (0x1000 + 8 * h + f)
/-- The address of word `f` of CODE[j]. -/
def codeAddr (j f : Nat) : HostAddr := BitVec.ofNat 18 (0x2000 + 16 * j + f)
/-- The address of word `w` of BITBUF. -/
def bitbufAddr (w : Nat) : HostAddr := BitVec.ofNat 18 (0x20000 + w)

/-- The statements of R99 and the pseudo-statements of R100. -/
inductive Stmt where
  /-- `WR a, d`. -/
  | wr (a : HostAddr) (d : Word)
  /-- `RD a`. -/
  | rd (a : HostAddr)
  /-- `COUNT`, `BUILD`, `GENCODES`, `ENCODE`, `DECODE`. -/
  | issue (i : Instr)
  /-- `CMD d`. -/
  | cmd (d : Word)
  /-- `WAIT`, with `polls` reads of STATUS before the completion. -/
  | wait (polls : Nat)
  /-- `ACK`. -/
  | ack
  /-- `LOADSYM`, the symbols given by their codes. -/
  | loadSym (codes : List Word)
  /-- `LOADBITS`. -/
  | loadBits (bits : List Bool)
  /-- `COMPRESS`. -/
  | compress
  deriving DecidableEq, Repr

/-- WAIT: `polls` reads that return BUSY = 1, the completion, and the read that returns BUSY = 0 (R100). Log 21. -/
def waitInputs (polls : Nat) : List Input := List.replicate polls (.hostRead 0x02) ++ [.tick, .hostRead 0x02]

/-- LOADBITS: the words of the bit string, unused high bits 0, then BLEN (R100). -/
def loadBitsInputs (bits : List Bool) : List Input :=
  (List.range ((bits.length + 31) / 32)).map
      (fun w => .hostWrite (bitbufAddr w) (packWord (fun k => bits.getD (32 * w + k) false)))
    ++ [.hostWrite 0x06 (BitVec.ofNat 32 bits.length)]

/-- LOADSYM: the symbols, then SLEN (R100). -/
def loadSymInputs (codes : List Word) : List Input :=
  (codes.zipIdx.map (fun p => .hostWrite (symbufAddr p.2) p.1)) ++ [.hostWrite 0x05 (BitVec.ofNat 32 codes.length)]

/-- Feed inputs one step each; each step sees only its own input pending. -/
def feed : List Input → State → Host.Outcome State Fault Refusal
  | [], s => .next s
  | e :: rest, s =>
    match step { s with inputs := [e] } with
    | .next t => feed rest t
    | .fault f => .fault f
    | .refused r => .refused r

/-- COMPRESS over the commands still to issue: each is issued and awaited, and the first ERR other than 0 stops (R100). -/
def runPipeline : List Instr → State → Host.Outcome State Fault Refusal
  | [], s => .next s
  | i :: rest, s =>
    match feed (.hostWrite 0x01 (encode i) :: waitInputs 0) s with
    | .next t => if t.status.err = .success then runPipeline rest t else .next t
    | .fault f => .fault f
    | .refused r => .refused r

/-- One statement, run from `s`. -/
def runStmt (st : Stmt) (s : State) : Host.Outcome State Fault Refusal :=
  match st with
  | .wr a d => feed [.hostWrite a d] s
  | .rd a => feed [.hostRead a] s
  | .issue i => feed [.hostWrite 0x01 (encode i)] s
  | .cmd d => feed [.hostWrite 0x01 d] s
  | .wait polls => feed (waitInputs polls) s
  | .ack => feed [.hostWrite 0x02 0x00000002#32] s
  | .loadSym codes => feed (loadSymInputs codes) s
  | .loadBits bits => feed (loadBitsInputs bits) s
  | .compress => runPipeline [.count, .build, .gencodes, .encode] s

/-- A script: statements in order. -/
def runScript : List Stmt → State → Host.Outcome State Fault Refusal
  | [], s => .next s
  | st :: rest, s =>
    match runStmt st s with
    | .next t => runScript rest t
    | .fault f => .fault f
    | .refused r => .refused r

end Sys2Proof.Machine
end

