-- ==== Sys2Proof/Safety.lean ====
section
/-! DEFINITION. What a legal state is, and the vocabulary the statements are written in: values of the source's types read out of the state, and what each command may change. -/

namespace Sys2Proof.Safety

open Sys2Proof.Machine

/-! ## Legal states -/

/-- A hidden store in canonical form. -/
def hiddenWf {α : Type} (cap : Nat) (st : Store α) : Prop := rising st.cells ∧ ∀ p ∈ st.cells, p.1 < cap

/-- The invariant of HUFFCORE: the memories are canonical, the free values in use were drawn, and STATUS, PHASE, CMDW,
ERRINFO and ERRPOS agree as spec/10_state.md R22, R26, R27, R28 say. -/
structure Inv (s : State) : Prop where
  memory : Memory.wf s.cfg s.mem
  heap : hiddenWf s.cfg.nsym s.heap
  heapn : s.heapn.toNat ≤ s.cfg.nsym
  stack : hiddenWf (maxLen s.cfg) s.stack
  epochs : s.mem.symbuf.epoch < s.fresh ∧ s.mem.bitbuf.epoch < s.fresh ∧ s.mem.freq.epoch < s.fresh ∧
    s.mem.node.epoch < s.fresh ∧ s.mem.code.epoch < s.fresh ∧ s.heap.epoch < s.fresh ∧ s.stack.epoch < s.fresh
  phaseIdle : s.phase = .idle ↔ s.status.busy = false
  notBusyAndDone : ¬(s.status.busy = true ∧ s.status.done = true)
  running : s.status.busy = true →
    s.phase = phaseOf s.cmdw ∧ s.status.op = opField s.cmdw ∧ s.status.err = .success
  noDetail : s.status.err = .success → s.errinfo = 0 ∧ s.errpos = 0

/-! ## The values the memories carry (spec/00_scope.md R12) -/

/-- The symbol sequence SYMBUF[0 .. SLEN-1]. -/
def symbols (s : State) : List Word := (List.range s.slen.toNat).map (symbol s.cfg s.mem)

/-- The bit sequence BITBUF[0 .. BLEN-1]. -/
def bits (s : State) : List Bool := (List.range s.blen.toNat).map (bit s.mem)

/-- The FrequencyTable FREQ[0 .. NFREQ-1]: symbols and counts. -/
def frequencyTable (s : State) : List (Word × Nat) :=
  (List.range s.nfreq.toNat).map (fun j => (freqSym s.cfg s.mem j, (freqCnt s.cfg s.mem j).toNat))

/-- CODE[j]: the symbol, and the first `len` bits. -/
def codeEntry (s : State) (j : Nat) : Word × List Bool :=
  (codeSym s.cfg s.mem j, (List.range (codeLen s.cfg s.mem j)).map (codeBit s.cfg s.mem j))

/-- The CodeTable CODE[0 .. NCODE-1]. -/
def codeTable (s : State) : List (Word × List Bool) := (List.range s.ncode.toNat).map (codeEntry s)

/-- The different values of a sequence, in order of first occurrence (spec/40_count.md R112). -/
def firstOccurrences : List Word → List Word
  | [] => []
  | x :: xs => x :: (firstOccurrences xs).filter (fun y => y != x)

/-- A Huffman tree (spec/00_scope.md R12), without frequencies. -/
inductive HTree where
  | leaf (sym : Word)
  | internal (left right : HTree)
  deriving DecidableEq, Repr

/-- The depth of a tree. -/
def HTree.depth : HTree → Nat
  | .leaf _ => 0
  | .internal l r => 1 + max l.depth r.depth

/-- The number of leaves. -/
def HTree.leaves : HTree → Nat
  | .leaf _ => 1
  | .internal l r => l.leaves + r.leaves

/-- The leaves' symbols with the paths to them, left subtree first; `path` leads to the tree. -/
def HTree.paths : HTree → List Bool → List (Word × List Bool)
  | .leaf sym, path => [(sym, path)]
  | .internal l r, path => l.paths (path ++ [false]) ++ r.paths (path ++ [true])

/-- The code table of a tree: the paths, but the one code "0" for a tree that is a single leaf (spec/42_gencodes.md R144). -/
def HTree.codes : HTree → List (Word × List Bool)
  | .leaf sym => [(sym, [false])]
  | .internal l r => HTree.paths (.internal l r) []

/-- Handle `h` of NODE names the root of tree `t`, every node of it below NNODES and well formed (spec/10_state.md R39). -/
def holdsTree (s : State) (h : Handle) : HTree → Bool
  | .leaf sym =>
    decide (h.toNat < s.nnodes.toNat) && decide ((node s.cfg s.mem h.toNat).kind = .leaf) &&
    decide ((node s.cfg s.mem h.toNat).sym = sym) && decide ((node s.cfg s.mem h.toNat).left = nilHandle) &&
    decide ((node s.cfg s.mem h.toNat).right = nilHandle)
  | .internal l r =>
    decide (h.toNat < s.nnodes.toNat) && decide ((node s.cfg s.mem h.toNat).kind = .internal) &&
    holdsTree s (node s.cfg s.mem h.toNat).left l && holdsTree s (node s.cfg s.mem h.toNat).right r

/-- The handle reached from `h` along a path: left on 0, right on 1. -/
def follow (s : State) (h : Handle) : List Bool → Handle
  | [] => h
  | b :: rest => follow s (if b then (node s.cfg s.mem h.toNat).right else (node s.cfg s.mem h.toNat).left) rest

/-- No code of the table is a prefix of the code of another entry. -/
def prefixFree (table : List (Word × List Bool)) : Prop :=
  table.Pairwise (fun a b => ¬ a.2 <+: b.2 ∧ ¬ b.2 <+: a.2)

/-- CODE[j] is the entry ENCODE uses for symbol `x` (spec/43_encode.md R157), in the rule's own words. -/
def usedEntry (s : State) (x : Word) (j : Nat) : Prop :=
  (j < s.ncode.toNat ∧ codeSym s.cfg s.mem j = x ∧ 1 ≤ codeLen s.cfg s.mem j ∧ codeLen s.cfg s.mem j ≤ maxLen s.cfg) ∧
  ∀ k < j, ¬(codeSym s.cfg s.mem k = x ∧ 1 ≤ codeLen s.cfg s.mem k ∧ codeLen s.cfg s.mem k ≤ maxLen s.cfg)

/-- No element of CODE[0 .. NCODE-1] is an entry of symbol `x` (spec/43_encode.md R157). -/
def noEntry (s : State) (x : Word) : Prop :=
  ∀ j < s.ncode.toNat, ¬(codeSym s.cfg s.mem j = x ∧ 1 ≤ codeLen s.cfg s.mem j ∧ codeLen s.cfg s.mem j ≤ maxLen s.cfg)

/-- The number of bits of the codes of the first `n` symbols, symbol k encoded by CODE[f k]. -/
def codedLength (s : State) (f : Nat → Nat) (n : Nat) : Nat := ((List.range n).map (fun k => codeLen s.cfg s.mem (f k))).sum

/-! ## BUILD by the order alone (spec/41_build.md R124) -/

/-- The least of two handles under `less`. -/
def lesser (c : Config) (m : Memory) (x y : Handle) : Handle := if less c m y x then y else x

/-- The least member of a queue with first member `x` under `less`. -/
def leastOf (c : Config) (m : Memory) (x : Handle) (rest : List Handle) : Handle := rest.foldl (lesser c m) x

/-- R124's step while the queue `q` has more than one member, on any queue: the least is taken, then the least without it, and
the merged node goes in. -/
def orderMerge (c : Config) : (bound k : Nat) → Memory → List Handle → Nat × Memory × List Handle
  | 0, k, m, q => (k, m, q)
  | bound + 1, k, m, q =>
    match q with
    | x :: y :: rest =>
      let a := leastOf c m x (y :: rest)
      match (x :: y :: rest).erase a with
      | [] => (k, m, q)
      | z :: q1 =>
        let b := leastOf c m z q1
        orderMerge c bound (k + 1) (setNode c k (mergeOf c m a b) m) (BitVec.ofNat 9 k :: (z :: q1).erase b)
    | _ => (k, m, q)

/-- The leaves of R122, for FREQ[0 .. n-1]. -/
def leavesMade (c : Config) (m : Memory) (n : Nat) : Memory :=
  (List.range n).foldl (fun m j => setNode c j (leafOf c m j) m) m

/-! ## How a command ends (spec/60_exceptions.md R197, R198) -/

/-- Everything a completion leaves as it was, whatever the command: the parameters, CTRL, OP, CMDW, the pending inputs and the
port's last word (CMDW: log 9; the inputs and the last word are the model's, log 2 and log 4). -/
def keepsControl (s t : State) : Prop :=
  t.cfg = s.cfg ∧ t.ie = s.ie ∧ t.status.op = s.status.op ∧ t.cmdw = s.cmdw ∧ t.inputs = s.inputs ∧ t.rdata = s.rdata

/-- `t` is a completion of `s` with success (R197). -/
def completedOk (s t : State) : Prop :=
  t.status = { busy := false, done := true, err := .success, op := s.status.op } ∧ t.errinfo = 0 ∧ t.errpos = 0 ∧ t.phase = .idle

/-- `t` is a completion of `s` with error `e` and its details (R197). -/
def completedWith (s t : State) (e : Err) (info pos : Word) : Prop :=
  t.status = { busy := false, done := true, err := e, op := s.status.op } ∧ t.errinfo = info ∧ t.errpos = pos ∧ t.phase = .idle

/-- The registers that name the output of a command hold the empty value (R198). -/
def outputEmpty (i : Instr) (t : State) : Prop :=
  match i with
  | .count => t.nfreq = 0
  | .build => t.nnodes = 0 ∧ t.root = nilHandle
  | .gencodes => t.ncode = 0
  | .encode => t.blen = 0
  | .decode => t.slen = 0

/-- Command `i` run from `s` completes with error `e` and its output emptied. -/
def failsWith (i : Instr) (s : State) (e : Err) (info pos : Word) : Prop :=
  ∃ t, exec i s = .next t ∧ completedWith s t e info pos ∧ outputEmpty i t

/-! ## What a command may change, as locations of the port (spec/30_encoding.md R96) -/

/-- STATUS, ERRINFO and ERRPOS, which every completion writes. -/
def resultRegisters : Location → Bool
  | .status => true
  | .errinfo => true
  | .errpos => true
  | _ => false

/-- Word addresses at which nothing is mapped, by R64 and R65: reserved registers, the gaps between the windows, elements
beyond a capacity, and the reserved words of NODE and CODE elements. -/
def unmappedAddress (c : Config) (n : Nat) : Prop :=
  (0x0B ≤ n ∧ n < 0x200) ∨ (0x200 + 2 * c.nsym ≤ n ∧ n < 0x1000) ∨ (0x1000 + 8 * nnodeMax c ≤ n ∧ n < 0x2000) ∨
  (0x2000 + 16 * c.nsym ≤ n ∧ n < 0x10000) ∨ (0x10000 + c.seqN ≤ n ∧ n < 0x20000) ∨ 0x20000 + c.bitN / 32 ≤ n ∨
  (0x1000 ≤ n ∧ n < 0x2000 ∧ 6 ≤ n % 8) ∨ (0x2000 ≤ n ∧ n < 0x3000 ∧ 10 ≤ n % 16)

/-- What the host reads at an address right after writing `d` there. -/
def readBack (s : State) (a : HostAddr) (d : Word) : Nat := (hostRead (hostWrite a d s) a).toNat

/-! ## Trees with a defect, and descents (spec/42_gencodes.md R143, spec/44_decode.md R172) -/

/-- Node `h` is INTERNAL with two children that are not NIL. -/
def goodInternal (s : State) (h : Handle) : Prop :=
  (node s.cfg s.mem h.toNat).kind = .internal ∧ (node s.cfg s.mem h.toNat).left ≠ nilHandle ∧
  (node s.cfg s.mem h.toNat).right ≠ nilHandle

/-- Node `h` is a LEAF with a child. -/
def leafWithChild (s : State) (h : Handle) : Prop :=
  (node s.cfg s.mem h.toNat).kind = .leaf ∧
  ((node s.cfg s.mem h.toNat).left ≠ nilHandle ∨ (node s.cfg s.mem h.toNat).right ≠ nilHandle)

/-- Node `h` is INTERNAL and misses a child. -/
def internalMissingChild (s : State) (h : Handle) : Prop :=
  (node s.cfg s.mem h.toNat).kind = .internal ∧
  ((node s.cfg s.mem h.toNat).left = nilHandle ∨ (node s.cfg s.mem h.toNat).right = nilHandle)

/-- The path `p` from ROOT runs through well-formed INTERNAL nodes only, and ends at an INTERNAL node. -/
def descends (s : State) (p : List Bool) : Prop :=
  (∀ k < p.length, goodInternal s (follow s s.root (p.take k)) ∧
    (follow s s.root (p.take (k + 1))).toNat < s.nnodes.toNat) ∧
  ∀ k ≤ p.length, (node s.cfg s.mem (follow s s.root (p.take k)).toNat).kind = .internal

/-- A visit of handle `h` at depth `d` goes on to its children: in range, INTERNAL with two children, above MAXLEN (R143). -/
def passable (s : State) (h : Handle) (d : Nat) : Bool :=
  decide (h.toNat < s.nnodes.toNat) && decide ((node s.cfg s.mem h.toNat).kind = .internal) &&
  decide ((node s.cfg s.mem h.toNat).left ≠ nilHandle) && decide ((node s.cfg s.mem h.toNat).right ≠ nilHandle) &&
  decide (d < maxLen s.cfg)

/-- The traversal of R143, at handle `h` and depth `d`, comes to the node at path `p` below it without a defect, having finished
the well-formed left subtrees `done`, one for each right turn of the path, in that order. -/
def walksTo (s : State) (h : Handle) (d : Nat) : List Bool → List HTree → Bool
  | [], done => done.isEmpty
  | false :: p, done => passable s h d && walksTo s (node s.cfg s.mem h.toNat).left (d + 1) p done
  | true :: p, l :: done =>
    passable s h d && holdsTree s (node s.cfg s.mem h.toNat).left l && decide (d + 1 + l.depth ≤ maxLen s.cfg) &&
    walksTo s (node s.cfg s.mem h.toNat).right (d + 1) p done
  | true :: _, [] => false

/-- The bits `q` lead from ROOT through INTERNAL nodes with two children to a well-formed LEAF of `sym` (R171). -/
def emits (s : State) (sym : Word) (q : List Bool) : Prop :=
  q ≠ [] ∧
  (∀ k < q.length, goodInternal s (follow s s.root (q.take k)) ∧ (follow s s.root (q.take (k + 1))).toNat < s.nnodes.toNat) ∧
  (node s.cfg s.mem (follow s s.root q).toNat).kind = .leaf ∧ (node s.cfg s.mem (follow s s.root q).toNat).sym = sym ∧
  (node s.cfg s.mem (follow s s.root q).toNat).left = nilHandle ∧
  (node s.cfg s.mem (follow s s.root q).toNat).right = nilHandle

/-! ## The heap (spec/41_build.md R127) -/

/-- No handle of the heap is before its parent under `less`. -/
def heapOrdered (c : Config) (m : Memory) (q : List Handle) : Prop :=
  ∀ p < q.length, 0 < p → less c m (heapAt q p) (heapAt q ((p - 1) / 2)) = false

/-! ## What a command reads and writes (spec/30_encoding.md R96) -/

/-- The node at path `p` is reached from ROOT: it is below NNODES, and the path to it runs through INTERNAL nodes below NNODES
with two children. -/
def reached (s : State) (p : List Bool) : Prop :=
  (∀ k < p.length, (follow s s.root (p.take k)).toNat < s.nnodes.toNat ∧ goodInternal s (follow s s.root (p.take k))) ∧
  (follow s s.root p).toNat < s.nnodes.toNat

/-- Two nodes agree in all that GENCODES and DECODE read of a node: not in `freq`, nor in the `sym` of an INTERNAL node
(spec/41_build.md R124, spec/70_reset_and_hazards.md R224). -/
def sameNode (x y : Node) : Prop :=
  x.kind = y.kind ∧ x.left = y.left ∧ x.right = y.right ∧ (x.kind = .leaf → x.sym = y.sym)

/-- Two states agree on ROOT, NNODES and the nodes reached from ROOT. -/
def sameReachedNodes (s s' : State) : Prop :=
  s.root = s'.root ∧ s.nnodes = s'.nnodes ∧
  ∀ p, reached s p →
    sameNode (node s.cfg s.mem (follow s s.root p).toNat) (node s'.cfg s'.mem (follow s s.root p).toNat)

/-- Two states agree on the read set of a command. -/
def sameInputs (i : Instr) (s s' : State) : Prop :=
  match i with
  | .count => s.slen = s'.slen ∧ symbols s = symbols s'
  | .build => s.nfreq = s'.nfreq ∧ frequencyTable s = frequencyTable s'
  | .gencodes => sameReachedNodes s s'
  | .encode => s.slen = s'.slen ∧ symbols s = symbols s' ∧ s.ncode = s'.ncode ∧ codeTable s = codeTable s'
  | .decode => s.blen = s'.blen ∧ bits s = bits s' ∧ sameReachedNodes s s'

/-- Two states agree on the result of a command: the error with its details, and the output value. -/
def sameOutputs (i : Instr) (t t' : State) : Prop :=
  t.status.err = t'.status.err ∧ t.errinfo = t'.errinfo ∧ t.errpos = t'.errpos ∧
  match i with
  | .count => t.nfreq = t'.nfreq ∧ frequencyTable t = frequencyTable t'
  | .build => t.nnodes = t'.nnodes ∧ t.root = t'.root ∧ ∀ h < t.nnodes.toNat, node t.cfg t.mem h = node t'.cfg t'.mem h
  | .gencodes => t.ncode = t'.ncode ∧ codeTable t = codeTable t'
  | .encode => t.blen = t'.blen ∧ bits t = bits t'
  | .decode => t.slen = t'.slen ∧ symbols t = symbols t'

end Sys2Proof.Safety
end

