-- ==== Sys2Proof/Certificates/Slice0/Obligations.lean ====
section
/-! DEFINITION. The statements about HUFFCORE for the provers, one definition each; OBLIGATIONS.json says what each formalises. -/

open Sys2Proof Sys2Proof.Machine Sys2Proof.Safety

/-! ## Encoding and the step -/

/-- Every command's word decodes to the command (R92). -/
def Obligations.EncodedCommandDecodesToItself : Prop :=
  ∀ i : Instr, decode (encode i) = .ok i

/-- R92: a word is the command of a row exactly when all its 32 bits equal the row's word. -/
def Obligations.OnlyTheFiveWordsAreCommands : Prop :=
  ∀ w : Word,
    (decode w = .ok .count ↔ w = 0x00000001#32) ∧ (decode w = .ok .build ↔ w = 0x00000002#32) ∧
    (decode w = .ok .gencodes ↔ w = 0x00000003#32) ∧ (decode w = .ok .encode ↔ w = 0x00000004#32) ∧
    (decode w = .ok .decode ↔ w = 0x00000005#32)

/-- The words of R92 and of V-X1 to V-X7, written out. -/
def Obligations.WrittenOutWordsDecodeAsListed : Prop :=
  decodeTableWord 32 0x00000001 = some .count ∧ decodeTableWord 32 0x00000002 = some .build ∧
  decodeTableWord 32 0x00000003 = some .gencodes ∧ decodeTableWord 32 0x00000004 = some .encode ∧
  decodeTableWord 32 0x00000005 = some .decode ∧ decodeTableWord 32 0x00000000 = none ∧
  decodeTableWord 32 0x00000006 = none ∧ decodeTableWord 32 0x00000013 = none ∧ decodeTableWord 32 0x80000001 = none

/-- Where the engine moves next and runs a command, the step is that command's meaning (`tick` is the model's, log 2). -/
def Obligations.StepRunsTheDecodedCommand : Prop :=
  ∀ (s : State) (i : Instr), s.status.busy = true → decode s.cmdw = .ok i →
    (s.inputs = [] → step s = exec i s) ∧
    (∀ rest, s.inputs = .tick :: rest → step s = exec i { s with inputs := rest })

/-- A placed word runs in the very next step, from the state its acceptance gives (the model's choice of log 3). -/
def Obligations.PlacedCommandRunsInTheNextStep : Prop :=
  ∀ (s : State) (i : Instr),
    step (s.withFetchWord 32 (encode i).toNat) =
      exec i { s with
        cmdw := encode i
        status := { busy := true, done := false, err := .success, op := opField (encode i) }
        errinfo := 0, errpos := 0
        phase := match i with
          | .count => .counting
          | .build => .building
          | .gencodes => .generating
          | .encode => .encoding
          | .decode => .decoding }

/-! ## The host port -/

/-- R94: acceptance, and the write to CMD that is ignored while BUSY = 1. -/
def Obligations.WriteToCmdIsTheAcceptance : Prop :=
  ∀ (s : State) (d : Word) (rest : List Input), s.inputs = .hostWrite 0x01 d :: rest →
    (s.status.busy = false → step s = .next { s with
      inputs := rest
      cmdw := d
      status := { busy := true, done := false, err := .success, op := d.extractLsb' 0 4 }
      errinfo := 0, errpos := 0
      phase :=
        if d = 0x00000001#32 then .counting
        else if d = 0x00000002#32 then .building
        else if d = 0x00000003#32 then .generating
        else if d = 0x00000004#32 then .encoding
        else if d = 0x00000005#32 then .decoding
        else .rejecting }) ∧
    (s.status.busy = true → step s = .next { s with inputs := rest })

/-- R66: while BUSY = 1 only CTRL and STATUS are read and only CTRL is written. -/
def Obligations.BusyHidesAllButCtrlAndStatus : Prop :=
  ∀ (s : State) (a : HostAddr) (d : Word) (rest : List Input), s.status.busy = true →
    (s.inputs = .hostRead a :: rest → step s = .next { s with
      inputs := rest
      rdata := if a = 0x00 then (if s.ie then 1 else 0) else if a = 0x02 then statusWord s.status else 0 }) ∧
    (s.inputs = .hostWrite a d :: rest → step s = .next { s with
      inputs := rest
      ie := if a = 0x00 then d.getLsbD 0 else s.ie })

/-- R67: unmapped addresses, reserved registers and reserved words read 0 and ignore writes, at all times, and no
transaction at any address raises a bus error. -/
def Obligations.UnmappedReadsZeroAndIgnoresWrites : Prop :=
  (∀ (s : State) (a : HostAddr) (d : Word) (rest : List Input), unmappedAddress s.cfg a.toNat →
    (s.inputs = .hostRead a :: rest → step s = .next { s with inputs := rest, rdata := 0 }) ∧
    (s.inputs = .hostWrite a d :: rest → step s = .next { s with inputs := rest })) ∧
  (∀ (s : State) (a : HostAddr) (d : Word) (rest : List Input),
    s.inputs = .hostRead a :: rest ∨ s.inputs = .hostWrite a d :: rest → ∃ t, step s = .next t)

/-- Each field of an element reads back the bits of its width, reserved words 0 (R65). For CODE.bits the widths are those the
rule writes out, for MAXLEN = 255. -/
def Obligations.ElementFieldsKeepTheirLowBits : Prop :=
  ∀ (s : State) (d : Word), s.status.busy = false →
    (∀ i < s.cfg.seqN, readBack s (symbufAddr i) d = d.toNat % 2 ^ s.cfg.symW) ∧
    (∀ j < s.cfg.nsym, readBack s (freqAddr j 0) d = d.toNat % 2 ^ s.cfg.symW ∧
      readBack s (freqAddr j 1) d = d.toNat % 2 ^ s.cfg.cntW) ∧
    (∀ h < nnodeMax s.cfg, readBack s (nodeAddr h 0) d = d.toNat % 2 ∧ readBack s (nodeAddr h 1) d = d.toNat % 2 ^ s.cfg.symW ∧
      readBack s (nodeAddr h 2) d = d.toNat % 2 ^ min 32 (s.cfg.cntW + 8) ∧
      readBack s (nodeAddr h 3) d = d.toNat % 2 ^ (s.cfg.cntW + 8 - 32) ∧
      readBack s (nodeAddr h 4) d = d.toNat % 2 ^ 9 ∧ readBack s (nodeAddr h 5) d = d.toNat % 2 ^ 9 ∧
      readBack s (nodeAddr h 6) d = 0 ∧ readBack s (nodeAddr h 7) d = 0) ∧
    (∀ j < s.cfg.nsym, readBack s (codeAddr j 0) d = d.toNat % 2 ^ s.cfg.symW ∧
      readBack s (codeAddr j 1) d = d.toNat % 2 ^ 8 ∧
      (∀ f, 10 ≤ f → f < 16 → readBack s (codeAddr j f) d = 0) ∧
      (s.cfg.nsym = 256 → (∀ m < 7, readBack s (codeAddr j (2 + m)) d = d.toNat) ∧
        readBack s (codeAddr j 9) d = d.toNat % 2 ^ 31))

/-- The fields the engine works on are the words the host sees: one word a field, NODE.freq low word first, bit k of a code at
bit (k mod 32) of word +2 + (k div 32), and SYMBUF one word an element (R62, R65, R71). -/
def Obligations.EngineFieldsAreTheHostsWords : Prop :=
  ∀ s : State, s.status.busy = false →
    (∀ i < s.cfg.seqN, hostRead s (symbufAddr i) = symbol s.cfg s.mem i) ∧
    (∀ j < s.cfg.nsym, hostRead s (freqAddr j 0) = freqSym s.cfg s.mem j ∧ hostRead s (freqAddr j 1) = freqCnt s.cfg s.mem j) ∧
    (∀ h < nnodeMax s.cfg,
      (node s.cfg s.mem h).kind = (if hostRead s (nodeAddr h 0) = 0 then .leaf else .internal) ∧
      (node s.cfg s.mem h).sym = hostRead s (nodeAddr h 1) ∧
      (node s.cfg s.mem h).freq.toNat =
        (hostRead s (nodeAddr h 2)).toNat + 2 ^ 32 * (hostRead s (nodeAddr h 3)).toNat ∧
      (node s.cfg s.mem h).left.toNat = (hostRead s (nodeAddr h 4)).toNat ∧
      (node s.cfg s.mem h).right.toNat = (hostRead s (nodeAddr h 5)).toNat) ∧
    (∀ j < s.cfg.nsym,
      hostRead s (codeAddr j 0) = codeSym s.cfg s.mem j ∧ (hostRead s (codeAddr j 1)).toNat = codeLen s.cfg s.mem j ∧
      ∀ k < maxLen s.cfg, codeBit s.cfg s.mem j k = (hostRead s (codeAddr j (2 + k / 32))).getLsbD (k % 32))

/-- The model's reading of R40 (log 10): CODE.bits has MAXLEN = NSYM - 1 bits for every NSYM. -/
def Obligations.CodeBitsFieldHasMaxlenBits : Prop :=
  ∀ (s : State) (d : Word), s.status.busy = false → ∀ j < s.cfg.nsym, ∀ m < 8, ∀ k < 32,
    (hostRead (hostWrite (codeAddr j (2 + m)) d s) (codeAddr j (2 + m))).getLsbD k =
      (decide (32 * m + k < s.cfg.nsym - 1) && d.getLsbD k)

/-- The plain registers hold what is written, cut to their width; ERRINFO and ERRPOS ignore writes; CMD reads 0 and ROOT
keeps 9 bits (spec/10_state.md section 3). -/
def Obligations.RegistersReadBackWhatIsWritten : Prop :=
  ∀ (s : State) (d : Word), s.status.busy = false →
    readBack s 0x00 d = d.toNat % 2 ∧ hostRead s 0x01 = 0 ∧ readBack s 0x03 d = s.errinfo.toNat ∧
    readBack s 0x04 d = s.errpos.toNat ∧ readBack s 0x05 d = d.toNat ∧ readBack s 0x06 d = d.toNat ∧
    readBack s 0x07 d = d.toNat ∧ readBack s 0x08 d = d.toNat ∧ readBack s 0x09 d = d.toNat % 512 ∧
    readBack s 0x0A d = d.toNat

/-- A write other than to CMD is seen at its own address only (R64, R69, R71). -/
def Obligations.WriteIsSeenAtItsOwnAddressOnly : Prop :=
  ∀ (s : State) (a : HostAddr) (d : Word), s.status.busy = false → a ≠ 0x01 →
    (hostWrite a d s).status.busy = false ∧ ∀ a', a' ≠ a → hostRead (hostWrite a d s) a' = hostRead s a'

/-- R63: element k of BITBUF is bit (k mod 32) of word (k div 32), read and written. -/
def Obligations.BitbufPacksLeastSignificantBitFirst : Prop :=
  ∀ (s : State), s.status.busy = false →
    (∀ k < s.cfg.bitN, (hostRead s (bitbufAddr (k / 32))).getLsbD (k % 32) = bit s.mem k) ∧
    (∀ (d : Word), ∀ w < s.cfg.bitN / 32, hostRead (hostWrite (bitbufAddr w) d s) (bitbufAddr w) = d ∧
      ∀ k < s.cfg.bitN,
        bit (hostWrite (bitbufAddr w) d s).mem k = if k / 32 = w then d.getLsbD (k % 32) else bit s.mem k)

/-- STATUS as the host reads it at all times, bit by bit (R26), with the numbers of the eight result codes (R190). -/
def Obligations.StatusWordHasItsFieldsAndNothingElse : Prop :=
  ∀ s : State, let w := hostRead s 0x02
    w.getLsbD 0 = s.status.busy ∧ w.getLsbD 1 = s.status.done ∧ w.extractLsb' 2 2 = 0#2 ∧
    w.extractLsb' 4 3 =
      (match s.status.err with
        | .success => 0#3
        | .emptyInput => 1#3
        | .invalidTree => 2#3
        | .unknownSymbol => 3#3
        | .incompleteCode => 4#3
        | .badLength => 5#3
        | .capacity => 6#3
        | .illegalCommand => 7#3) ∧
    w.getLsbD 7 = false ∧ w.extractLsb' 8 4 = s.status.op ∧
    w.extractLsb' 12 20 = 0#20

/-- A host write to STATUS changes nothing but DONE, which bit 1 = 1 clears (R26). -/
def Obligations.WriteToStatusClearsDoneOnly : Prop :=
  ∀ (s : State) (d : Word) (rest : List Input), s.status.busy = false → s.inputs = .hostWrite 0x02 d :: rest →
    step s = .next { s with inputs := rest, status := { s.status with done := s.status.done && !d.getLsbD 1 } }

/-- A read transaction returns the word of its address and has no side effect, and a write transaction has the effect of
`hostWrite`, of which the statements above say what it is at each address (R60, R69, R71). -/
def Obligations.ReadsHaveNoSideEffect : Prop :=
  (∀ (s : State) (a : HostAddr) (rest : List Input), s.inputs = .hostRead a :: rest →
    step s = .next { s with inputs := rest, rdata := hostRead s a }) ∧
  (∀ (s : State) (a : HostAddr) (d : Word) (rest : List Input), s.inputs = .hostWrite a d :: rest →
    step s = .next { hostWrite a d s with inputs := rest })

/-- R205: enable, pending, clearing and masking of the interrupt. -/
def Obligations.InterruptIsRaisedByCompletionAndDropped : Prop :=
  (State.reset.ie = false ∧ irq State.reset = false) ∧
  (∀ (i : Instr) (s t : State), exec i s = .next t → t.status.done = true ∧ irq t = s.ie) ∧
  (∀ s : State, (rejectCommand s).status.done = true ∧ irq (rejectCommand s) = s.ie) ∧
  (∀ (s : State) (d : Word), s.status.busy = false → d.getLsbD 1 = true → irq (hostWrite 0x02 d s) = false) ∧
  (∀ (s : State) (d : Word), s.status.busy = false → irq (hostWrite 0x01 d s) = false) ∧
  (∀ (s : State) (d : Word), d.getLsbD 0 = false →
    irq (hostWrite 0x00 d s) = false ∧ (hostWrite 0x00 d s).status.done = s.status.done)

/-! ## Completion and failure -/

/-- A word that is no command is accepted, runs in PHASE REJECTING and completes with IllegalCommand, error code 7, ERRINFO the
word; nothing else is written (R97, R195). That CMDW keeps the word after completion is the model's deduction (log 9), and
`tick` is the model's (log 2). -/
def Obligations.IllegalCommandCompletesWithErrorSeven : Prop :=
  ∀ (s : State) (w : Word) (rest : List Input), s.status.busy = false →
    w ≠ 0x00000001#32 → w ≠ 0x00000002#32 → w ≠ 0x00000003#32 → w ≠ 0x00000004#32 → w ≠ 0x00000005#32 →
    s.inputs = .hostWrite 0x01 w :: .tick :: rest →
    ∃ u t, step s = .next u ∧ u.phase = .rejecting ∧ u.status.busy = true ∧ step u = .next t ∧
      (hostRead t 0x02).extractLsb' 4 3 = 7#3 ∧
      t = { s with
        inputs := rest
        cmdw := w
        status := { busy := false, done := true, err := .illegalCommand, op := w.extractLsb' 0 4 }
        errinfo := w, errpos := 0
        phase := .idle }

/-- Every command ends in a next state in which it has completed, with ERRINFO = ERRPOS = 0 on success (R192, R197).
That CMDW keeps its word is the model's choice (log 9). -/
def Obligations.EveryCommandCompletes : Prop :=
  ∀ (i : Instr) (s : State), ∃ t, exec i s = .next t ∧ keepsControl s t ∧ t.phase = .idle ∧
    t.status.busy = false ∧ t.status.done = true ∧ t.status.err ≠ .illegalCommand ∧
    (t.status.err = .success → t.errinfo = 0 ∧ t.errpos = 0)

/-- R198: a failure empties the output and leaves the inputs and everything outside the write set as they were; the failure of
an illegal command changes nothing but STATUS, ERRINFO and ERRPOS. -/
def Obligations.FailureEmptiesOutputAndKeepsTheRest : Prop :=
  (∀ (i : Instr) (s t : State), exec i s = .next t → t.status.err ≠ .success →
    outputEmpty i t ∧ (i ≠ .build → t.heap = s.heap ∧ t.heapn = s.heapn) ∧
    ∀ l : Location, resultRegisters l = false →
      (match i with
        | .count => l ≠ .nfreq ∧ ∀ k, l ≠ .freqWord k
        | .build => l ≠ .nnodes ∧ l ≠ .root
        | .gencodes => l ≠ .ncode ∧ ∀ k, l ≠ .codeWord k
        | .encode => l ≠ .blen ∧ ∀ w, l ≠ .bitbufWord w
        | .decode => l ≠ .slen ∧ ∀ k, l ≠ .symbufWord k) →
      wordAt t l = wordAt s l) ∧
  (∀ (s : State) (l : Location), resultRegisters l = false → wordAt (rejectCommand s) l = wordAt s l)

/-- R199: the length prechecks, in their order, on the full 32-bit values, and on no register the command does not read. -/
def Obligations.LengthPrechecksComeFirst : Prop :=
  ∀ s : State,
    (s.cfg.seqN < s.slen.toNat → failsWith .count s .badLength 0x05 s.slen) ∧
    (s.cfg.nsym < s.nfreq.toNat → failsWith .build s .badLength 0x07 s.nfreq) ∧
    (2 * s.cfg.nsym - 1 < s.nnodes.toNat → failsWith .gencodes s .badLength 0x08 s.nnodes) ∧
    (s.cfg.seqN < s.slen.toNat → failsWith .encode s .badLength 0x05 s.slen) ∧
    (s.slen.toNat ≤ s.cfg.seqN → s.cfg.nsym < s.ncode.toNat → failsWith .encode s .badLength 0x0A s.ncode) ∧
    (s.cfg.bitN < s.blen.toNat → failsWith .decode s .badLength 0x06 s.blen) ∧
    (s.blen.toNat ≤ s.cfg.bitN → 2 * s.cfg.nsym - 1 < s.nnodes.toNat →
      failsWith .decode s .badLength 0x08 s.nnodes) ∧
    (∀ (i : Instr) (t : State), exec i s = .next t → t.status.err = .badLength →
      match i with
      | .count => s.cfg.seqN < s.slen.toNat
      | .build => s.cfg.nsym < s.nfreq.toNat
      | .gencodes => 2 * s.cfg.nsym - 1 < s.nnodes.toNat
      | .encode => s.cfg.seqN < s.slen.toNat ∨ s.cfg.nsym < s.ncode.toNat
      | .decode => s.cfg.bitN < s.blen.toNat ∨ 2 * s.cfg.nsym - 1 < s.nnodes.toNat)

/-! ## COUNT -/

/-- R112, R113: COUNT completes, and FREQ lists the distinct symbols in order of first occurrence with their counts. -/
def Obligations.CountTabulatesInFirstOccurrenceOrder : Prop :=
  ∀ s : State, s.slen.toNat ≤ s.cfg.seqN → (firstOccurrences (symbols s)).length ≤ s.cfg.nsym →
    ∃ t, exec .count s = .next t ∧ completedOk s t ∧
      frequencyTable t = (firstOccurrences (symbols s)).map (fun x => (x, (symbols s).count x)) ∧
      ((frequencyTable t).map Prod.fst).Nodup ∧ (∀ x, x ∈ (frequencyTable t).map Prod.fst ↔ x ∈ symbols s) ∧
      ((frequencyTable t).map Prod.snd).sum = s.slen.toNat ∧
      ∀ k, 2 * t.nfreq.toNat ≤ k → freqWord t.cfg t.mem k = freqWord s.cfg s.mem k

/-- R114: COUNT fails with Capacity at the first symbol that needs entry NSYM, and never where NSYM = 2^SYM_W. -/
def Obligations.CountFailsAtTheFirstSymbolWithoutRoom : Prop :=
  (∀ (s : State) (i : Nat), s.slen.toNat ≤ s.cfg.seqN → i < s.slen.toNat →
    (firstOccurrences ((symbols s).take i)).length = s.cfg.nsym → symbol s.cfg s.mem i ∉ (symbols s).take i →
    failsWith .count s .capacity (symbol s.cfg s.mem i) (BitVec.ofNat 32 i)) ∧
  (∀ s t : State, s.cfg.nsym = 2 ^ s.cfg.symW → exec .count s = .next t → t.status.err ≠ .capacity)

/-- The frame of a successful COUNT: only FREQ[0 .. NFREQ'-1], NFREQ and the result registers change (R96).
That CMDW keeps its word (in `keepsControl`) is the model's deduction (log 9). -/
def Obligations.CountChangesOnlyItsTable : Prop :=
  ∀ s t : State, exec .count s = .next t → t.status.err = .success →
    keepsControl s t ∧ t.heap = s.heap ∧ t.heapn = s.heapn ∧
    ∀ l : Location, resultRegisters l = false → l ≠ .nfreq → (∀ k, l = .freqWord k → 2 * t.nfreq.toNat ≤ k) →
      wordAt t l = wordAt s l

/-! ## BUILD -/

/-- BUILD completes on every table of 1 to NSYM entries, and NODE holds a Huffman tree of it (R44, R122, R124). -/
def Obligations.BuildMakesATreeOfTheTable : Prop :=
  ∀ (s : State) (n : Nat), s.nfreq.toNat = n → 1 ≤ n → n ≤ s.cfg.nsym →
    ∃ t, exec .build s = .next t ∧ completedOk s t ∧ t.nnodes.toNat = 2 * n - 1 ∧ t.root.toNat = 2 * n - 2 ∧
      (∀ j < n, node t.cfg t.mem j =
        { kind := .leaf, sym := freqSym s.cfg s.mem j, freq := (freqCnt s.cfg s.mem j).setWidth 40
          left := nilHandle, right := nilHandle }) ∧
      (∀ h, n ≤ h → h < 2 * n - 1 →
        (node t.cfg t.mem h).kind = .internal ∧ (node t.cfg t.mem h).sym = 0 ∧
        (node t.cfg t.mem h).left.toNat < h ∧ (node t.cfg t.mem h).right.toNat < h ∧
        (node t.cfg t.mem h).left ≠ (node t.cfg t.mem h).right ∧
        (node t.cfg t.mem h).freq.toNat =
          (node t.cfg t.mem (node t.cfg t.mem h).left.toNat).freq.toNat +
          (node t.cfg t.mem (node t.cfg t.mem h).right.toNat).freq.toNat) ∧
      (∀ g < 2 * n - 2, ∃! h, n ≤ h ∧ h < 2 * n - 1 ∧
        ((node t.cfg t.mem h).left.toNat = g ∨ (node t.cfg t.mem h).right.toNat = g))

/-- BUILD's result is the one the order alone defines, whatever the queue (R124): n - 1 merges, handles n to 2n - 2, the last one
the root; and at its end HEAP[0] = ROOT and HEAPN = 1 (R41). -/
def Obligations.BuildFollowsTheOrderAlone : Prop :=
  ∀ (s : State) (n : Nat), s.nfreq.toNat = n → 1 ≤ n → n ≤ s.cfg.nsym →
    ∃ t, exec .build s = .next t ∧ completedOk s t ∧
      (let r := orderMerge s.cfg n n (leavesMade s.cfg s.mem n) ((List.range n).map (BitVec.ofNat 9))
       t.mem = r.2.1 ∧ t.nnodes = BitVec.ofNat 32 r.1 ∧ r.1 = 2 * n - 1 ∧ r.2.2 = [t.root] ∧ t.root.toNat = 2 * n - 2) ∧
      t.heapn = 1 ∧ heapEntry t 0 = t.root

/-- R127: the reference queue keeps its order, loses and invents no handle, and extracts a least member under less. -/
def Obligations.HeapOperationsKeepTheOrder : Prop :=
  ∀ (c : Config) (m : Memory) (q : List Handle), heapOrdered c m q →
    (∀ h, heapOrdered c m (heapInsert c m h q) ∧ (heapInsert c m h q).Perm (h :: q)) ∧
    (q ≠ [] → heapOrdered c m (heapExtractMin c m q).2 ∧
      q.Perm ((heapExtractMin c m q).1 :: (heapExtractMin c m q).2) ∧
      ∀ y ∈ (heapExtractMin c m q).2, less c m y (heapExtractMin c m q).1 = false)

/-- No wrap-around: the root's frequency is the exact sum of all counts (R127, R129). -/
def Obligations.BuildRootFrequencyIsTheSumOfCounts : Prop :=
  ∀ s t : State, 1 ≤ s.nfreq.toNat → s.nfreq.toNat ≤ s.cfg.nsym → exec .build s = .next t →
    (node t.cfg t.mem t.root.toNat).freq.toNat =
      ((List.range s.nfreq.toNat).map (fun j => (freqCnt s.cfg s.mem j).toNat)).sum

/-- The frequencies of the INTERNAL nodes do not fall with the handle (R127). -/
def Obligations.BuildFrequenciesDoNotFallWithTheHandle : Prop :=
  ∀ (s t : State) (n : Nat), s.nfreq.toNat = n → 1 ≤ n → n ≤ s.cfg.nsym → exec .build s = .next t →
    ∀ h, n ≤ h → h + 1 < 2 * n - 1 → (node t.cfg t.mem h).freq.toNat ≤ (node t.cfg t.mem (h + 1)).freq.toNat

/-- The corner cases of BUILD: tables of no, one and two entries (R128). -/
def Obligations.BuildOnTablesOfZeroOneAndTwoEntries : Prop :=
  (∀ s : State, s.nfreq = 0 → failsWith .build s .emptyInput 0 0) ∧
  (∀ s : State, s.nfreq = 1 → ∃ t, exec .build s = .next t ∧ completedOk s t ∧ t.nnodes = 1 ∧ t.root = 0 ∧ t.heapn = 1 ∧
    node t.cfg t.mem 0 =
      { kind := .leaf, sym := freqSym s.cfg s.mem 0, freq := (freqCnt s.cfg s.mem 0).setWidth 40
        left := nilHandle, right := nilHandle }) ∧
  (∀ s : State, s.nfreq = 2 → 2 ≤ s.cfg.nsym → ∃ t, exec .build s = .next t ∧ completedOk s t ∧ t.nnodes = 3 ∧ t.root = 2 ∧
    (node t.cfg t.mem 2).kind = .internal ∧
    (if (freqCnt s.cfg s.mem 1).toNat < (freqCnt s.cfg s.mem 0).toNat
      then (node t.cfg t.mem 2).left = 1 ∧ (node t.cfg t.mem 2).right = 0
      else (node t.cfg t.mem 2).left = 0 ∧ (node t.cfg t.mem 2).right = 1))

/-- The frame of a successful BUILD: only NODE[0 .. NNODES'-1], NNODES, ROOT, HEAP, HEAPN and the result registers (R96, R131).
That CMDW keeps its word (in `keepsControl`) is the model's deduction (log 9). -/
def Obligations.BuildChangesOnlyItsTree : Prop :=
  ∀ s t : State, exec .build s = .next t → t.status.err = .success →
    keepsControl s t ∧
    ∀ l : Location, resultRegisters l = false → l ≠ .nnodes → l ≠ .root →
      (∀ k, l = .nodeWord k → 8 * t.nnodes.toNat ≤ k) → wordAt t l = wordAt s l

/-! ## GENCODES -/

/-- GENCODES completes on every tree that fits, and CODE lists its leaves' paths, left before right, the unused bits 0; a
single leaf gets the code "0" (R143, R144, R148). -/
def Obligations.GencodesListsThePathsOfTheTree : Prop :=
  ∀ (s : State) (tree : HTree), s.nnodes.toNat ≤ nnodeMax s.cfg → holdsTree s s.root tree = true →
    tree.depth ≤ maxLen s.cfg → tree.leaves ≤ s.cfg.nsym →
    ∃ t, exec .gencodes s = .next t ∧ completedOk s t ∧ codeTable t = tree.codes ∧
      ∀ j < t.ncode.toNat, ∀ k, codeLen t.cfg t.mem j ≤ k → k < maxLen s.cfg → codeBit t.cfg t.mem j k = false

/-- The explicit stack of R145 gives what the recursion of R143 gives, on any contents of NODE, within R146's bound. -/
def Obligations.GencodesStackEqualsTheRecursion : Prop :=
  ∀ (c : Config) (m : Memory) (nnodes : Nat) (h : Handle),
    stackWalk c nnodes (visitBound c) [] h 0 m [] = walk c nnodes (maxLen c) [] h 0 m

/-- GENCODES fails at the first defect of its traversal, wherever it stands: a handle out of range, a LEAF with a child, the
(NSYM+1)-th LEAF, an INTERNAL node missing a child or at depth MAXLEN, with the handle and the depth. Before it the traversal
went down the path `p` and finished the left subtrees `done`, whose leaves were recorded (R142, R143, R146). -/
def Obligations.GencodesFailsAtTheFirstDefect : Prop :=
  ∀ (s : State) (p : List Bool) (done : List HTree), s.nnodes.toNat ≤ nnodeMax s.cfg → walksTo s s.root 0 p done = true →
    (done.map HTree.leaves).sum ≤ s.cfg.nsym →
    (s.nnodes.toNat ≤ (follow s s.root p).toNat ∨
      leafWithChild s (follow s s.root p) ∨
      ((node s.cfg s.mem (follow s s.root p).toNat).kind = .leaf ∧ (done.map HTree.leaves).sum = s.cfg.nsym) ∨
      internalMissingChild s (follow s s.root p) ∨
      (p.length = maxLen s.cfg ∧ goodInternal s (follow s s.root p))) →
    failsWith .gencodes s .invalidTree ((follow s s.root p).setWidth 32) (BitVec.ofNat 32 p.length)

/-- The tree BUILD makes always yields a prefix-free table with one entry for each entry of FREQ (R147). -/
def Obligations.BuiltTreeYieldsAPrefixFreeTable : Prop :=
  ∀ s t u : State, 1 ≤ s.nfreq.toNat → s.nfreq.toNat ≤ s.cfg.nsym →
    exec .build s = .next t → exec .gencodes t = .next u →
    completedOk t u ∧ u.ncode = s.nfreq ∧ prefixFree (codeTable u) ∧
    ((codeTable u).map Prod.fst).Perm ((List.range s.nfreq.toNat).map (freqSym s.cfg s.mem))

/-- The frame of a successful GENCODES: only CODE[0 .. NCODE'-1], NCODE and the result registers change (R96, R148).
That CMDW keeps its word (in `keepsControl`) is the model's deduction (log 9). -/
def Obligations.GencodesChangesOnlyItsTable : Prop :=
  ∀ s t : State, exec .gencodes s = .next t → t.status.err = .success →
    keepsControl s t ∧ t.heap = s.heap ∧ t.heapn = s.heapn ∧
    ∀ l : Location, resultRegisters l = false → l ≠ .ncode → (∀ k, l = .codeWord k → 16 * t.ncode.toNat ≤ k) →
      wordAt t l = wordAt s l

/-! ## ENCODE -/

/-- R157, R158: ENCODE completes where every symbol has an entry and the codes fit, and BITBUF is their concatenation. -/
def Obligations.EncodeConcatenatesTheCodes : Prop :=
  ∀ (s : State) (f : Nat → Nat), s.slen.toNat ≤ s.cfg.seqN → s.ncode.toNat ≤ s.cfg.nsym →
    (∀ i < s.slen.toNat, usedEntry s (symbol s.cfg s.mem i) (f i)) → codedLength s f s.slen.toNat ≤ s.cfg.bitN →
    ∃ t, exec .encode s = .next t ∧ completedOk s t ∧ t.blen.toNat = codedLength s f s.slen.toNat ∧
      bits t = (List.range s.slen.toNat).flatMap (fun i => (codeEntry s (f i)).2) ∧
      (∀ k, t.blen.toNat ≤ k → bit t.mem k = bit s.mem k) ∧ t.mem.symbuf = s.mem.symbuf ∧ t.mem.code = s.mem.code

/-- R159: the first failure, at the lowest index, ends ENCODE: no entry, or no room for the code. -/
def Obligations.EncodeReportsTheFirstFailure : Prop :=
  ∀ (s : State) (f : Nat → Nat) (i : Nat), s.slen.toNat ≤ s.cfg.seqN → s.ncode.toNat ≤ s.cfg.nsym → i < s.slen.toNat →
    (∀ k < i, usedEntry s (symbol s.cfg s.mem k) (f k)) → codedLength s f i ≤ s.cfg.bitN →
    (noEntry s (symbol s.cfg s.mem i) →
      failsWith .encode s .unknownSymbol (symbol s.cfg s.mem i) (BitVec.ofNat 32 i)) ∧
    (usedEntry s (symbol s.cfg s.mem i) (f i) → s.cfg.bitN < codedLength s f (i + 1) →
      failsWith .encode s .capacity (symbol s.cfg s.mem i) (BitVec.ofNat 32 i))

/-- The frame of a successful ENCODE: only BITBUF[0 .. BLEN'-1], BLEN and the result registers change (R96, R158).
That CMDW keeps its word (in `keepsControl`) is the model's deduction (log 9). -/
def Obligations.EncodeChangesOnlyItsBits : Prop :=
  ∀ s t : State, exec .encode s = .next t → t.status.err = .success →
    keepsControl s t ∧ t.heap = s.heap ∧ t.heapn = s.heapn ∧
    (∀ k, t.blen.toNat ≤ k → bit t.mem k = bit s.mem k) ∧
    ∀ l : Location, resultRegisters l = false → l ≠ .blen → (∀ w, l ≠ .bitbufWord w) → wordAt t l = wordAt s l

/-! ## DECODE -/

/-- DECODE completes on a concatenation of codes of the tree at ROOT, and SYMBUF holds their symbols (R171, R175). -/
def Obligations.DecodeRecoversTheSymbols : Prop :=
  ∀ (s : State) (tree : HTree) (picks : List (Word × List Bool)), s.blen.toNat ≤ s.cfg.bitN →
    s.nnodes.toNat ≤ nnodeMax s.cfg → holdsTree s s.root tree = true → (∀ p ∈ picks, p ∈ tree.codes) →
    bits s = picks.flatMap Prod.snd → picks.length ≤ s.cfg.seqN →
    ∃ t, exec .decode s = .next t ∧ completedOk s t ∧ symbols t = picks.map Prod.fst ∧
      ∀ i, t.slen.toNat ≤ i → symbol t.cfg t.mem i = symbol s.cfg s.mem i

/-- Bits that end inside a code: IncompleteCodeError with the cursor and BLEN (R174). -/
def Obligations.DecodeOfATruncatedCodeFails : Prop :=
  ∀ (s : State) (tree : HTree) (picks : List (Word × List Bool)) (p : List Bool), s.blen.toNat ≤ s.cfg.bitN →
    s.nnodes.toNat ≤ nnodeMax s.cfg → holdsTree s s.root tree = true → (∀ q ∈ picks, q ∈ tree.codes) →
    picks.length ≤ s.cfg.seqN → p ≠ [] → (∃ q ∈ tree.codes, p <+: q.2 ∧ p ≠ q.2) →
    bits s = picks.flatMap Prod.snd ++ p →
    failsWith .decode s .incompleteCode ((follow s s.root p).setWidth 32) s.blen

/-- R173: against a single leaf, whose code table is the one code "0", each bit 0 emits its symbol, and a bit 1 fails with
IncompleteCodeError. -/
def Obligations.DecodeAgainstASingleLeaf : Prop :=
  ∀ (s : State) (sym : Word), s.blen.toNat ≤ s.cfg.bitN → s.nnodes.toNat ≤ nnodeMax s.cfg →
    holdsTree s s.root (.leaf sym) = true →
    (HTree.leaf sym).codes = [(sym, [false])] ∧
    ((∀ k < s.blen.toNat, bit s.mem k = false) → s.blen.toNat ≤ s.cfg.seqN →
      ∃ t, exec .decode s = .next t ∧ completedOk s t ∧ symbols t = List.replicate s.blen.toNat sym) ∧
    (∀ i < s.blen.toNat, i ≤ s.cfg.seqN → (∀ k < i, bit s.mem k = false) → bit s.mem i = true →
      failsWith .decode s .incompleteCode (s.root.setWidth 32) (BitVec.ofNat 32 i))

/-- DECODE tests the nodes its descent touches, and fails at the first malformed one, after any number of symbols emitted, with
its handle and the bit's index: a cursor that misses a child, a selected child out of range, a LEAF reached that has a child,
or a LEAF at ROOT that has a child (R171, R172). -/
def Obligations.DecodeFailsAtTheMalformedNodeItTouches : Prop :=
  (∀ (s : State) (picks : List (Word × List Bool)) (p : List Bool) (b : Bool) (rest : List Bool),
    s.blen.toNat ≤ s.cfg.bitN → s.nnodes.toNat ≤ nnodeMax s.cfg → s.root.toNat < s.nnodes.toNat →
    picks.length ≤ s.cfg.seqN → (∀ q ∈ picks, emits s q.1 q.2) →
    bits s = picks.flatMap Prod.snd ++ p ++ b :: rest → descends s p →
    (internalMissingChild s (follow s s.root p) →
      failsWith .decode s .invalidTree ((follow s s.root p).setWidth 32)
        (BitVec.ofNat 32 ((picks.flatMap Prod.snd).length + p.length))) ∧
    (goodInternal s (follow s s.root p) →
      (s.nnodes.toNat ≤ (follow s s.root (p ++ [b])).toNat ∨ leafWithChild s (follow s s.root (p ++ [b]))) →
      failsWith .decode s .invalidTree ((follow s s.root (p ++ [b])).setWidth 32)
        (BitVec.ofNat 32 ((picks.flatMap Prod.snd).length + p.length)))) ∧
  (∀ s : State, s.blen.toNat ≤ s.cfg.bitN → s.nnodes.toNat ≤ nnodeMax s.cfg → s.root.toNat < s.nnodes.toNat →
    leafWithChild s s.root → 1 ≤ s.blen.toNat →
    failsWith .decode s .invalidTree (s.root.setWidth 32) 0)

/-- DECODE fails with Capacity at the bit that completes symbol number SEQ_N (R175). -/
def Obligations.DecodeFailsWhenSymbufIsFull : Prop :=
  ∀ (s : State) (tree : HTree) (picks : List (Word × List Bool)) (q : Word × List Bool) (rest : List Bool),
    s.blen.toNat ≤ s.cfg.bitN → s.nnodes.toNat ≤ nnodeMax s.cfg → holdsTree s s.root tree = true →
    (∀ p ∈ picks, p ∈ tree.codes) → q ∈ tree.codes → picks.length = s.cfg.seqN →
    bits s = picks.flatMap Prod.snd ++ q.2 ++ rest →
    failsWith .decode s .capacity q.1 (BitVec.ofNat 32 ((picks.flatMap Prod.snd).length + q.2.length - 1))

/-- The frame of a successful DECODE: only SYMBUF[0 .. SLEN'-1], SLEN and the result registers change (R96, R176).
That CMDW keeps its word (in `keepsControl`) is the model's deduction (log 9). -/
def Obligations.DecodeChangesOnlyItsSymbols : Prop :=
  ∀ s t : State, exec .decode s = .next t → t.status.err = .success →
    keepsControl s t ∧ t.heap = s.heap ∧ t.heapn = s.heapn ∧
    ∀ l : Location, resultRegisters l = false → l ≠ .slen → (∀ k, l = .symbufWord k → t.slen.toNat ≤ k) →
      wordAt t l = wordAt s l

/-- GENCODES and DECODE fail where ROOT names no node, DECODE even when BLEN = 0 (R142, R172). -/
def Obligations.GencodesAndDecodeNeedATree : Prop :=
  ∀ s : State, s.nnodes.toNat ≤ nnodeMax s.cfg → s.nnodes.toNat ≤ s.root.toNat →
    failsWith .gencodes s .invalidTree (s.root.setWidth 32) 0 ∧
    (s.blen.toNat ≤ s.cfg.bitN → failsWith .decode s .invalidTree (s.root.setWidth 32) 0)

/-! ## The whole machine -/

/-- The five commands one after another give the sequence back (R177). BUILD and GENCODES succeed after a successful COUNT. For
NSYM >= 2 ENCODE succeeds, with BLEN the sum of count times code length, where that sum fits in BITBUF, and fails with Capacity
where it does not, and in no other way (R147, R160). NSYM = 1 is log 11. -/
def Obligations.PipelineRoundTripGivesTheSequenceBack : Prop :=
  ∀ s0 s1 s2 s3 s4 s5 : State, 1 ≤ s0.slen.toNat →
    exec .count s0 = .next s1 → s1.status.err = .success → exec .build s1 = .next s2 → exec .gencodes s2 = .next s3 →
    exec .encode s3 = .next s4 → exec .decode s4 = .next s5 →
    s2.status.err = .success ∧ s3.status.err = .success ∧
    (let total := ((codeTable s3).map (fun e => (symbols s0).count e.1 * e.2.length)).sum
     2 ≤ s0.cfg.nsym →
      (total ≤ s0.cfg.bitN → s4.status.err = .success ∧ s4.blen.toNat = total) ∧
      (s0.cfg.bitN < total → s4.status.err = .capacity)) ∧
    (s4.status.err = .success → s5.status.err = .success ∧ s5.slen = s0.slen ∧ symbols s5 = symbols s0)

/-- A command's result depends on its read set alone (R96, R43): of NODE, on the nodes reached from ROOT, and of these neither on
`freq` nor on the `sym` of an INTERNAL node. -/
def Obligations.CommandsReadOnlyTheirReadSets : Prop :=
  ∀ (i : Instr) (s s' t t' : State), s.cfg = s'.cfg → sameInputs i s s' →
    exec i s = .next t → exec i s' = .next t' → sameOutputs i t t'

/-- R43: the hidden state is unobservable: what the host can read after a command does not depend on it. -/
def Obligations.HiddenStateIsUnobservable : Prop :=
  ∀ (i : Instr) (s t t' : State) (heap : Store Handle) (heapn : BitVec 9) (stack : Store (Handle × BitVec 8)) (work : Work)
    (cmdw : Word), exec i s = .next t →
    exec i { s with heap := heap, heapn := heapn, stack := stack, work := work, cmdw := cmdw } = .next t' →
    ∀ l, wordAt t' l = wordAt t l

/-- The invariant of legal states is kept by every step. The canonical form of the memories and the epochs in it are the model's
(log 5, log 7). -/
def Obligations.EveryStepKeepsTheStateLegal : Prop :=
  ∀ s t : State, Inv s → step s = .next t → Inv t

/-- The reset state is legal. -/
def Obligations.ResetStateIsLegal : Prop := Inv State.reset

/-- No step faults or refuses, from any state (R67, R241; log 17). -/
def Obligations.NoStepStops : Prop :=
  ∀ s : State, ∃ t, step s = .next t

/-- A running command ends, whatever the host does meanwhile, at the latest one step after the pending inputs (R241).
The inputs are the model's device (log 2). -/
def Obligations.RunningCommandEnds : Prop :=
  ∀ s : State, s.status.busy = true → ∃ k ≤ s.inputs.length + 1, ∃ t, core.run k s = .next t ∧ t.status.busy = false

/-- PHASE changes at acceptance, at completion and at reset, and at no other step (R22). -/
def Obligations.PhaseChangesOnlyAtAcceptanceAndEnd : Prop :=
  ∀ s t : State, step s = .next t →
    t.phase = s.phase ∨
    (s.status.busy = false ∧ t.status.busy = true ∧
      ∃ d rest, s.inputs = .hostWrite 0x01 d :: rest ∧ t.phase = phaseOf d ∧ t.phase ≠ .idle) ∨
    (s.status.busy = true ∧ t.phase = .idle ∧ t.status.busy = false ∧ t.status.done = true) ∨
    (t.phase = .idle ∧ ∃ rest, s.inputs = .rst :: rest)

/-- R222: what the five commands do in the reset state, whatever the memories hold. -/
def Obligations.CommandsInTheResetState : Prop :=
  (State.reset.slen = 0 ∧ State.reset.blen = 0 ∧ State.reset.nfreq = 0 ∧ State.reset.nnodes = 0 ∧
    State.reset.root = 0x1FF ∧ State.reset.ncode = 0) ∧
  ∀ s : State, s.slen = 0 → s.blen = 0 → s.nfreq = 0 → s.nnodes = 0 → s.root = 0x1FF → s.ncode = 0 →
    (∃ t, exec .count s = .next t ∧ completedOk s t ∧ t.nfreq = 0) ∧
    failsWith .build s .emptyInput 0 0 ∧
    failsWith .gencodes s .invalidTree 0x1FF 0 ∧
    (∃ t, exec .encode s = .next t ∧ completedOk s t ∧ t.blen = 0) ∧
    failsWith .decode s .invalidTree 0x1FF 0

/-- `rst` at a clock edge gives the registers their reset values, ends a running command without completion and performs no
transaction (R220, R221; the port's last word is the model's, log 4). -/
def Obligations.PinResetGivesTheResetRegisters : Prop :=
  ∀ (s : State) (rest : List Input), s.inputs = .rst :: rest → ∃ t, step s = .next t ∧
    t.cfg = s.cfg ∧ t.inputs = rest ∧ t.rdata = s.rdata ∧ t.ie = false ∧
    t.status = { busy := false, done := false, err := .success, op := 0 } ∧ t.errinfo = 0 ∧ t.errpos = 0 ∧
    t.slen = 0 ∧ t.blen = 0 ∧ t.nfreq = 0 ∧ t.nnodes = 0 ∧ t.root = 0x1FF ∧ t.ncode = 0 ∧
    t.phase = .idle ∧ t.cmdw = 0 ∧ t.heapn = 0 ∧ irq t = false

/-! ## The host script notation -/

/-- LOADBITS puts the bit string into BITBUF and BLEN (R100, R63). -/
def Obligations.LoadBitsLoadsTheBitString : Prop :=
  ∀ (s : State) (bs : List Bool), s.status.busy = false → bs.length ≤ s.cfg.bitN →
    ∃ t, runStmt (.loadBits bs) s = .next t ∧ bits t = bs

/-- LOADSYM puts the symbols into SYMBUF and SLEN (R100). -/
def Obligations.LoadSymLoadsTheSymbols : Prop :=
  ∀ (s : State) (codes : List Word), s.status.busy = false → codes.length ≤ s.cfg.seqN →
    (∀ w ∈ codes, w.toNat < 2 ^ s.cfg.symW) → ∃ t, runStmt (.loadSym codes) s = .next t ∧ symbols t = codes

/-- A command issued and awaited, with any number of polls, has completed, and the last read shows its STATUS (R99, R100).
The number of polls is the model's argument (log 21). -/
def Obligations.IssueAndWaitShowsTheCompletion : Prop :=
  ∀ (s : State) (i : Instr) (polls : Nat), s.status.busy = false →
    ∃ t, runScript [.issue i, .wait polls] s = .next t ∧ t.status.busy = false ∧ t.status.done = true ∧
      t.status.op = opField (encode i) ∧ t.rdata = statusWord t.status
end

