-- ==== Sys2Proof/Laws/Store.lean ====
section
/-! SUPPORT. Laws of bit fields and of stores: read after write, and the canonical form. -/

namespace Sys2Proof.Machine

/-! ## Bit fields -/

theorem keepLow_toNat (n : Nat) (w : Word) : (keepLow n w).toNat = w.toNat % 2 ^ n := by
  unfold keepLow
  split
  · rename_i h
    simp [h, Nat.mod_one]
  rw [BitVec.toNat_ofNat]
  exact Nat.mod_eq_of_lt (lt_of_le_of_lt (Nat.mod_le _ _) w.isLt)

theorem keepLow_lt (n : Nat) (w : Word) : (keepLow n w).toNat < 2 ^ n := by
  rw [keepLow_toNat]
  exact Nat.mod_lt _ (Nat.two_pow_pos n)

/-- A word that already fits the field is kept whole. -/
theorem keepLow_of_lt {n : Nat} {w : Word} (h : w.toNat < 2 ^ n) : keepLow n w = w := by
  apply BitVec.eq_of_toNat_eq
  rw [keepLow_toNat, Nat.mod_eq_of_lt h]

@[simp] theorem keepLow_keepLow (n : Nat) (w : Word) : keepLow n (keepLow n w) = keepLow n w :=
  keepLow_of_lt (keepLow_lt n w)

@[simp] theorem keepLow_zero_width (w : Word) : keepLow 0 w = 0#32 := by
  apply BitVec.eq_of_toNat_eq
  rw [keepLow_toNat]
  simp [Nat.mod_one]

@[simp] theorem keepLow_32 (w : Word) : keepLow 32 w = w := keepLow_of_lt w.isLt

theorem packNat_lt (f : Nat → Bool) (n : Nat) : packNat f n < 2 ^ n := by
  induction n with
  | zero => simp [packNat]
  | succ n ih =>
    simp only [packNat, Nat.pow_succ]
    split <;> omega

theorem packNat_testBit (f : Nat → Bool) (n k : Nat) : (packNat f n).testBit k = (decide (k < n) && f k) := by
  induction n with
  | zero => simp [packNat]
  | succ n ih =>
    have hlt := packNat_lt f n
    simp only [packNat]
    by_cases hf : f n
    · simp only [hf, if_true]
      rw [Nat.add_comm]
      rcases Nat.lt_trichotomy k n with h | h | h
      · rw [Nat.testBit_two_pow_add_gt h, ih]
        simp [h, Nat.lt_succ_of_lt h]
      · subst h
        rw [Nat.testBit_two_pow_add_eq, ih]
        simp [hf]
      · have : 2 ^ n + packNat f n < 2 ^ k :=
          lt_of_lt_of_le (by rw [Nat.pow_succ]; omega : _ < 2 ^ (n + 1)) (Nat.pow_le_pow_right (by decide) h)
        rw [Nat.testBit_lt_two_pow this]
        simp [show ¬ k < n + 1 by omega]
    · simp only [hf]
      rw [if_neg (by simp), Nat.add_zero, ih]
      rcases Nat.lt_trichotomy k n with h | h | h
      · simp [h, Nat.lt_succ_of_lt h]
      · subst h; simp [hf]
      · simp [show ¬ k < n + 1 by omega, show ¬ k < n by omega]

/-- Bit k of a packed word is element k of the sequence. -/
theorem packWord_getLsbD (f : Nat → Bool) {k : Nat} (h : k < 32) : (packWord f).getLsbD k = f k := by
  unfold packWord
  rw [BitVec.getLsbD_ofNat, packNat_testBit]
  simp [h]

/-! ## Cells -/

@[simp] theorem lookupCell_nil {α : Type} (k : Nat) : lookupCell ([] : List (Nat × α)) k = none := rfl

@[simp] theorem lookupCell_setCell_self {α : Type} (cells : List (Nat × α)) (k : Nat) (v : α) :
    lookupCell (setCell cells k v) k = some v := by
  induction cells with
  | nil => simp [setCell, lookupCell]
  | cons p rest ih =>
    obtain ⟨j, w⟩ := p
    simp only [setCell]
    split
    · simp [lookupCell]
    · split
      · simp [lookupCell]
      · simp [lookupCell, *]

theorem lookupCell_setCell_ne {α : Type} (cells : List (Nat × α)) {k k' : Nat} (v : α) (h : k' ≠ k) :
    lookupCell (setCell cells k v) k' = lookupCell cells k' := by
  induction cells with
  | nil => simp [setCell, lookupCell, h]
  | cons p rest ih =>
    obtain ⟨j, w⟩ := p
    simp only [setCell]
    split
    · simp [lookupCell, h]
    · split
      · rename_i hkj
        simp [lookupCell, ← hkj, h]
      · simp [lookupCell, ih]

/-- A read after a write: the written value at its index, what stood there before elsewhere. -/
theorem lookupCell_setCell {α : Type} (cells : List (Nat × α)) (k k' : Nat) (v : α) :
    lookupCell (setCell cells k v) k' = if k' = k then some v else lookupCell cells k' := by
  split
  · rename_i h; rw [h, lookupCell_setCell_self]
  · rename_i h; exact lookupCell_setCell_ne cells v h

theorem mem_setCell {α : Type} {cells : List (Nat × α)} {k : Nat} {v : α} {p : Nat × α}
    (h : p ∈ setCell cells k v) : p = (k, v) ∨ p ∈ cells := by
  induction cells with
  | nil => simp [setCell] at h; exact .inl h
  | cons q rest ih =>
    obtain ⟨j, w⟩ := q
    simp only [setCell] at h
    split at h
    · simpa using h
    · split at h
      · rcases List.mem_cons.mp h with h | h
        · exact .inl h
        · exact .inr (List.mem_cons_of_mem _ h)
      · rcases List.mem_cons.mp h with h | h
        · exact .inr (h ▸ List.mem_cons_self)
        · rcases ih h with h | h
          · exact .inl h
          · exact .inr (List.mem_cons_of_mem _ h)

/-- A write keeps the indices rising. -/
theorem rising_setCell {α : Type} {cells : List (Nat × α)} (k : Nat) (v : α) (h : rising cells) :
    rising (setCell cells k v) := by
  induction cells with
  | nil => simp [setCell, rising]
  | cons q rest ih =>
    obtain ⟨j, w⟩ := q
    simp only [rising, List.map_cons, List.pairwise_cons] at h
    simp only [setCell]
    split
    · rename_i hkj
      simp only [rising, List.map_cons, List.pairwise_cons, List.mem_cons]
      refine ⟨?_, h⟩
      rintro a (rfl | ha)
      · exact hkj
      · exact lt_trans hkj (h.1 a ha)
    · split
      · rename_i hkj
        subst hkj
        exact List.pairwise_cons.mpr h
      · rename_i h1 h2
        simp only [rising, List.map_cons, List.pairwise_cons]
        refine ⟨?_, ih h.2⟩
        intro a ha
        obtain ⟨p, hp, rfl⟩ := List.mem_map.mp ha
        rcases mem_setCell hp with rfl | hp
        · simp; omega
        · exact h.1 _ (List.mem_map_of_mem hp)

/-! ## Fields -/

theorem readField_lt (sp : Space) (width : Nat) (st : Store Word) (k : Nat) :
    (readField sp width st k).toNat < 2 ^ width := keepLow_lt _ _

/-- A field of no bits reads 0 (R67). -/
@[simp] theorem readField_zero_width (sp : Space) (st : Store Word) (k : Nat) : readField sp 0 st k = 0#32 := by
  simp [readField]

/-- A field of no bits ignores writes (R67). -/
@[simp] theorem writeField_zero_width (st : Store Word) (k : Nat) (v : Word) : writeField 0 st k v = st := rfl

/-- A write is read back truncated to the field, and leaves every other field alone. -/
theorem readField_writeField (sp : Space) (width width' : Nat) (st : Store Word) (k k' : Nat) (v : Word)
    (hw : k' = k → width' = width) :
    readField sp width' (writeField width st k v) k' = if k' = k then keepLow width v else readField sp width' st k' := by
  by_cases hk : k' = k
  · obtain rfl := hw hk
    subst hk
    by_cases h0 : width' = 0
    · subst h0; simp
    · simp [readField, writeField, h0]
  · unfold writeField
    split
    · simp
    · simp [readField, lookupCell_setCell_ne _ _ hk]

theorem readField_writeField_ne (sp : Space) (width width' : Nat) (st : Store Word) {k k' : Nat} (v : Word) (h : k' ≠ k) :
    readField sp width' (writeField width st k v) k' = readField sp width' st k' := by
  rw [readField_writeField sp width width' st k k' v (fun e => absurd e h), if_neg h]

@[simp] theorem writeField_epoch (width : Nat) (st : Store Word) (k : Nat) (v : Word) :
    (writeField width st k v).epoch = st.epoch := by
  unfold writeField; split <;> rfl

/-- A write below the capacity keeps a word store canonical. -/
theorem wordsWf_writeField {width : Nat → Nat} {cap : Nat} {st : Store Word} {k : Nat} (v : Word)
    (h : wordsWf width cap st) (hk : k < cap) : wordsWf width cap (writeField (width k) st k v) := by
  unfold writeField
  split
  · exact h
  · rename_i h0
    refine ⟨rising_setCell _ _ h.1, ?_⟩
    intro p hp
    rcases mem_setCell hp with rfl | hp
    · exact ⟨hk, Nat.pos_of_ne_zero h0, keepLow_lt _ _⟩
    · exact h.2 p hp

@[simp] theorem wordsWf_unwritten (width : Nat → Nat) (cap e : Nat) : wordsWf width cap (Store.unwritten e) :=
  ⟨List.Pairwise.nil, fun _ h => absurd h List.not_mem_nil⟩

end Sys2Proof.Machine
end

