-- ==== Sys2Proof/Laws/Memory.lean ====
section
/-! SUPPORT. Laws of the memory elements: each write touches its own memory only, is read back in its own field, and keeps the canonical form. -/

namespace Sys2Proof.Machine

/-! ## A write touches one memory only -/

@[simp] theorem setSymbol_bitbuf (c : Config) (i : Nat) (v : Word) (m : Memory) : (setSymbol c i v m).bitbuf = m.bitbuf := rfl
@[simp] theorem setSymbol_freq (c : Config) (i : Nat) (v : Word) (m : Memory) : (setSymbol c i v m).freq = m.freq := rfl
@[simp] theorem setSymbol_node (c : Config) (i : Nat) (v : Word) (m : Memory) : (setSymbol c i v m).node = m.node := rfl
@[simp] theorem setSymbol_code (c : Config) (i : Nat) (v : Word) (m : Memory) : (setSymbol c i v m).code = m.code := rfl

@[simp] theorem setBit_symbuf (k : Nat) (v : Bool) (m : Memory) : (setBit k v m).symbuf = m.symbuf := rfl
@[simp] theorem setBit_freq (k : Nat) (v : Bool) (m : Memory) : (setBit k v m).freq = m.freq := rfl
@[simp] theorem setBit_node (k : Nat) (v : Bool) (m : Memory) : (setBit k v m).node = m.node := rfl
@[simp] theorem setBit_code (k : Nat) (v : Bool) (m : Memory) : (setBit k v m).code = m.code := rfl

@[simp] theorem setBits_symbuf (start : Nat) (f : Nat → Bool) (n : Nat) (m : Memory) : (setBits start f n m).symbuf = m.symbuf := by
  induction n with
  | zero => rfl
  | succ n ih => simpa [setBits] using ih
@[simp] theorem setBits_freq (start : Nat) (f : Nat → Bool) (n : Nat) (m : Memory) : (setBits start f n m).freq = m.freq := by
  induction n with
  | zero => rfl
  | succ n ih => simpa [setBits] using ih
@[simp] theorem setBits_node (start : Nat) (f : Nat → Bool) (n : Nat) (m : Memory) : (setBits start f n m).node = m.node := by
  induction n with
  | zero => rfl
  | succ n ih => simpa [setBits] using ih
@[simp] theorem setBits_code (start : Nat) (f : Nat → Bool) (n : Nat) (m : Memory) : (setBits start f n m).code = m.code := by
  induction n with
  | zero => rfl
  | succ n ih => simpa [setBits] using ih

@[simp] theorem setBitWord_symbuf (w : Nat) (d : Word) (m : Memory) : (setBitWord w d m).symbuf = m.symbuf := by simp [setBitWord]
@[simp] theorem setBitWord_freq (w : Nat) (d : Word) (m : Memory) : (setBitWord w d m).freq = m.freq := by simp [setBitWord]
@[simp] theorem setBitWord_node (w : Nat) (d : Word) (m : Memory) : (setBitWord w d m).node = m.node := by simp [setBitWord]
@[simp] theorem setBitWord_code (w : Nat) (d : Word) (m : Memory) : (setBitWord w d m).code = m.code := by simp [setBitWord]

@[simp] theorem setFreqWord_symbuf (c : Config) (k : Nat) (v : Word) (m : Memory) : (setFreqWord c k v m).symbuf = m.symbuf := rfl
@[simp] theorem setFreqWord_bitbuf (c : Config) (k : Nat) (v : Word) (m : Memory) : (setFreqWord c k v m).bitbuf = m.bitbuf := rfl
@[simp] theorem setFreqWord_node (c : Config) (k : Nat) (v : Word) (m : Memory) : (setFreqWord c k v m).node = m.node := rfl
@[simp] theorem setFreqWord_code (c : Config) (k : Nat) (v : Word) (m : Memory) : (setFreqWord c k v m).code = m.code := rfl

@[simp] theorem setFreqSym_symbuf (c : Config) (j : Nat) (v : Word) (m : Memory) : (setFreqSym c j v m).symbuf = m.symbuf := rfl
@[simp] theorem setFreqSym_bitbuf (c : Config) (j : Nat) (v : Word) (m : Memory) : (setFreqSym c j v m).bitbuf = m.bitbuf := rfl
@[simp] theorem setFreqSym_node (c : Config) (j : Nat) (v : Word) (m : Memory) : (setFreqSym c j v m).node = m.node := rfl
@[simp] theorem setFreqSym_code (c : Config) (j : Nat) (v : Word) (m : Memory) : (setFreqSym c j v m).code = m.code := rfl

@[simp] theorem setFreqCnt_symbuf (c : Config) (j : Nat) (v : Word) (m : Memory) : (setFreqCnt c j v m).symbuf = m.symbuf := rfl
@[simp] theorem setFreqCnt_bitbuf (c : Config) (j : Nat) (v : Word) (m : Memory) : (setFreqCnt c j v m).bitbuf = m.bitbuf := rfl
@[simp] theorem setFreqCnt_node (c : Config) (j : Nat) (v : Word) (m : Memory) : (setFreqCnt c j v m).node = m.node := rfl
@[simp] theorem setFreqCnt_code (c : Config) (j : Nat) (v : Word) (m : Memory) : (setFreqCnt c j v m).code = m.code := rfl

@[simp] theorem setNodeWord_symbuf (c : Config) (k : Nat) (v : Word) (m : Memory) : (setNodeWord c k v m).symbuf = m.symbuf := rfl
@[simp] theorem setNodeWord_bitbuf (c : Config) (k : Nat) (v : Word) (m : Memory) : (setNodeWord c k v m).bitbuf = m.bitbuf := rfl
@[simp] theorem setNodeWord_freq (c : Config) (k : Nat) (v : Word) (m : Memory) : (setNodeWord c k v m).freq = m.freq := rfl
@[simp] theorem setNodeWord_code (c : Config) (k : Nat) (v : Word) (m : Memory) : (setNodeWord c k v m).code = m.code := rfl

@[simp] theorem setNode_symbuf (c : Config) (h : Nat) (nd : Node) (m : Memory) : (setNode c h nd m).symbuf = m.symbuf := rfl
@[simp] theorem setNode_bitbuf (c : Config) (h : Nat) (nd : Node) (m : Memory) : (setNode c h nd m).bitbuf = m.bitbuf := rfl
@[simp] theorem setNode_freq (c : Config) (h : Nat) (nd : Node) (m : Memory) : (setNode c h nd m).freq = m.freq := rfl
@[simp] theorem setNode_code (c : Config) (h : Nat) (nd : Node) (m : Memory) : (setNode c h nd m).code = m.code := rfl

@[simp] theorem setCodeWord_symbuf (c : Config) (k : Nat) (v : Word) (m : Memory) : (setCodeWord c k v m).symbuf = m.symbuf := rfl
@[simp] theorem setCodeWord_bitbuf (c : Config) (k : Nat) (v : Word) (m : Memory) : (setCodeWord c k v m).bitbuf = m.bitbuf := rfl
@[simp] theorem setCodeWord_freq (c : Config) (k : Nat) (v : Word) (m : Memory) : (setCodeWord c k v m).freq = m.freq := rfl
@[simp] theorem setCodeWord_node (c : Config) (k : Nat) (v : Word) (m : Memory) : (setCodeWord c k v m).node = m.node := rfl

@[simp] theorem setCodeBits_symbuf (c : Config) (j : Nat) (path : List Bool) (n : Nat) (m : Memory) : (setCodeBits c j path n m).symbuf = m.symbuf := by
  induction n with
  | zero => rfl
  | succ n ih => simpa [setCodeBits] using ih
@[simp] theorem setCodeBits_bitbuf (c : Config) (j : Nat) (path : List Bool) (n : Nat) (m : Memory) : (setCodeBits c j path n m).bitbuf = m.bitbuf := by
  induction n with
  | zero => rfl
  | succ n ih => simpa [setCodeBits] using ih
@[simp] theorem setCodeBits_freq (c : Config) (j : Nat) (path : List Bool) (n : Nat) (m : Memory) : (setCodeBits c j path n m).freq = m.freq := by
  induction n with
  | zero => rfl
  | succ n ih => simpa [setCodeBits] using ih
@[simp] theorem setCodeBits_node (c : Config) (j : Nat) (path : List Bool) (n : Nat) (m : Memory) : (setCodeBits c j path n m).node = m.node := by
  induction n with
  | zero => rfl
  | succ n ih => simpa [setCodeBits] using ih

@[simp] theorem setCode_symbuf (c : Config) (j : Nat) (sym : Word) (len : Nat) (path : List Bool) (m : Memory) : (setCode c j sym len path m).symbuf = m.symbuf := by simp [setCode]
@[simp] theorem setCode_bitbuf (c : Config) (j : Nat) (sym : Word) (len : Nat) (path : List Bool) (m : Memory) : (setCode c j sym len path m).bitbuf = m.bitbuf := by simp [setCode]
@[simp] theorem setCode_freq (c : Config) (j : Nat) (sym : Word) (len : Nat) (path : List Bool) (m : Memory) : (setCode c j sym len path m).freq = m.freq := by simp [setCode]
@[simp] theorem setCode_node (c : Config) (j : Nat) (sym : Word) (len : Nat) (path : List Bool) (m : Memory) : (setCode c j sym len path m).node = m.node := by simp [setCode]

/-! ## Reads depend on one memory only -/

theorem symbol_congr {m m' : Memory} (c : Config) (i : Nat) (h : m.symbuf = m'.symbuf) : symbol c m i = symbol c m' i := by
  simp [symbol, h]

theorem bit_congr {m m' : Memory} (k : Nat) (h : m.bitbuf = m'.bitbuf) : bit m k = bit m' k := by
  simp [bit, h]

theorem freqWord_congr {m m' : Memory} (c : Config) (k : Nat) (h : m.freq = m'.freq) : freqWord c m k = freqWord c m' k := by
  simp [freqWord, h]

theorem nodeWord_congr {m m' : Memory} (c : Config) (k : Nat) (h : m.node = m'.node) : nodeWord c m k = nodeWord c m' k := by
  simp [nodeWord, h]

theorem node_congr {m m' : Memory} (c : Config) (k : Nat) (h : m.node = m'.node) : node c m k = node c m' k := by
  simp [node, nodeWord_congr c _ h]

theorem codeWord_congr {m m' : Memory} (c : Config) (k : Nat) (h : m.code = m'.code) : codeWord c m k = codeWord c m' k := by
  simp [codeWord, h]

/-! ## SYMBUF -/

theorem symbol_lt (c : Config) (m : Memory) (i : Nat) : (symbol c m i).toNat < 2 ^ c.symW := readField_lt _ _ _ _

theorem symbol_setSymbol (c : Config) (m : Memory) (i i' : Nat) (v : Word) :
    symbol c (setSymbol c i v m) i' = if i' = i then keepLow c.symW v else symbol c m i' :=
  readField_writeField _ _ _ _ _ _ _ (fun _ => rfl)

/-! ## BITBUF -/

theorem bit_setBit (m : Memory) (k k' : Nat) (v : Bool) : bit (setBit k v m) k' = if k' = k then v else bit m k' := by
  by_cases h : k' = k
  · simp [bit, setBit, h]
  · simp [bit, setBit, h, lookupCell_setCell_ne _ _ h]

/-- Writing `n` bits from `start` on: those bits, and no other. -/
theorem bit_setBits (start : Nat) (f : Nat → Bool) (n : Nat) (m : Memory) (k : Nat) :
    bit (setBits start f n m) k = if start ≤ k ∧ k < start + n then f (k - start) else bit m k := by
  induction n with
  | zero => simp [setBits]
  | succ n ih =>
    simp only [setBits, bit_setBit, ih]
    by_cases h : k = start + n
    · subst h
      simp
    · rw [if_neg h]
      by_cases h' : start ≤ k ∧ k < start + n
      · rw [if_pos h', if_pos (by omega)]
      · rw [if_neg h', if_neg (by omega)]

theorem bitWord_getLsbD (m : Memory) (w : Nat) {k : Nat} (h : k < 32) : (bitWord m w).getLsbD k = bit m (32 * w + k) :=
  packWord_getLsbD _ h

/-- Element k of BITBUF is bit (k mod 32) of word (k div 32) (R63). -/
theorem bit_eq_bitWord (m : Memory) (k : Nat) : bit m k = (bitWord m (k / 32)).getLsbD (k % 32) := by
  rw [bitWord_getLsbD m _ (Nat.mod_lt _ (by decide)), Nat.div_add_mod]

theorem bit_setBitWord (m : Memory) (w : Nat) (d : Word) (k : Nat) :
    bit (setBitWord w d m) k = if k / 32 = w then d.getLsbD (k % 32) else bit m k := by
  unfold setBitWord
  rw [bit_setBits]
  by_cases h : k / 32 = w
  · rw [if_pos (by omega), if_pos h]
    congr 1
    omega
  · rw [if_neg (by omega), if_neg h]

theorem bitWord_setBitWord (m : Memory) (w w' : Nat) (d : Word) :
    bitWord (setBitWord w d m) w' = if w' = w then d else bitWord m w' := by
  apply BitVec.eq_of_getLsbD_eq
  intro k hk
  rw [bitWord_getLsbD _ _ hk, bit_setBitWord]
  by_cases h : w' = w
  · rw [if_pos (by omega), if_pos h]
    congr 1
    omega
  · rw [if_neg (by omega), if_neg h, bitWord_getLsbD _ _ hk]

/-! ## FREQ -/

theorem freqWord_setFreqWord (c : Config) (m : Memory) (k k' : Nat) (v : Word) :
    freqWord c (setFreqWord c k v m) k' = if k' = k then keepLow (freqWidth c (k % 2)) v else freqWord c m k' :=
  readField_writeField _ _ _ _ _ _ _ (fun h => by rw [h])

theorem freqSym_lt (c : Config) (m : Memory) (j : Nat) : (freqSym c m j).toNat < 2 ^ c.symW := by
  have := readField_lt .freq (freqWidth c ((2 * j) % 2)) m.freq (2 * j)
  simpa [freqSym, freqWord, freqWidth] using this

theorem freqCnt_lt (c : Config) (m : Memory) (j : Nat) : (freqCnt c m j).toNat < 2 ^ c.cntW := by
  have := readField_lt .freq (freqWidth c ((2 * j + 1) % 2)) m.freq (2 * j + 1)
  simpa [freqCnt, freqWord, freqWidth] using this

theorem freqSym_setFreqSym (c : Config) (m : Memory) (j j' : Nat) (v : Word) :
    freqSym c (setFreqSym c j v m) j' = if j' = j then keepLow c.symW v else freqSym c m j' := by
  unfold freqSym setFreqSym
  rw [freqWord_setFreqWord]
  by_cases h : j' = j
  · simp [h, freqWidth]
  · rw [if_neg (by omega), if_neg h]

theorem freqSym_setFreqCnt (c : Config) (m : Memory) (j j' : Nat) (v : Word) :
    freqSym c (setFreqCnt c j v m) j' = freqSym c m j' := by
  unfold freqSym setFreqCnt
  rw [freqWord_setFreqWord, if_neg (by omega)]

theorem freqCnt_setFreqCnt (c : Config) (m : Memory) (j j' : Nat) (v : Word) :
    freqCnt c (setFreqCnt c j v m) j' = if j' = j then keepLow c.cntW v else freqCnt c m j' := by
  unfold freqCnt setFreqCnt
  rw [freqWord_setFreqWord]
  by_cases h : j' = j
  · simp [h, freqWidth]
  · rw [if_neg (by omega), if_neg h]

theorem freqCnt_setFreqSym (c : Config) (m : Memory) (j j' : Nat) (v : Word) :
    freqCnt c (setFreqSym c j v m) j' = freqCnt c m j' := by
  unfold freqCnt setFreqSym
  rw [freqWord_setFreqWord, if_neg (by omega)]

/-! ## NODE -/

theorem nodeWord_setNodeWord (c : Config) (m : Memory) (k k' : Nat) (v : Word) :
    nodeWord c (setNodeWord c k v m) k' = if k' = k then keepLow (nodeWidth c (k % 8)) v else nodeWord c m k' :=
  readField_writeField _ _ _ _ _ _ _ (fun h => by rw [h])

@[simp] theorem kindOf_kindWord (k : NodeKind) : kindOf (kindWord k) = k := by cases k <;> rfl

/-- The words of NODE[h'] after a write of NODE[h]: the node's own fields where h' = h. -/
theorem nodeWord_setNode (c : Config) (h : Nat) (nd : Node) (m : Memory) (k : Nat) :
    nodeWord c (setNode c h nd m) k =
      if k = 8 * h then keepLow 1 (kindWord nd.kind)
      else if k = 8 * h + 1 then keepLow c.symW nd.sym
      else if k = 8 * h + 2 then keepLow (min 32 (freqW c)) (BitVec.ofNat 32 nd.freq.toNat)
      else if k = 8 * h + 3 then keepLow (freqW c - 32) (BitVec.ofNat 32 (nd.freq.toNat / 2 ^ 32))
      else if k = 8 * h + 4 then keepLow 9 (nd.left.setWidth 32)
      else if k = 8 * h + 5 then keepLow 9 (nd.right.setWidth 32)
      else nodeWord c m k := by
  unfold setNode
  simp only [nodeWord_setNodeWord]
  by_cases h5 : k = 8 * h + 5
  · subst h5; simp [nodeWidth]
  by_cases h4 : k = 8 * h + 4
  · subst h4; simp [nodeWidth]
  by_cases h3 : k = 8 * h + 3
  · subst h3; simp [nodeWidth]
  by_cases h2 : k = 8 * h + 2
  · subst h2; simp [nodeWidth]
  by_cases h1 : k = 8 * h + 1
  · subst h1; simp [nodeWidth]
  by_cases h0 : k = 8 * h
  · subst h0; simp [nodeWidth]
  simp [h0, h1, h2, h3, h4, h5]

theorem keepLow_handle (h : Handle) : (keepLow 9 (h.setWidth 32)).setWidth 9 = h := by
  apply BitVec.eq_of_toNat_eq
  have := h.isLt
  rw [BitVec.toNat_setWidth, keepLow_toNat, BitVec.toNat_setWidth]
  omega

theorem node_setNode_ne (c : Config) (nd : Node) (m : Memory) {h h' : Nat} (hne : h' ≠ h) :
    node c (setNode c h nd m) h' = node c m h' := by
  simp only [node, nodeWord_setNode]
  congr 1 <;> split_ifs <;> first | omega | rfl

/-- A node whose fields fit is read back whole. -/
theorem node_setNode_self (c : Config) (nd : Node) (m : Memory) (h : Nat) (hs : nd.sym.toNat < 2 ^ c.symW)
    (hf : nd.freq.toNat < 2 ^ freqW c) : node c (setNode c h nd m) h = nd := by
  obtain ⟨kind, sym, freq, left, right⟩ := nd
  have w := nodeWord_setNode c h { kind := kind, sym := sym, freq := freq, left := left, right := right } m
  have w0 := w (8 * h)
  have w1 := w (8 * h + 1)
  have w2 := w (8 * h + 2)
  have w3 := w (8 * h + 3)
  have w4 := w (8 * h + 4)
  have w5 := w (8 * h + 5)
  rw [if_pos rfl] at w0
  rw [if_neg (by omega), if_pos rfl] at w1
  rw [if_neg (by omega), if_neg (by omega), if_pos rfl] at w2
  rw [if_neg (by omega), if_neg (by omega), if_neg (by omega), if_pos rfl] at w3
  rw [if_neg (by omega), if_neg (by omega), if_neg (by omega), if_neg (by omega), if_pos rfl] at w4
  rw [if_neg (by omega), if_neg (by omega), if_neg (by omega), if_neg (by omega), if_neg (by omega), if_pos rfl] at w5
  simp only [node, w0, w1, w2, w3, w4, w5]
  refine congr (congr (congr (congr (congrArg Node.mk ?_) ?_) ?_) ?_) ?_
  · cases kind <;> rfl
  · exact keepLow_of_lt hs
  · apply BitVec.eq_of_toNat_eq
    have hlt := freq.isLt
    simp only [BitVec.toNat_ofNat, keepLow_toNat]
    have h1 : freq.toNat % 2 ^ 32 % 2 ^ min 32 (freqW c) = freq.toNat % 2 ^ 32 := by
      apply Nat.mod_eq_of_lt
      rcases le_total 32 (freqW c) with hle | hle
      · rw [Nat.min_eq_left hle]; exact Nat.mod_lt _ (by decide)
      · rw [Nat.min_eq_right hle]; exact lt_of_le_of_lt (Nat.mod_le _ _) hf
    have h2 : freq.toNat / 2 ^ 32 % 2 ^ 32 % 2 ^ (freqW c - 32) = freq.toNat / 2 ^ 32 := by
      rw [Nat.mod_eq_of_lt (by omega : freq.toNat / 2 ^ 32 < 2 ^ 32)]
      apply Nat.mod_eq_of_lt
      rcases le_total 32 (freqW c) with hle | hle
      · apply Nat.div_lt_of_lt_mul
        rw [← Nat.pow_add, Nat.add_sub_cancel' hle]
        exact hf
      · rw [Nat.sub_eq_zero_of_le hle]
        have : freq.toNat < 2 ^ 32 := lt_of_lt_of_le hf (Nat.pow_le_pow_right (by decide) hle)
        omega
    rw [h1, h2]
    omega
  · exact keepLow_handle left
  · exact keepLow_handle right

theorem node_sym_lt (c : Config) (m : Memory) (h : Nat) : (node c m h).sym.toNat < 2 ^ c.symW := by
  have := readField_lt .node (nodeWidth c ((8 * h + 1) % 8)) m.node (8 * h + 1)
  simpa [node, nodeWord, nodeWidth, Nat.mul_add_mod] using this

/-! ## CODE -/

theorem codeWord_setCodeWord (c : Config) (m : Memory) (k k' : Nat) (v : Word) :
    codeWord c (setCodeWord c k v m) k' = if k' = k then keepLow (codeWidth c (k % 16)) v else codeWord c m k' :=
  readField_writeField _ _ _ _ _ _ _ (fun h => by rw [h])

theorem codeWord_setCodeBits (c : Config) (j : Nat) (path : List Bool) (n : Nat) (m : Memory) (k : Nat) :
    codeWord c (setCodeBits c j path n m) k =
      if 16 * j + 2 ≤ k ∧ k < 16 * j + 2 + n then
        keepLow (codeWidth c (k % 16)) (packWord (fun b => path.getD (32 * (k - (16 * j + 2)) + b) false))
      else codeWord c m k := by
  induction n with
  | zero => simp [setCodeBits]
  | succ n ih =>
    simp only [setCodeBits, codeWord_setCodeWord, ih]
    by_cases h : k = 16 * j + 2 + n
    · subst h
      rw [if_pos rfl, if_pos (by omega)]
      simp
    · rw [if_neg h]
      by_cases h' : 16 * j + 2 ≤ k ∧ k < 16 * j + 2 + n
      · rw [if_pos h', if_pos (by omega)]
      · rw [if_neg h', if_neg (by omega)]

/-- The words of CODE after a write of CODE[j]. -/
theorem codeWord_setCode (c : Config) (j : Nat) (sym : Word) (len : Nat) (path : List Bool) (m : Memory) (k : Nat) :
    codeWord c (setCode c j sym len path m) k =
      if k = 16 * j then keepLow c.symW sym
      else if k = 16 * j + 1 then keepLow 8 (BitVec.ofNat 32 len)
      else if 16 * j + 2 ≤ k ∧ k < 16 * j + 10 then
        keepLow (codeWidth c (k % 16)) (packWord (fun b => path.getD (32 * (k - (16 * j + 2)) + b) false))
      else codeWord c m k := by
  unfold setCode
  rw [codeWord_setCodeBits]
  by_cases h : 16 * j + 2 ≤ k ∧ k < 16 * j + 2 + 8
  · rw [if_pos h, if_neg (by omega), if_neg (by omega), if_pos (by omega)]
  · rw [if_neg h]
    simp only [codeWord_setCodeWord]
    by_cases h1 : k = 16 * j + 1
    · subst h1; simp [codeWidth]
    · by_cases h0 : k = 16 * j
      · subst h0; simp [codeWidth]
      · rw [if_neg h1, if_neg h0, if_neg h0, if_neg h1, if_neg (by omega)]

theorem codeSym_setCode (c : Config) (j j' : Nat) (sym : Word) (len : Nat) (path : List Bool) (m : Memory) :
    codeSym c (setCode c j sym len path m) j' = if j' = j then keepLow c.symW sym else codeSym c m j' := by
  unfold codeSym
  rw [codeWord_setCode]
  by_cases h : j' = j
  · simp [h]
  · rw [if_neg (by omega), if_neg (by omega), if_neg (by omega), if_neg h]

theorem codeLen_setCode (c : Config) (j j' : Nat) (sym : Word) (len : Nat) (path : List Bool) (m : Memory) :
    codeLen c (setCode c j sym len path m) j' = if j' = j then len % 256 else codeLen c m j' := by
  unfold codeLen
  rw [codeWord_setCode]
  by_cases h : j' = j
  · subst h
    simp [keepLow_toNat]
  · rw [if_neg (by omega), if_neg (by omega), if_neg (by omega), if_neg h]

theorem keepLow_getLsbD (n : Nat) (w : Word) (k : Nat) : (keepLow n w).getLsbD k = (decide (k < n) && w.getLsbD k) := by
  simp only [BitVec.getLsbD, keepLow_toNat, Nat.testBit_mod_two_pow]

/-- Bit k of the entry just written is bit k of the path, as far as `bits` reaches. -/
theorem codeBit_setCode_self (c : Config) (j : Nat) (sym : Word) (len : Nat) (path : List Bool) (m : Memory) {k : Nat}
    (hk : k < 256) (hmax : k < maxLen c) : codeBit c (setCode c j sym len path m) j k = path.getD k false := by
  unfold codeBit
  rw [codeWord_setCode, if_neg (by omega), if_neg (by omega), if_pos (by omega), keepLow_getLsbD,
    packWord_getLsbD _ (Nat.mod_lt _ (by decide))]
  have hf : (16 * j + 2 + k / 32) % 16 = 2 + k / 32 := by omega
  have hw : k % 32 < codeWidth c ((16 * j + 2 + k / 32) % 16) := by
    rw [hf]
    unfold codeWidth
    rw [if_neg (by omega), if_neg (by omega), if_pos (by omega)]
    omega
  rw [decide_eq_true hw, Bool.true_and]
  congr 1
  omega

theorem codeBit_setCode_ne (c : Config) (sym : Word) (len : Nat) (path : List Bool) (m : Memory) {j j' k : Nat}
    (hk : k < 256) (h : j' ≠ j) : codeBit c (setCode c j sym len path m) j' k = codeBit c m j' k := by
  unfold codeBit
  rw [codeWord_setCode, if_neg (by omega), if_neg (by omega), if_neg (by omega)]

/-! ## The canonical form -/

theorem memory_wf_reset : Memory.wf State.reset.cfg State.reset.mem := by
  refine ⟨wordsWf_unwritten _ _ _, ⟨List.Pairwise.nil, fun _ h => absurd h List.not_mem_nil⟩, wordsWf_unwritten _ _ _,
    wordsWf_unwritten _ _ _, wordsWf_unwritten _ _ _⟩

theorem memory_wf_setSymbol {c : Config} {m : Memory} (h : Memory.wf c m) {i : Nat} (hi : i < c.seqN) (v : Word) :
    Memory.wf c (setSymbol c i v m) :=
  ⟨wordsWf_writeField (width := fun _ => c.symW) v h.1 hi, h.2⟩

theorem memory_wf_setBit {c : Config} {m : Memory} (h : Memory.wf c m) {k : Nat} (hk : k < c.bitN) (v : Bool) :
    Memory.wf c (setBit k v m) := by
  refine ⟨h.1, ⟨rising_setCell _ _ h.2.1.1, ?_⟩, h.2.2⟩
  intro p hp
  rcases mem_setCell hp with rfl | hp
  · exact hk
  · exact h.2.1.2 p hp

theorem memory_wf_setBits {c : Config} {m : Memory} (h : Memory.wf c m) {start n : Nat} (f : Nat → Bool)
    (hn : start + n ≤ c.bitN) : Memory.wf c (setBits start f n m) := by
  induction n with
  | zero => exact h
  | succ n ih => exact memory_wf_setBit (ih (by omega)) (by omega) _

theorem memory_wf_setBitWord {c : Config} {m : Memory} (h : Memory.wf c m) {w : Nat} (hw : 32 * w + 32 ≤ c.bitN) (d : Word) :
    Memory.wf c (setBitWord w d m) := memory_wf_setBits h _ hw

theorem memory_wf_setFreqWord {c : Config} {m : Memory} (h : Memory.wf c m) {k : Nat} (hk : k < 2 * c.nsym) (v : Word) :
    Memory.wf c (setFreqWord c k v m) :=
  ⟨h.1, h.2.1, wordsWf_writeField (width := fun k => freqWidth c (k % 2)) v h.2.2.1 hk, h.2.2.2⟩

theorem memory_wf_setFreqSym {c : Config} {m : Memory} (h : Memory.wf c m) {j : Nat} (hj : j < c.nsym) (v : Word) :
    Memory.wf c (setFreqSym c j v m) := memory_wf_setFreqWord h (by omega) v

theorem memory_wf_setFreqCnt {c : Config} {m : Memory} (h : Memory.wf c m) {j : Nat} (hj : j < c.nsym) (v : Word) :
    Memory.wf c (setFreqCnt c j v m) := memory_wf_setFreqWord h (by omega) v

theorem memory_wf_setNodeWord {c : Config} {m : Memory} (h : Memory.wf c m) {k : Nat} (hk : k < 8 * nnodeMax c) (v : Word) :
    Memory.wf c (setNodeWord c k v m) :=
  ⟨h.1, h.2.1, h.2.2.1, wordsWf_writeField (width := fun k => nodeWidth c (k % 8)) v h.2.2.2.1 hk, h.2.2.2.2⟩

theorem memory_wf_setNode {c : Config} {m : Memory} (h : Memory.wf c m) {k : Nat} (hk : k < nnodeMax c) (nd : Node) :
    Memory.wf c (setNode c k nd m) := by
  unfold setNode
  iterate 6 refine memory_wf_setNodeWord ?_ (by omega) _
  exact h

theorem memory_wf_setCodeWord {c : Config} {m : Memory} (h : Memory.wf c m) {k : Nat} (hk : k < 16 * c.nsym) (v : Word) :
    Memory.wf c (setCodeWord c k v m) :=
  ⟨h.1, h.2.1, h.2.2.1, h.2.2.2.1, wordsWf_writeField (width := fun k => codeWidth c (k % 16)) v h.2.2.2.2 hk⟩

theorem memory_wf_setCodeBits {c : Config} {m : Memory} (h : Memory.wf c m) {j n : Nat} (path : List Bool)
    (hj : j < c.nsym) (hn : n ≤ 8) : Memory.wf c (setCodeBits c j path n m) := by
  induction n with
  | zero => exact h
  | succ n ih => exact memory_wf_setCodeWord (ih (by omega)) (by omega) _

theorem memory_wf_setCode {c : Config} {m : Memory} (h : Memory.wf c m) {j : Nat} (hj : j < c.nsym) (sym : Word) (len : Nat)
    (path : List Bool) : Memory.wf c (setCode c j sym len path m) :=
  memory_wf_setCodeBits (memory_wf_setCodeWord (memory_wf_setCodeWord h (by omega) _) (by omega) _) _ hj (le_refl 8)

end Sys2Proof.Machine
end

