-- ==== Sys2Proof/Laws/State.lean ====
section
/-! SUPPORT. One lemma per field per update of the state, so that no proof unfolds a record update. -/

namespace Sys2Proof.Machine

/-! ## accept -/

@[simp] theorem accept_cfg (w : Word) (s : State) : (accept w s).cfg = s.cfg := rfl
@[simp] theorem accept_ie (w : Word) (s : State) : (accept w s).ie = s.ie := rfl
@[simp] theorem accept_status (w : Word) (s : State) : (accept w s).status = acceptedStatus w := rfl
@[simp] theorem accept_errinfo (w : Word) (s : State) : (accept w s).errinfo = 0 := rfl
@[simp] theorem accept_errpos (w : Word) (s : State) : (accept w s).errpos = 0 := rfl
@[simp] theorem accept_slen (w : Word) (s : State) : (accept w s).slen = s.slen := rfl
@[simp] theorem accept_blen (w : Word) (s : State) : (accept w s).blen = s.blen := rfl
@[simp] theorem accept_nfreq (w : Word) (s : State) : (accept w s).nfreq = s.nfreq := rfl
@[simp] theorem accept_nnodes (w : Word) (s : State) : (accept w s).nnodes = s.nnodes := rfl
@[simp] theorem accept_root (w : Word) (s : State) : (accept w s).root = s.root := rfl
@[simp] theorem accept_ncode (w : Word) (s : State) : (accept w s).ncode = s.ncode := rfl
@[simp] theorem accept_mem (w : Word) (s : State) : (accept w s).mem = s.mem := rfl
@[simp] theorem accept_phase (w : Word) (s : State) : (accept w s).phase = phaseOf w := rfl
@[simp] theorem accept_cmdw (w : Word) (s : State) : (accept w s).cmdw = w := rfl
@[simp] theorem accept_heap (w : Word) (s : State) : (accept w s).heap = s.heap := rfl
@[simp] theorem accept_heapn (w : Word) (s : State) : (accept w s).heapn = s.heapn := rfl
@[simp] theorem accept_stack (w : Word) (s : State) : (accept w s).stack = s.stack := rfl
@[simp] theorem accept_work (w : Word) (s : State) : (accept w s).work = s.work := rfl
@[simp] theorem accept_inputs (w : Word) (s : State) : (accept w s).inputs = s.inputs := rfl
@[simp] theorem accept_rdata (w : Word) (s : State) : (accept w s).rdata = s.rdata := rfl
@[simp] theorem accept_fresh (w : Word) (s : State) : (accept w s).fresh = s.fresh := rfl

/-! ## spoilWork -/

@[simp] theorem spoilWork_cfg (s : State) : (spoilWork s).cfg = s.cfg := rfl
@[simp] theorem spoilWork_ie (s : State) : (spoilWork s).ie = s.ie := rfl
@[simp] theorem spoilWork_status (s : State) : (spoilWork s).status = s.status := rfl
@[simp] theorem spoilWork_errinfo (s : State) : (spoilWork s).errinfo = s.errinfo := rfl
@[simp] theorem spoilWork_errpos (s : State) : (spoilWork s).errpos = s.errpos := rfl
@[simp] theorem spoilWork_slen (s : State) : (spoilWork s).slen = s.slen := rfl
@[simp] theorem spoilWork_blen (s : State) : (spoilWork s).blen = s.blen := rfl
@[simp] theorem spoilWork_nfreq (s : State) : (spoilWork s).nfreq = s.nfreq := rfl
@[simp] theorem spoilWork_nnodes (s : State) : (spoilWork s).nnodes = s.nnodes := rfl
@[simp] theorem spoilWork_root (s : State) : (spoilWork s).root = s.root := rfl
@[simp] theorem spoilWork_ncode (s : State) : (spoilWork s).ncode = s.ncode := rfl
@[simp] theorem spoilWork_mem (s : State) : (spoilWork s).mem = s.mem := rfl
@[simp] theorem spoilWork_phase (s : State) : (spoilWork s).phase = s.phase := rfl
@[simp] theorem spoilWork_cmdw (s : State) : (spoilWork s).cmdw = s.cmdw := rfl
@[simp] theorem spoilWork_heap (s : State) : (spoilWork s).heap = s.heap := rfl
@[simp] theorem spoilWork_heapn (s : State) : (spoilWork s).heapn = s.heapn := rfl
@[simp] theorem spoilWork_stack (s : State) : (spoilWork s).stack = .unwritten s.fresh := rfl
@[simp] theorem spoilWork_work (s : State) : (spoilWork s).work = Work.any s.fresh := rfl
@[simp] theorem spoilWork_inputs (s : State) : (spoilWork s).inputs = s.inputs := rfl
@[simp] theorem spoilWork_rdata (s : State) : (spoilWork s).rdata = s.rdata := rfl
@[simp] theorem spoilWork_fresh (s : State) : (spoilWork s).fresh = s.fresh + 1 := rfl

/-! ## complete -/

@[simp] theorem complete_cfg (e : Err) (info pos : Word) (s : State) : (complete e info pos s).cfg = s.cfg := rfl
@[simp] theorem complete_ie (e : Err) (info pos : Word) (s : State) : (complete e info pos s).ie = s.ie := rfl
@[simp] theorem complete_status (e : Err) (info pos : Word) (s : State) : (complete e info pos s).status = completedStatus s.status e := rfl
@[simp] theorem complete_errinfo (e : Err) (info pos : Word) (s : State) : (complete e info pos s).errinfo = info := rfl
@[simp] theorem complete_errpos (e : Err) (info pos : Word) (s : State) : (complete e info pos s).errpos = pos := rfl
@[simp] theorem complete_slen (e : Err) (info pos : Word) (s : State) : (complete e info pos s).slen = s.slen := rfl
@[simp] theorem complete_blen (e : Err) (info pos : Word) (s : State) : (complete e info pos s).blen = s.blen := rfl
@[simp] theorem complete_nfreq (e : Err) (info pos : Word) (s : State) : (complete e info pos s).nfreq = s.nfreq := rfl
@[simp] theorem complete_nnodes (e : Err) (info pos : Word) (s : State) : (complete e info pos s).nnodes = s.nnodes := rfl
@[simp] theorem complete_root (e : Err) (info pos : Word) (s : State) : (complete e info pos s).root = s.root := rfl
@[simp] theorem complete_ncode (e : Err) (info pos : Word) (s : State) : (complete e info pos s).ncode = s.ncode := rfl
@[simp] theorem complete_mem (e : Err) (info pos : Word) (s : State) : (complete e info pos s).mem = s.mem := rfl
@[simp] theorem complete_phase (e : Err) (info pos : Word) (s : State) : (complete e info pos s).phase = .idle := rfl
@[simp] theorem complete_cmdw (e : Err) (info pos : Word) (s : State) : (complete e info pos s).cmdw = s.cmdw := rfl
@[simp] theorem complete_heap (e : Err) (info pos : Word) (s : State) : (complete e info pos s).heap = s.heap := rfl
@[simp] theorem complete_heapn (e : Err) (info pos : Word) (s : State) : (complete e info pos s).heapn = s.heapn := rfl
@[simp] theorem complete_stack (e : Err) (info pos : Word) (s : State) : (complete e info pos s).stack = s.stack := rfl
@[simp] theorem complete_work (e : Err) (info pos : Word) (s : State) : (complete e info pos s).work = s.work := rfl
@[simp] theorem complete_inputs (e : Err) (info pos : Word) (s : State) : (complete e info pos s).inputs = s.inputs := rfl
@[simp] theorem complete_rdata (e : Err) (info pos : Word) (s : State) : (complete e info pos s).rdata = s.rdata := rfl
@[simp] theorem complete_fresh (e : Err) (info pos : Word) (s : State) : (complete e info pos s).fresh = s.fresh := rfl

/-! ## succeed -/

@[simp] theorem succeed_cfg (s : State) : (succeed s).cfg = s.cfg := rfl
@[simp] theorem succeed_ie (s : State) : (succeed s).ie = s.ie := rfl
@[simp] theorem succeed_status (s : State) : (succeed s).status = completedStatus s.status .success := rfl
@[simp] theorem succeed_errinfo (s : State) : (succeed s).errinfo = 0 := rfl
@[simp] theorem succeed_errpos (s : State) : (succeed s).errpos = 0 := rfl
@[simp] theorem succeed_slen (s : State) : (succeed s).slen = s.slen := rfl
@[simp] theorem succeed_blen (s : State) : (succeed s).blen = s.blen := rfl
@[simp] theorem succeed_nfreq (s : State) : (succeed s).nfreq = s.nfreq := rfl
@[simp] theorem succeed_nnodes (s : State) : (succeed s).nnodes = s.nnodes := rfl
@[simp] theorem succeed_root (s : State) : (succeed s).root = s.root := rfl
@[simp] theorem succeed_ncode (s : State) : (succeed s).ncode = s.ncode := rfl
@[simp] theorem succeed_mem (s : State) : (succeed s).mem = s.mem := rfl
@[simp] theorem succeed_phase (s : State) : (succeed s).phase = .idle := rfl
@[simp] theorem succeed_cmdw (s : State) : (succeed s).cmdw = s.cmdw := rfl
@[simp] theorem succeed_heap (s : State) : (succeed s).heap = s.heap := rfl
@[simp] theorem succeed_heapn (s : State) : (succeed s).heapn = s.heapn := rfl
@[simp] theorem succeed_stack (s : State) : (succeed s).stack = .unwritten s.fresh := rfl
@[simp] theorem succeed_work (s : State) : (succeed s).work = Work.any s.fresh := rfl
@[simp] theorem succeed_inputs (s : State) : (succeed s).inputs = s.inputs := rfl
@[simp] theorem succeed_rdata (s : State) : (succeed s).rdata = s.rdata := rfl
@[simp] theorem succeed_fresh (s : State) : (succeed s).fresh = s.fresh + 1 := rfl

/-! ## rejectCommand -/

@[simp] theorem rejectCommand_cfg (s : State) : (rejectCommand s).cfg = s.cfg := rfl
@[simp] theorem rejectCommand_ie (s : State) : (rejectCommand s).ie = s.ie := rfl
@[simp] theorem rejectCommand_status (s : State) : (rejectCommand s).status = completedStatus s.status .illegalCommand := rfl
@[simp] theorem rejectCommand_errinfo (s : State) : (rejectCommand s).errinfo = s.cmdw := rfl
@[simp] theorem rejectCommand_errpos (s : State) : (rejectCommand s).errpos = 0 := rfl
@[simp] theorem rejectCommand_slen (s : State) : (rejectCommand s).slen = s.slen := rfl
@[simp] theorem rejectCommand_blen (s : State) : (rejectCommand s).blen = s.blen := rfl
@[simp] theorem rejectCommand_nfreq (s : State) : (rejectCommand s).nfreq = s.nfreq := rfl
@[simp] theorem rejectCommand_nnodes (s : State) : (rejectCommand s).nnodes = s.nnodes := rfl
@[simp] theorem rejectCommand_root (s : State) : (rejectCommand s).root = s.root := rfl
@[simp] theorem rejectCommand_ncode (s : State) : (rejectCommand s).ncode = s.ncode := rfl
@[simp] theorem rejectCommand_mem (s : State) : (rejectCommand s).mem = s.mem := rfl
@[simp] theorem rejectCommand_phase (s : State) : (rejectCommand s).phase = .idle := rfl
@[simp] theorem rejectCommand_cmdw (s : State) : (rejectCommand s).cmdw = s.cmdw := rfl
@[simp] theorem rejectCommand_heap (s : State) : (rejectCommand s).heap = s.heap := rfl
@[simp] theorem rejectCommand_heapn (s : State) : (rejectCommand s).heapn = s.heapn := rfl
@[simp] theorem rejectCommand_stack (s : State) : (rejectCommand s).stack = s.stack := rfl
@[simp] theorem rejectCommand_work (s : State) : (rejectCommand s).work = s.work := rfl
@[simp] theorem rejectCommand_inputs (s : State) : (rejectCommand s).inputs = s.inputs := rfl
@[simp] theorem rejectCommand_rdata (s : State) : (rejectCommand s).rdata = s.rdata := rfl
@[simp] theorem rejectCommand_fresh (s : State) : (rejectCommand s).fresh = s.fresh := rfl

/-! ## pinReset -/

@[simp] theorem pinReset_cfg (s : State) : (pinReset s).cfg = s.cfg := rfl
@[simp] theorem pinReset_ie (s : State) : (pinReset s).ie = false := rfl
@[simp] theorem pinReset_status (s : State) : (pinReset s).status = { busy := false, done := false, err := .success, op := 0 } := rfl
@[simp] theorem pinReset_errinfo (s : State) : (pinReset s).errinfo = 0 := rfl
@[simp] theorem pinReset_errpos (s : State) : (pinReset s).errpos = 0 := rfl
@[simp] theorem pinReset_slen (s : State) : (pinReset s).slen = 0 := rfl
@[simp] theorem pinReset_blen (s : State) : (pinReset s).blen = 0 := rfl
@[simp] theorem pinReset_nfreq (s : State) : (pinReset s).nfreq = 0 := rfl
@[simp] theorem pinReset_nnodes (s : State) : (pinReset s).nnodes = 0 := rfl
@[simp] theorem pinReset_root (s : State) : (pinReset s).root = nilHandle := rfl
@[simp] theorem pinReset_ncode (s : State) : (pinReset s).ncode = 0 := rfl
@[simp] theorem pinReset_mem (s : State) : (pinReset s).mem = { symbuf := .unwritten s.fresh, bitbuf := .unwritten s.fresh, freq := .unwritten s.fresh, node := .unwritten s.fresh, code := .unwritten s.fresh } := rfl
@[simp] theorem pinReset_phase (s : State) : (pinReset s).phase = .idle := rfl
@[simp] theorem pinReset_cmdw (s : State) : (pinReset s).cmdw = 0 := rfl
@[simp] theorem pinReset_heap (s : State) : (pinReset s).heap = .unwritten s.fresh := rfl
@[simp] theorem pinReset_heapn (s : State) : (pinReset s).heapn = 0 := rfl
@[simp] theorem pinReset_stack (s : State) : (pinReset s).stack = .unwritten s.fresh := rfl
@[simp] theorem pinReset_work (s : State) : (pinReset s).work = Work.any s.fresh := rfl
@[simp] theorem pinReset_inputs (s : State) : (pinReset s).inputs = s.inputs := rfl
@[simp] theorem pinReset_rdata (s : State) : (pinReset s).rdata = s.rdata := rfl
@[simp] theorem pinReset_fresh (s : State) : (pinReset s).fresh = s.fresh + 1 := rfl

/-! ## performRead -/

@[simp] theorem performRead_cfg (a : HostAddr) (s : State) : (performRead a s).cfg = s.cfg := rfl
@[simp] theorem performRead_ie (a : HostAddr) (s : State) : (performRead a s).ie = s.ie := rfl
@[simp] theorem performRead_status (a : HostAddr) (s : State) : (performRead a s).status = s.status := rfl
@[simp] theorem performRead_errinfo (a : HostAddr) (s : State) : (performRead a s).errinfo = s.errinfo := rfl
@[simp] theorem performRead_errpos (a : HostAddr) (s : State) : (performRead a s).errpos = s.errpos := rfl
@[simp] theorem performRead_slen (a : HostAddr) (s : State) : (performRead a s).slen = s.slen := rfl
@[simp] theorem performRead_blen (a : HostAddr) (s : State) : (performRead a s).blen = s.blen := rfl
@[simp] theorem performRead_nfreq (a : HostAddr) (s : State) : (performRead a s).nfreq = s.nfreq := rfl
@[simp] theorem performRead_nnodes (a : HostAddr) (s : State) : (performRead a s).nnodes = s.nnodes := rfl
@[simp] theorem performRead_root (a : HostAddr) (s : State) : (performRead a s).root = s.root := rfl
@[simp] theorem performRead_ncode (a : HostAddr) (s : State) : (performRead a s).ncode = s.ncode := rfl
@[simp] theorem performRead_mem (a : HostAddr) (s : State) : (performRead a s).mem = s.mem := rfl
@[simp] theorem performRead_phase (a : HostAddr) (s : State) : (performRead a s).phase = s.phase := rfl
@[simp] theorem performRead_cmdw (a : HostAddr) (s : State) : (performRead a s).cmdw = s.cmdw := rfl
@[simp] theorem performRead_heap (a : HostAddr) (s : State) : (performRead a s).heap = s.heap := rfl
@[simp] theorem performRead_heapn (a : HostAddr) (s : State) : (performRead a s).heapn = s.heapn := rfl
@[simp] theorem performRead_stack (a : HostAddr) (s : State) : (performRead a s).stack = s.stack := rfl
@[simp] theorem performRead_work (a : HostAddr) (s : State) : (performRead a s).work = s.work := rfl
@[simp] theorem performRead_inputs (a : HostAddr) (s : State) : (performRead a s).inputs = s.inputs := rfl
@[simp] theorem performRead_rdata (a : HostAddr) (s : State) : (performRead a s).rdata = hostRead s a := rfl
@[simp] theorem performRead_fresh (a : HostAddr) (s : State) : (performRead a s).fresh = s.fresh := rfl

/-! ## placeCommand -/

@[simp] theorem placeCommand_cfg (w : Word) (s : State) : (placeCommand w s).cfg = s.cfg := rfl
@[simp] theorem placeCommand_ie (w : Word) (s : State) : (placeCommand w s).ie = s.ie := rfl
@[simp] theorem placeCommand_status (w : Word) (s : State) : (placeCommand w s).status = acceptedStatus w := rfl
@[simp] theorem placeCommand_errinfo (w : Word) (s : State) : (placeCommand w s).errinfo = 0 := rfl
@[simp] theorem placeCommand_errpos (w : Word) (s : State) : (placeCommand w s).errpos = 0 := rfl
@[simp] theorem placeCommand_slen (w : Word) (s : State) : (placeCommand w s).slen = s.slen := rfl
@[simp] theorem placeCommand_blen (w : Word) (s : State) : (placeCommand w s).blen = s.blen := rfl
@[simp] theorem placeCommand_nfreq (w : Word) (s : State) : (placeCommand w s).nfreq = s.nfreq := rfl
@[simp] theorem placeCommand_nnodes (w : Word) (s : State) : (placeCommand w s).nnodes = s.nnodes := rfl
@[simp] theorem placeCommand_root (w : Word) (s : State) : (placeCommand w s).root = s.root := rfl
@[simp] theorem placeCommand_ncode (w : Word) (s : State) : (placeCommand w s).ncode = s.ncode := rfl
@[simp] theorem placeCommand_mem (w : Word) (s : State) : (placeCommand w s).mem = s.mem := rfl
@[simp] theorem placeCommand_phase (w : Word) (s : State) : (placeCommand w s).phase = phaseOf w := rfl
@[simp] theorem placeCommand_cmdw (w : Word) (s : State) : (placeCommand w s).cmdw = w := rfl
@[simp] theorem placeCommand_heap (w : Word) (s : State) : (placeCommand w s).heap = s.heap := rfl
@[simp] theorem placeCommand_heapn (w : Word) (s : State) : (placeCommand w s).heapn = s.heapn := rfl
@[simp] theorem placeCommand_stack (w : Word) (s : State) : (placeCommand w s).stack = s.stack := rfl
@[simp] theorem placeCommand_work (w : Word) (s : State) : (placeCommand w s).work = s.work := rfl
@[simp] theorem placeCommand_inputs (w : Word) (s : State) : (placeCommand w s).inputs = .tick :: s.inputs := rfl
@[simp] theorem placeCommand_rdata (w : Word) (s : State) : (placeCommand w s).rdata = s.rdata := rfl
@[simp] theorem placeCommand_fresh (w : Word) (s : State) : (placeCommand w s).fresh = s.fresh := rfl

/-! ## emptyOutput, and raise over it -/

@[simp] theorem emptyOutput_cfg (i : Instr) (s : State) : (emptyOutput i s).cfg = s.cfg := by cases i <;> rfl
@[simp] theorem emptyOutput_ie (i : Instr) (s : State) : (emptyOutput i s).ie = s.ie := by cases i <;> rfl
@[simp] theorem emptyOutput_status (i : Instr) (s : State) : (emptyOutput i s).status = s.status := by cases i <;> rfl
@[simp] theorem emptyOutput_errinfo (i : Instr) (s : State) : (emptyOutput i s).errinfo = s.errinfo := by cases i <;> rfl
@[simp] theorem emptyOutput_errpos (i : Instr) (s : State) : (emptyOutput i s).errpos = s.errpos := by cases i <;> rfl
@[simp] theorem emptyOutput_count_slen (s : State) : (emptyOutput .count s).slen = s.slen := rfl
@[simp] theorem emptyOutput_build_slen (s : State) : (emptyOutput .build s).slen = s.slen := rfl
@[simp] theorem emptyOutput_gencodes_slen (s : State) : (emptyOutput .gencodes s).slen = s.slen := rfl
@[simp] theorem emptyOutput_encode_slen (s : State) : (emptyOutput .encode s).slen = s.slen := rfl
@[simp] theorem emptyOutput_decode_slen (s : State) : (emptyOutput .decode s).slen = 0 := rfl
@[simp] theorem emptyOutput_count_blen (s : State) : (emptyOutput .count s).blen = s.blen := rfl
@[simp] theorem emptyOutput_build_blen (s : State) : (emptyOutput .build s).blen = s.blen := rfl
@[simp] theorem emptyOutput_gencodes_blen (s : State) : (emptyOutput .gencodes s).blen = s.blen := rfl
@[simp] theorem emptyOutput_encode_blen (s : State) : (emptyOutput .encode s).blen = 0 := rfl
@[simp] theorem emptyOutput_decode_blen (s : State) : (emptyOutput .decode s).blen = s.blen := rfl
@[simp] theorem emptyOutput_count_nfreq (s : State) : (emptyOutput .count s).nfreq = 0 := rfl
@[simp] theorem emptyOutput_build_nfreq (s : State) : (emptyOutput .build s).nfreq = s.nfreq := rfl
@[simp] theorem emptyOutput_gencodes_nfreq (s : State) : (emptyOutput .gencodes s).nfreq = s.nfreq := rfl
@[simp] theorem emptyOutput_encode_nfreq (s : State) : (emptyOutput .encode s).nfreq = s.nfreq := rfl
@[simp] theorem emptyOutput_decode_nfreq (s : State) : (emptyOutput .decode s).nfreq = s.nfreq := rfl
@[simp] theorem emptyOutput_count_nnodes (s : State) : (emptyOutput .count s).nnodes = s.nnodes := rfl
@[simp] theorem emptyOutput_build_nnodes (s : State) : (emptyOutput .build s).nnodes = 0 := rfl
@[simp] theorem emptyOutput_gencodes_nnodes (s : State) : (emptyOutput .gencodes s).nnodes = s.nnodes := rfl
@[simp] theorem emptyOutput_encode_nnodes (s : State) : (emptyOutput .encode s).nnodes = s.nnodes := rfl
@[simp] theorem emptyOutput_decode_nnodes (s : State) : (emptyOutput .decode s).nnodes = s.nnodes := rfl
@[simp] theorem emptyOutput_count_root (s : State) : (emptyOutput .count s).root = s.root := rfl
@[simp] theorem emptyOutput_build_root (s : State) : (emptyOutput .build s).root = nilHandle := rfl
@[simp] theorem emptyOutput_gencodes_root (s : State) : (emptyOutput .gencodes s).root = s.root := rfl
@[simp] theorem emptyOutput_encode_root (s : State) : (emptyOutput .encode s).root = s.root := rfl
@[simp] theorem emptyOutput_decode_root (s : State) : (emptyOutput .decode s).root = s.root := rfl
@[simp] theorem emptyOutput_count_ncode (s : State) : (emptyOutput .count s).ncode = s.ncode := rfl
@[simp] theorem emptyOutput_build_ncode (s : State) : (emptyOutput .build s).ncode = s.ncode := rfl
@[simp] theorem emptyOutput_gencodes_ncode (s : State) : (emptyOutput .gencodes s).ncode = 0 := rfl
@[simp] theorem emptyOutput_encode_ncode (s : State) : (emptyOutput .encode s).ncode = s.ncode := rfl
@[simp] theorem emptyOutput_decode_ncode (s : State) : (emptyOutput .decode s).ncode = s.ncode := rfl
@[simp] theorem emptyOutput_count_mem (s : State) : (emptyOutput .count s).mem = { s.mem with freq := .unwritten s.fresh } := rfl
@[simp] theorem emptyOutput_build_mem (s : State) : (emptyOutput .build s).mem = s.mem := rfl
@[simp] theorem emptyOutput_gencodes_mem (s : State) : (emptyOutput .gencodes s).mem = { s.mem with code := .unwritten s.fresh } := rfl
@[simp] theorem emptyOutput_encode_mem (s : State) : (emptyOutput .encode s).mem = { s.mem with bitbuf := .unwritten s.fresh } := rfl
@[simp] theorem emptyOutput_decode_mem (s : State) : (emptyOutput .decode s).mem = { s.mem with symbuf := .unwritten s.fresh } := rfl
@[simp] theorem emptyOutput_phase (i : Instr) (s : State) : (emptyOutput i s).phase = s.phase := by cases i <;> rfl
@[simp] theorem emptyOutput_cmdw (i : Instr) (s : State) : (emptyOutput i s).cmdw = s.cmdw := by cases i <;> rfl
@[simp] theorem emptyOutput_count_heap (s : State) : (emptyOutput .count s).heap = s.heap := rfl
@[simp] theorem emptyOutput_build_heap (s : State) : (emptyOutput .build s).heap = .unwritten s.fresh := rfl
@[simp] theorem emptyOutput_gencodes_heap (s : State) : (emptyOutput .gencodes s).heap = s.heap := rfl
@[simp] theorem emptyOutput_encode_heap (s : State) : (emptyOutput .encode s).heap = s.heap := rfl
@[simp] theorem emptyOutput_decode_heap (s : State) : (emptyOutput .decode s).heap = s.heap := rfl
@[simp] theorem emptyOutput_count_heapn (s : State) : (emptyOutput .count s).heapn = s.heapn := rfl
@[simp] theorem emptyOutput_build_heapn (s : State) : (emptyOutput .build s).heapn = anyHeapn s := rfl
@[simp] theorem emptyOutput_gencodes_heapn (s : State) : (emptyOutput .gencodes s).heapn = s.heapn := rfl
@[simp] theorem emptyOutput_encode_heapn (s : State) : (emptyOutput .encode s).heapn = s.heapn := rfl
@[simp] theorem emptyOutput_decode_heapn (s : State) : (emptyOutput .decode s).heapn = s.heapn := rfl
@[simp] theorem emptyOutput_stack (i : Instr) (s : State) : (emptyOutput i s).stack = s.stack := by cases i <;> rfl
@[simp] theorem emptyOutput_work (i : Instr) (s : State) : (emptyOutput i s).work = s.work := by cases i <;> rfl
@[simp] theorem emptyOutput_inputs (i : Instr) (s : State) : (emptyOutput i s).inputs = s.inputs := by cases i <;> rfl
@[simp] theorem emptyOutput_rdata (i : Instr) (s : State) : (emptyOutput i s).rdata = s.rdata := by cases i <;> rfl
@[simp] theorem emptyOutput_fresh (i : Instr) (s : State) : (emptyOutput i s).fresh = s.fresh := by cases i <;> rfl

@[simp] theorem raise_cfg (i : Instr) (f : Failure) (s : State) : (raise i f s).cfg = (emptyOutput i s).cfg := rfl
@[simp] theorem raise_ie (i : Instr) (f : Failure) (s : State) : (raise i f s).ie = (emptyOutput i s).ie := rfl
@[simp] theorem raise_status (i : Instr) (f : Failure) (s : State) : (raise i f s).status = completedStatus s.status f.err := by cases i <;> rfl
@[simp] theorem raise_errinfo (i : Instr) (f : Failure) (s : State) : (raise i f s).errinfo = f.info := by cases i <;> rfl
@[simp] theorem raise_errpos (i : Instr) (f : Failure) (s : State) : (raise i f s).errpos = f.pos := by cases i <;> rfl
@[simp] theorem raise_slen (i : Instr) (f : Failure) (s : State) : (raise i f s).slen = (emptyOutput i s).slen := rfl
@[simp] theorem raise_blen (i : Instr) (f : Failure) (s : State) : (raise i f s).blen = (emptyOutput i s).blen := rfl
@[simp] theorem raise_nfreq (i : Instr) (f : Failure) (s : State) : (raise i f s).nfreq = (emptyOutput i s).nfreq := rfl
@[simp] theorem raise_nnodes (i : Instr) (f : Failure) (s : State) : (raise i f s).nnodes = (emptyOutput i s).nnodes := rfl
@[simp] theorem raise_root (i : Instr) (f : Failure) (s : State) : (raise i f s).root = (emptyOutput i s).root := rfl
@[simp] theorem raise_ncode (i : Instr) (f : Failure) (s : State) : (raise i f s).ncode = (emptyOutput i s).ncode := rfl
@[simp] theorem raise_mem (i : Instr) (f : Failure) (s : State) : (raise i f s).mem = (emptyOutput i s).mem := rfl
@[simp] theorem raise_phase (i : Instr) (f : Failure) (s : State) : (raise i f s).phase = .idle := by cases i <;> rfl
@[simp] theorem raise_cmdw (i : Instr) (f : Failure) (s : State) : (raise i f s).cmdw = (emptyOutput i s).cmdw := rfl
@[simp] theorem raise_heap (i : Instr) (f : Failure) (s : State) : (raise i f s).heap = (emptyOutput i s).heap := rfl
@[simp] theorem raise_heapn (i : Instr) (f : Failure) (s : State) : (raise i f s).heapn = (emptyOutput i s).heapn := rfl
@[simp] theorem raise_stack (i : Instr) (f : Failure) (s : State) : (raise i f s).stack = .unwritten s.fresh := by cases i <;> rfl
@[simp] theorem raise_work (i : Instr) (f : Failure) (s : State) : (raise i f s).work = Work.any s.fresh := by cases i <;> rfl
@[simp] theorem raise_inputs (i : Instr) (f : Failure) (s : State) : (raise i f s).inputs = (emptyOutput i s).inputs := rfl
@[simp] theorem raise_rdata (i : Instr) (f : Failure) (s : State) : (raise i f s).rdata = (emptyOutput i s).rdata := rfl
@[simp] theorem raise_fresh (i : Instr) (f : Failure) (s : State) : (raise i f s).fresh = s.fresh + 1 := by cases i <;> rfl

end Sys2Proof.Machine
end

