-- ==== Sys2Proof/Laws/Ops.lean ====
section
/-! SUPPORT. What each shared operation can do, said once: flags, acceptance, the end of a command. -/

namespace Sys2Proof.Machine

/-! ## Flags -/

@[simp] theorem completedStatus_busy (st : Status) (e : Err) : (completedStatus st e).busy = false := rfl
@[simp] theorem completedStatus_done (st : Status) (e : Err) : (completedStatus st e).done = true := rfl
@[simp] theorem completedStatus_err (st : Status) (e : Err) : (completedStatus st e).err = e := rfl
@[simp] theorem completedStatus_op (st : Status) (e : Err) : (completedStatus st e).op = st.op := rfl
@[simp] theorem acceptedStatus_busy (w : Word) : (acceptedStatus w).busy = true := rfl
@[simp] theorem acceptedStatus_done (w : Word) : (acceptedStatus w).done = false := rfl
@[simp] theorem acceptedStatus_err (w : Word) : (acceptedStatus w).err = .success := rfl
@[simp] theorem acceptedStatus_op (w : Word) : (acceptedStatus w).op = opField w := rfl
@[simp] theorem acknowledgedStatus_busy (st : Status) (d : Word) : (acknowledgedStatus st d).busy = st.busy := rfl
@[simp] theorem acknowledgedStatus_done (st : Status) (d : Word) :
    (acknowledgedStatus st d).done = (st.done && !d.getLsbD 1) := rfl
@[simp] theorem acknowledgedStatus_err (st : Status) (d : Word) : (acknowledgedStatus st d).err = st.err := rfl
@[simp] theorem acknowledgedStatus_op (st : Status) (d : Word) : (acknowledgedStatus st d).op = st.op := rfl

theorem phaseOf_ne_idle (w : Word) : phaseOf w ≠ .idle := by
  unfold phaseOf
  split <;> simp

/-! ## The end of a command -/

@[simp] theorem finish_ok (i : Instr) (s t : State) : finish i s (.ok t) = succeed t := rfl
@[simp] theorem finish_error (i : Instr) (s : State) (f : Failure) : finish i s (.error f) = raise i f s := rfl

/-- A command ends in success with its outputs in place, or raises, and nothing else. -/
theorem finish_cases (i : Instr) (s : State) (r : Except Failure State) :
    (∃ t, r = .ok t ∧ finish i s r = succeed t) ∨ (∃ f, r = .error f ∧ finish i s r = raise i f s) := by
  cases r with
  | ok t => exact .inl ⟨t, rfl, rfl⟩
  | error f => exact .inr ⟨f, rfl, rfl⟩

/-- The outputs of a command, or what it raises, by command. -/
def runOf (i : Instr) (s : State) : Except Failure State :=
  match i with
  | .count => countRun s
  | .build => buildRun s
  | .gencodes => gencodesRun s
  | .encode => encodeRun s
  | .decode => decodeRun s

/-- Every command ends in a next state, its completion. -/
theorem exec_eq_finish (i : Instr) (s : State) : exec i s = .next (finish i s (runOf i s)) := by cases i <;> rfl

/-- Everything `exec` can do: the command's outputs in place and success, or a raise. -/
theorem exec_cases {i : Instr} {s t : State} (h : exec i s = .next t) :
    (∃ u, runOf i s = .ok u ∧ t = succeed u) ∨ (∃ f, runOf i s = .error f ∧ t = raise i f s) := by
  rw [exec_eq_finish] at h
  cases h
  exact finish_cases i s (runOf i s)

end Sys2Proof.Machine
end

