-- ==== Sys2Proof/Laws/HostPort.lean ====
section
/-! SUPPORT. Laws of the host port: the BUSY rule, what a write can change, and the canonical form. -/

namespace Sys2Proof.Machine

theorem hostRead_idle {s : State} (h : s.status.busy = false) (a : HostAddr) : hostRead s a = wordAt s (locate s.cfg a) := by
  simp [hostRead, h]

theorem hostWrite_idle {s : State} (h : s.status.busy = false) (a : HostAddr) (d : Word) :
    hostWrite a d s = storeAt (locate s.cfg a) d s := by
  simp [hostWrite, h]

/-- A write leaves the parameters, the hidden state but CMDW and PHASE, and the model's own fields as they were. -/
theorem hostWrite_frame (a : HostAddr) (d : Word) (s : State) :
    (hostWrite a d s).cfg = s.cfg ∧ (hostWrite a d s).heap = s.heap ∧ (hostWrite a d s).heapn = s.heapn ∧
    (hostWrite a d s).stack = s.stack ∧ (hostWrite a d s).work = s.work ∧ (hostWrite a d s).inputs = s.inputs ∧
    (hostWrite a d s).rdata = s.rdata ∧ (hostWrite a d s).fresh = s.fresh := by
  unfold hostWrite
  simp only
  split
  · simp
  · unfold storeAt
    split <;> simp

/-- A memory write of the host is one field write, inside the memory's capacity. -/
theorem storeAt_memory_wf {s : State} (h : Memory.wf s.cfg s.mem) (a : HostAddr) (d : Word) :
    Memory.wf s.cfg (storeAt (locate s.cfg a) d s).mem := by
  unfold locate
  simp only
  have hb : s.cfg.bitN % 32 = 0 := by
    have := s.cfg.ok
    simp only [Params.valid, Bool.and_eq_true, decide_eq_true_eq] at this
    exact this.2
  split
  · unfold registerAt
    split <;> exact h
  · split
    · exact memory_wf_setFreqWord h (by omega) d
    · split
      · exact memory_wf_setNodeWord h (by omega) d
      · split
        · exact memory_wf_setCodeWord h (by omega) d
        · split
          · exact memory_wf_setSymbol h (by omega) d
          · split
            · exact memory_wf_setBitWord h (by omega) d
            · exact h

theorem hostWrite_memory_wf {s : State} (h : Memory.wf s.cfg s.mem) (a : HostAddr) (d : Word) :
    Memory.wf s.cfg (hostWrite a d s).mem := by
  unfold hostWrite
  simp only
  split
  · exact h
  · exact storeAt_memory_wf h a d

end Sys2Proof.Machine
end

