-- ==== Sys2Proof/Laws/Address.lean ====
section
/-! SUPPORT. Laws of the address map: the bounds of the parameters, which address names which location, and that no two addresses name one. -/

namespace Sys2Proof.Machine

/-- The bounds of R8 on a legal setting. -/
theorem config_bounds (c : Config) : 1 ≤ c.nsym ∧ c.nsym ≤ 256 ∧ 1 ≤ c.seqN ∧ c.seqN ≤ 65536 ∧ c.bitN % 32 = 0 ∧ c.bitN ≤ 1048576 ∧ 32 ≤ c.bitN ∧ 1 ≤ c.symW ∧ c.symW ≤ 32 ∧ 1 ≤ c.cntW ∧ c.cntW ≤ 32 ∧ c.nsym ≤ 2 ^ c.symW := by
  have hok := c.ok
  simp only [Params.valid, Bool.and_eq_true, decide_eq_true_eq] at hok
  simp only [Config.nsym, Config.seqN, Config.bitN, Config.symW, Config.cntW]
  omega

theorem registerAt_eq_ctrl {n : Nat} (h : registerAt n = .ctrl) : n = 0 := by unfold registerAt at h; split at h <;> simp_all

theorem registerAt_eq_status {n : Nat} (h : registerAt n = .status) : n = 2 := by unfold registerAt at h; split at h <;> simp_all

theorem registerAt_eq_cmd {n : Nat} (h : registerAt n = .cmd) : n = 1 := by unfold registerAt at h; split at h <;> simp_all

theorem locate_ctrl_iff (c : Config) (a : HostAddr) : locate c a = .ctrl ↔ a = 0x00 := by
  constructor
  · unfold locate; simp only; split
    · intro h; apply BitVec.eq_of_toNat_eq; exact registerAt_eq_ctrl h
    · intro h; split_ifs at h
  · rintro rfl; rfl

theorem locate_status_iff (c : Config) (a : HostAddr) : locate c a = .status ↔ a = 0x02 := by
  constructor
  · unfold locate; simp only; split
    · intro h; apply BitVec.eq_of_toNat_eq; exact registerAt_eq_status h
    · intro h; split_ifs at h
  · rintro rfl; rfl

theorem locate_cmd_iff (c : Config) (a : HostAddr) : locate c a = .cmd ↔ a = 0x01 := by
  constructor
  · unfold locate; simp only; split
    · intro h; apply BitVec.eq_of_toNat_eq; exact registerAt_eq_cmd h
    · intro h; split_ifs at h
  · rintro rfl; rfl

theorem locate_symbufAddr (c : Config) {i : Nat} (h : i < c.seqN) : locate c (symbufAddr i) = .symbufWord i := by
  have := config_bounds c
  unfold locate symbufAddr nnodeMax
  rw [BitVec.toNat_ofNat]
  generalize c.nsym = n at *
  generalize c.seqN = q at *
  rw [Nat.mod_eq_of_lt (by omega)]
  simp only
  rw [if_neg (by omega), if_neg (by omega), if_neg (by omega), if_neg (by omega), if_pos (by omega)]
  exact congrArg _ (by omega)

theorem locate_freqAddr (c : Config) {j f : Nat} (h : j < c.nsym) (hf : f < 2) : locate c (freqAddr j f) = .freqWord (2 * j + f) := by
  have := config_bounds c
  unfold locate freqAddr nnodeMax
  rw [BitVec.toNat_ofNat]
  generalize c.nsym = n at *
  generalize c.seqN = q at *
  rw [Nat.mod_eq_of_lt (by omega)]
  simp only
  rw [if_neg (by omega), if_pos (by omega)]
  exact congrArg _ (by omega)

theorem locate_nodeAddr (c : Config) {j f : Nat} (h : j < nnodeMax c) (hf : f < 8) : locate c (nodeAddr j f) = .nodeWord (8 * j + f) := by
  have := config_bounds c
  have h2 : nnodeMax c = 2 * c.nsym - 1 := rfl
  unfold locate nodeAddr
  rw [BitVec.toNat_ofNat]
  generalize c.nsym = n at *
  generalize nnodeMax c = m at *
  generalize c.seqN = q at *
  rw [Nat.mod_eq_of_lt (by omega)]
  simp only
  rw [if_neg (by omega), if_neg (by omega), if_pos (by omega)]
  exact congrArg _ (by omega)

theorem locate_codeAddr (c : Config) {j f : Nat} (h : j < c.nsym) (hf : f < 16) : locate c (codeAddr j f) = .codeWord (16 * j + f) := by
  have := config_bounds c
  have h2 : nnodeMax c = 2 * c.nsym - 1 := rfl
  unfold locate codeAddr
  rw [BitVec.toNat_ofNat]
  generalize c.nsym = n at *
  generalize nnodeMax c = m at *
  generalize c.seqN = q at *
  rw [Nat.mod_eq_of_lt (by omega)]
  simp only
  rw [if_neg (by omega), if_neg (by omega), if_neg (by omega), if_pos (by omega)]
  exact congrArg _ (by omega)

theorem locate_bitbufAddr (c : Config) {w : Nat} (h : w < c.bitN / 32) : locate c (bitbufAddr w) = .bitbufWord w := by
  have := config_bounds c
  have h2 : nnodeMax c = 2 * c.nsym - 1 := rfl
  unfold locate bitbufAddr
  rw [BitVec.toNat_ofNat]
  generalize c.nsym = n at *
  generalize nnodeMax c = m at *
  generalize c.seqN = q at *
  generalize c.bitN = b at *
  rw [Nat.mod_eq_of_lt (by omega)]
  simp only
  rw [if_neg (by omega), if_neg (by omega), if_neg (by omega), if_neg (by omega), if_neg (by omega), if_pos (by omega)]
  exact congrArg _ (by omega)

/-- Two addresses name one location only where nothing is mapped. -/
theorem registerAt_inj (a b : Nat) (ha : a < 16) (hb : b < 16) (h : registerAt a = registerAt b) : a = b ∨ registerAt a = .unmapped := by
  revert h; revert b; revert a; decide

theorem locate_inj {c : Config} {a b : HostAddr} (h : locate c a = locate c b) : a = b ∨ locate c a = .unmapped := by
  have h2 : nnodeMax c = 2 * c.nsym - 1 := rfl
  have hc := config_bounds c
  by_cases hab : a.toNat = b.toNat
  · left; exact BitVec.eq_of_toNat_eq hab
  right
  unfold locate at *
  simp only at *
  generalize c.nsym = n at *
  generalize nnodeMax c = m at *
  generalize c.seqN = q at *
  generalize c.bitN = bb at *
  have hr : ∀ x k, registerAt x ≠ .freqWord k ∧ registerAt x ≠ .nodeWord k ∧ registerAt x ≠ .codeWord k ∧ registerAt x ≠ .symbufWord k ∧ registerAt x ≠ .bitbufWord k := by
    intro x k; unfold registerAt; split <;> simp
  by_cases ha : a.toNat < 0x10
  · by_cases hb : b.toNat < 0x10
    · rw [if_pos ha, if_pos hb] at h
      rw [if_pos ha]
      rcases registerAt_inj _ _ ha hb h with h | h
      · omega
      · exact h
    · rw [if_pos ha, if_neg hb] at h
      rw [if_pos ha]
      split_ifs at h
      · exact absurd h (hr _ _).1
      · exact absurd h (hr _ _).2.1
      · exact absurd h (hr _ _).2.2.1
      · exact absurd h (hr _ _).2.2.2.1
      · exact absurd h (hr _ _).2.2.2.2
      · exact h
  · by_cases hb : b.toNat < 0x10
    · rw [if_neg ha, if_pos hb] at h
      rw [if_neg ha]
      split_ifs at h ⊢
      · exact absurd h.symm (hr _ _).1
      · exact absurd h.symm (hr _ _).2.1
      · exact absurd h.symm (hr _ _).2.2.1
      · exact absurd h.symm (hr _ _).2.2.2.1
      · exact absurd h.symm (hr _ _).2.2.2.2
      · rfl
    · rw [if_neg ha, if_neg hb] at h
      rw [if_neg ha]
      split_ifs at h ⊢ <;> first | rfl | (injection h; omega)

/-- What an idle HUFFCORE reads back where it was written, CMD apart. -/
theorem hostRead_hostWrite_idle {s : State} {a : HostAddr} {d : Word} {l : Location} (h : s.status.busy = false) (hl : locate s.cfg a = l) (hc : l ≠ .cmd) :
    hostRead (hostWrite a d s) a = wordAt (storeAt l d s) l := by
  have hf := (hostWrite_frame a d s).1
  rw [hostWrite_idle h, hl] at hf ⊢
  have hb : (storeAt l d s).status.busy = false := by
    cases l <;> simp_all [storeAt]
  rw [hostRead_idle hb, hf, hl]

end Sys2Proof.Machine
end

