-- ==== Sys2Proof/Laws/Loops.lean ====
section
/-! SUPPORT. Laws of the searches and loops of the five commands: what a search finds, which memories a loop leaves alone, how far
it writes, and that it keeps the canonical form. -/

namespace Sys2Proof.Machine

/-! ## A write keeps the epoch of its memory -/

@[simp] theorem setSymbol_epoch (c : Config) (i : Nat) (v : Word) (m : Memory) :
    (setSymbol c i v m).symbuf.epoch = m.symbuf.epoch := by simp [setSymbol]

@[simp] theorem setBits_epoch (start : Nat) (f : Nat → Bool) (n : Nat) (m : Memory) :
    (setBits start f n m).bitbuf.epoch = m.bitbuf.epoch := by
  induction n with
  | zero => rfl
  | succ n ih => simpa [setBits, setBit] using ih

@[simp] theorem setFreqSym_epoch (c : Config) (j : Nat) (v : Word) (m : Memory) :
    (setFreqSym c j v m).freq.epoch = m.freq.epoch := by simp [setFreqSym, setFreqWord]

@[simp] theorem setFreqCnt_epoch (c : Config) (j : Nat) (v : Word) (m : Memory) :
    (setFreqCnt c j v m).freq.epoch = m.freq.epoch := by simp [setFreqCnt, setFreqWord]

@[simp] theorem setNode_epoch (c : Config) (h : Nat) (nd : Node) (m : Memory) :
    (setNode c h nd m).node.epoch = m.node.epoch := by simp [setNode, setNodeWord]

@[simp] theorem setCode_epoch (c : Config) (j : Nat) (sym : Word) (len : Nat) (path : List Bool) (m : Memory) :
    (setCode c j sym len path m).code.epoch = m.code.epoch := by
  have bits : ∀ n m, (setCodeBits c j path n m).code.epoch = m.code.epoch := by
    intro n m
    induction n with
    | zero => rfl
    | succ n ih => simpa [setCodeBits, setCodeWord] using ih
  simp [setCode, bits, setCodeWord]

/-! ## The two searches -/

/-- A search over 0 .. n-1 finds `j` exactly where `j` is the least hit (R111, R157). -/
theorem find_range_eq_some {p : Nat → Bool} {n j : Nat} :
    (List.range n).find? p = some j ↔ j < n ∧ p j = true ∧ ∀ k < j, p k = false := by
  rw [List.find?_range_eq_some]
  simp only [List.mem_range, Bool.not_eq_true']
  tauto

/-- A search over 0 .. n-1 finds nothing exactly where there is no hit. -/
theorem find_range_eq_none {p : Nat → Bool} {n : Nat} : (List.range n).find? p = none ↔ ∀ j < n, p j = false := by
  rw [List.find?_range_eq_none]
  simp

theorem findSym_eq_some {c : Config} {m : Memory} {s : Word} {n j : Nat} :
    findSym c m s n = some j ↔ j < n ∧ freqSym c m j = s ∧ ∀ k < j, freqSym c m k ≠ s := by
  unfold findSym
  rw [find_range_eq_some]
  simp

theorem findSym_eq_none {c : Config} {m : Memory} {s : Word} {n : Nat} :
    findSym c m s n = none ↔ ∀ j < n, freqSym c m j ≠ s := by
  unfold findSym
  rw [find_range_eq_none]
  simp

theorem lookup_eq_some {c : Config} {m : Memory} {s : Word} {n j : Nat} :
    lookup c m s n = some j ↔ j < n ∧ isEntry c m s j = true ∧ ∀ k < j, isEntry c m s k = false := find_range_eq_some

theorem lookup_eq_none {c : Config} {m : Memory} {s : Word} {n : Nat} :
    lookup c m s n = none ↔ ∀ j < n, isEntry c m s j = false := find_range_eq_none

/-! ## COUNT -/

/-- COUNT's loop writes FREQ only, keeps the canonical form, and never passes NSYM entries. -/
theorem countLoop_keeps {c : Config} : ∀ {rem i n : Nat} {m : Memory} {n' : Nat} {m' : Memory}, Memory.wf c m → n ≤ c.nsym →
    countLoop c rem i n m = .ok (n', m') →
    Memory.wf c m' ∧ n ≤ n' ∧ n' ≤ c.nsym ∧ m'.symbuf = m.symbuf ∧ m'.bitbuf = m.bitbuf ∧ m'.node = m.node ∧
      m'.code = m.code ∧ m'.freq.epoch = m.freq.epoch := by
  intro rem
  induction rem with
  | zero =>
    intro i n m n' m' hm hn h
    simp only [countLoop, Except.ok.injEq, Prod.mk.injEq] at h
    obtain ⟨rfl, rfl⟩ := h
    exact ⟨hm, le_refl _, hn, rfl, rfl, rfl, rfl, rfl⟩
  | succ rem ih =>
    intro i n m n' m' hm hn h
    simp only [countLoop] at h
    split at h
    · split at h
      · cases h
      · have hlt : n < c.nsym := by omega
        have := ih (memory_wf_setFreqCnt (memory_wf_setFreqSym hm hlt _) hlt _) hlt h
        refine ⟨this.1, by omega, this.2.2.1, by simpa using this.2.2.2⟩
    · rename_i j hj
      have hjn := (findSym_eq_some.mp hj).1
      have := ih (memory_wf_setFreqCnt hm (by omega) _) hn h
      refine ⟨this.1, this.2.1, this.2.2.1, by simpa using this.2.2.2⟩

/-! ## ENCODE -/

/-- ENCODE's loop writes BITBUF only, keeps the canonical form, and never passes BIT_N bits. -/
theorem encodeLoop_keeps {c : Config} {ncode : Nat} : ∀ {rem i out : Nat} {m : Memory} {out' : Nat} {m' : Memory},
    Memory.wf c m → out ≤ c.bitN → encodeLoop c ncode rem i out m = .ok (out', m') →
    Memory.wf c m' ∧ out ≤ out' ∧ out' ≤ c.bitN ∧ m'.symbuf = m.symbuf ∧ m'.freq = m.freq ∧ m'.node = m.node ∧
      m'.code = m.code ∧ m'.bitbuf.epoch = m.bitbuf.epoch := by
  intro rem
  induction rem with
  | zero =>
    intro i out m out' m' hm ho h
    simp only [encodeLoop, Except.ok.injEq, Prod.mk.injEq] at h
    obtain ⟨rfl, rfl⟩ := h
    exact ⟨hm, le_refl _, ho, rfl, rfl, rfl, rfl, rfl⟩
  | succ rem ih =>
    intro i out m out' m' hm ho h
    simp only [encodeLoop] at h
    split at h
    · cases h
    · split at h
      · cases h
      · have := ih (memory_wf_setBits hm _ (by omega)) (by omega) h
        refine ⟨this.1, by omega, this.2.2.1, by simpa using this.2.2.2⟩

/-! ## DECODE -/

/-- One emitted symbol: SYMBUF[out], inside the capacity. -/
theorem emit_ok {c : Config} {s : Word} {i out out' : Nat} {m m' : Memory} (h : emit c s i out m = .ok (out', m')) :
    out ≠ c.seqN ∧ out' = out + 1 ∧ m' = setSymbol c out s m := by
  unfold emit at h
  split at h
  · cases h
  · cases h
    exact ⟨‹_›, rfl, rfl⟩

/-- One bit of DECODE: at most one symbol is emitted, and nothing else is written. -/
theorem decodeBit_ok {c : Config} {nnodes : Nat} {root : Handle} {i : Nat} {cur cur' : Handle} {out out' : Nat} {m m' : Memory}
    (h : decodeBit c nnodes root i cur out m = .ok (cur', out', m')) :
    (out' = out ∧ m' = m) ∨ ∃ s, out ≠ c.seqN ∧ out' = out + 1 ∧ m' = setSymbol c out s m := by
  unfold decodeBit at h
  simp only at h
  split at h
  · split at h
    · cases h
    · rename_i hl
      cases h
      unfold decodeAtLeaf at hl
      split at hl
      · cases hl
      · split at hl
        · cases hl
        · exact .inr ⟨_, emit_ok hl⟩
  · unfold decodeAtInternal at h
    split at h
    · cases h
    · simp only at h
      generalize (if bit m i = true then (node c m cur.toNat).right else (node c m cur.toNat).left) = next at h
      split at h
      · cases h
      · split at h
        · split at h
          · cases h
          · split at h
            · cases h
            · rename_i he
              cases h
              exact .inr ⟨_, emit_ok he⟩
        · cases h
          exact .inl ⟨rfl, rfl⟩

/-- DECODE's loop writes SYMBUF only, keeps the canonical form, and never passes SEQ_N symbols. -/
theorem decodeLoop_keeps {c : Config} {nnodes : Nat} {root : Handle} :
    ∀ {rem i : Nat} {cur : Handle} {out : Nat} {m : Memory} {cur' : Handle} {out' : Nat} {m' : Memory},
    Memory.wf c m → out ≤ c.seqN → decodeLoop c nnodes root rem i cur out m = .ok (cur', out', m') →
    Memory.wf c m' ∧ out ≤ out' ∧ out' ≤ c.seqN ∧ m'.bitbuf = m.bitbuf ∧ m'.freq = m.freq ∧ m'.node = m.node ∧
      m'.code = m.code ∧ m'.symbuf.epoch = m.symbuf.epoch := by
  intro rem
  induction rem with
  | zero =>
    intro i cur out m cur' out' m' hm ho h
    simp only [decodeLoop, Except.ok.injEq, Prod.mk.injEq] at h
    obtain ⟨rfl, rfl, rfl⟩ := h
    exact ⟨hm, le_refl _, ho, rfl, rfl, rfl, rfl, rfl⟩
  | succ rem ih =>
    intro i cur out m cur' out' m' hm ho h
    simp only [decodeLoop] at h
    split at h
    · cases h
    · rename_i cur1 out1 m1 hb
      rcases decodeBit_ok hb with ⟨rfl, rfl⟩ | ⟨s, hne, rfl, rfl⟩
      · exact ih hm ho h
      · have := ih (memory_wf_setSymbol hm (by omega) s) (by omega) h
        refine ⟨this.1, by omega, this.2.2.1, by simpa using this.2.2.2⟩

/-! ## GENCODES -/

/-- A visit that answers a leaf left room for its entry. -/
theorem visit_leaf {c : Config} {nnodes : Nat} {m : Memory} {h : Handle} {d n : Nat} {sym : Word}
    (hv : visit c nnodes m h d n = .ok (.leaf sym)) :
    h.toNat < nnodes ∧ (node c m h.toNat).kind = .leaf ∧ (node c m h.toNat).left = nilHandle ∧
    (node c m h.toNat).right = nilHandle ∧ n ≠ c.nsym ∧ sym = (node c m h.toNat).sym := by
  unfold visit at hv
  simp only at hv
  split at hv
  · cases hv
  · split at hv
    · split at hv
      · cases hv
      · split at hv
        · cases hv
        · cases hv
          simp_all
    · split at hv
      · cases hv
      · split at hv
        · cases hv
        · cases hv

/-- The walk writes CODE only, keeps the canonical form, and never passes NSYM entries. -/
theorem walk_keeps {c : Config} {nnodes : Nat} : ∀ {room : Nat} {path : List Bool} {h : Handle} {n : Nat} {m : Memory}
    {n' : Nat} {m' : Memory}, Memory.wf c m → n ≤ c.nsym → walk c nnodes room path h n m = .ok (n', m') →
    Memory.wf c m' ∧ n ≤ n' ∧ n' ≤ c.nsym ∧ m'.symbuf = m.symbuf ∧ m'.bitbuf = m.bitbuf ∧ m'.freq = m.freq ∧
      m'.node = m.node ∧ m'.code.epoch = m.code.epoch := by
  have leafCase : ∀ {d n : Nat} {h : Handle} {m : Memory} {sym : Word} (path : List Bool), Memory.wf c m → n ≤ c.nsym →
      visit c nnodes m h d n = .ok (.leaf sym) → Memory.wf c (setCode c n sym d path m) ∧ n + 1 ≤ c.nsym := by
    intro d n h m sym path hm hn hv
    have hne := (visit_leaf hv).2.2.2.2.1
    have hlt : n < c.nsym := by omega
    exact ⟨memory_wf_setCode hm hlt _ _ _, hlt⟩
  intro room
  induction room with
  | zero =>
    intro path h n m n' m' hm hn hw
    simp only [walk] at hw
    split at hw
    · cases hw
    · rename_i sym hv
      cases hw
      have := leafCase path hm hn hv
      exact ⟨this.1, by omega, this.2, by simp⟩
    · cases hw
  | succ room ih =>
    intro path h n m n' m' hm hn hw
    simp only [walk] at hw
    split at hw
    · cases hw
    · rename_i sym hv
      cases hw
      have := leafCase path hm hn hv
      exact ⟨this.1, by omega, this.2, by simp⟩
    · split at hw
      · cases hw
      · rename_i n1 m1 h1
        obtain ⟨a1, a2, a3, a4⟩ := ih hm hn h1
        obtain ⟨b1, b2, b3, b4⟩ := ih a1 a3 hw
        refine ⟨b1, by omega, b3, ?_⟩
        obtain ⟨x1, x2, x3, x4, x5⟩ := a4
        obtain ⟨y1, y2, y3, y4, y5⟩ := b4
        exact ⟨y1.trans x1, y2.trans x2, y3.trans x3, y4.trans x4, y5.trans x5⟩

/-! ## BUILD: lengths and stores -/

@[simp] theorem heapSwap_length (q : List Handle) (p r : Nat) : (heapSwap q p r).length = q.length := by simp [heapSwap]

@[simp] theorem siftUp_length (c : Config) (m : Memory) (bound p : Nat) (q : List Handle) :
    (siftUp c m bound p q).length = q.length := by
  induction bound generalizing p q with
  | zero => rfl
  | succ bound ih =>
    simp only [siftUp]
    split
    · split
      · rw [ih, heapSwap_length]
      · rfl
    · rfl

@[simp] theorem siftDown_length (c : Config) (m : Memory) (bound p : Nat) (q : List Handle) :
    (siftDown c m bound p q).length = q.length := by
  induction bound generalizing p q with
  | zero => rfl
  | succ bound ih =>
    simp only [siftDown]
    split
    · rfl
    · rw [ih, heapSwap_length]

@[simp] theorem heapInsert_length (c : Config) (m : Memory) (h : Handle) (q : List Handle) :
    (heapInsert c m h q).length = q.length + 1 := by simp [heapInsert]

@[simp] theorem heapExtractMin_length (c : Config) (m : Memory) (q : List Handle) :
    (heapExtractMin c m q).2.length = q.length - 1 := by
  unfold heapExtractMin
  simp only
  split <;> simp

/-- A node write leaves the four other memories and the epoch of NODE alone. -/
theorem setNode_others (c : Config) (h : Nat) (nd : Node) (m : Memory) :
    (setNode c h nd m).symbuf = m.symbuf ∧ (setNode c h nd m).bitbuf = m.bitbuf ∧ (setNode c h nd m).freq = m.freq ∧
    (setNode c h nd m).code = m.code ∧ (setNode c h nd m).node.epoch = m.node.epoch :=
  ⟨setNode_symbuf _ _ _ _, setNode_bitbuf _ _ _ _, setNode_freq _ _ _ _, setNode_code _ _ _ _, setNode_epoch _ _ _ _⟩

/-- The leaves: NODE only, canonical, one heap entry each. -/
theorem leafLoop_keeps {c : Config} : ∀ {rem j : Nat} {m : Memory} {q : List Handle}, Memory.wf c m →
    rem + j ≤ c.nsym →
    Memory.wf c (leafLoop c rem j m q).1 ∧ (leafLoop c rem j m q).2.length = q.length + rem ∧
    (leafLoop c rem j m q).1.symbuf = m.symbuf ∧ (leafLoop c rem j m q).1.bitbuf = m.bitbuf ∧
    (leafLoop c rem j m q).1.freq = m.freq ∧ (leafLoop c rem j m q).1.code = m.code ∧
    (leafLoop c rem j m q).1.node.epoch = m.node.epoch := by
  intro rem
  induction rem with
  | zero =>
    intro j m q hm _
    exact ⟨hm, rfl, rfl, rfl, rfl, rfl, rfl⟩
  | succ rem ih =>
    intro j m q hm hj
    rw [leafLoop]
    have hlt : j < nnodeMax c := by unfold nnodeMax; omega
    have hw := memory_wf_setNode hm hlt (leafOf c m j)
    obtain ⟨e1, e2, e3, e4, e5⟩ := setNode_others c j (leafOf c m j) m
    generalize setNode c j (leafOf c m j) m = m1 at *
    obtain ⟨a1, a2, a3, a4, a5, a6, a7⟩ := ih (j := j + 1) (q := heapInsert c m1 (BitVec.ofNat 9 j) q) hw (by omega)
    rw [heapInsert_length] at a2
    exact ⟨a1, by rw [a2]; omega, a3.trans e1, a4.trans e2, a5.trans e3, a6.trans e4, a7.trans e5⟩

/-- One merge (R124). -/
theorem mergeLoop_merge {c : Config} {bound k : Nat} {m : Memory} {q : List Handle} (h : 1 < q.length) :
    mergeLoop c (bound + 1) k m q =
      (let x := heapExtractMin c m q
       let y := heapExtractMin c m x.2
       let m' := setNode c k (mergeOf c m x.1 y.1) m
       mergeLoop c bound (k + 1) m' (heapInsert c m' (BitVec.ofNat 9 k) y.2)) := by
  rw [mergeLoop, if_pos h]

/-- The merges: NODE only, canonical, one node and one heap entry less a merge. -/
theorem mergeLoop_keeps {c : Config} : ∀ {bound k : Nat} {m : Memory} {q : List Handle}, Memory.wf c m →
    q.length ≤ bound + 1 → 1 ≤ q.length → k + q.length - 1 ≤ nnodeMax c →
    (mergeLoop c bound k m q).1 = k + q.length - 1 ∧ Memory.wf c (mergeLoop c bound k m q).2.1 ∧
    (mergeLoop c bound k m q).2.2.length = 1 ∧
    (mergeLoop c bound k m q).2.1.symbuf = m.symbuf ∧ (mergeLoop c bound k m q).2.1.bitbuf = m.bitbuf ∧
    (mergeLoop c bound k m q).2.1.freq = m.freq ∧ (mergeLoop c bound k m q).2.1.code = m.code ∧
    (mergeLoop c bound k m q).2.1.node.epoch = m.node.epoch := by
  intro bound
  induction bound with
  | zero =>
    intro k m q hm h1 h2 _
    have : q.length = 1 := by omega
    rw [mergeLoop]
    exact ⟨by omega, hm, this, rfl, rfl, rfl, rfl, rfl⟩
  | succ bound ih =>
    intro k m q hm h1 h2 h3
    by_cases hq : 1 < q.length
    · rw [mergeLoop_merge hq]
      have e1 := heapExtractMin_length c m q
      have e2 := heapExtractMin_length c m (heapExtractMin c m q).2
      have hk : k < nnodeMax c := by omega
      generalize heapExtractMin c m q = x1 at *
      simp only
      generalize heapExtractMin c m x1.2 = x2 at *
      have hw := memory_wf_setNode hm hk (mergeOf c m x1.1 x2.1)
      obtain ⟨s1, s2, s3, s4, s5⟩ := setNode_others c k (mergeOf c m x1.1 x2.1) m
      generalize setNode c k (mergeOf c m x1.1 x2.1) m = m1 at *
      have e3 := heapInsert_length c m1 (BitVec.ofNat 9 k) x2.2
      generalize heapInsert c m1 (BitVec.ofNat 9 k) x2.2 = q1 at *
      obtain ⟨a1, a2, a3, a4, a5, a6, a7, a8⟩ := ih (k := k + 1) (q := q1) hw (by omega) (by omega) (by omega)
      exact ⟨by rw [a1]; omega, a2, a3, a4.trans s1, a5.trans s2, a6.trans s3, a7.trans s4, a8.trans s5⟩
    · rw [mergeLoop, if_neg hq]
      have : q.length = 1 := by omega
      exact ⟨by simp only; omega, hm, this, rfl, rfl, rfl, rfl, rfl⟩

end Sys2Proof.Machine
end

