-- ==== Sys2Proof/Laws/PerInstr.lean ====
section
/-! SUPPORT. Families of statements about every instruction as syntax, one lemma per constructor. -/

namespace Sys2Proof.Laws.LegalWord

/-- The command is well formed and its word passes the checks of R91 and R97. -/
def Statement (i : Instr) : Prop := i.wf = true ∧ legalWord (encode i) = true

theorem count : Statement .count := ⟨by decide, by decide⟩
theorem build : Statement .build := ⟨by decide, by decide⟩
theorem gencodes : Statement .gencodes := ⟨by decide, by decide⟩
theorem encode : Statement .encode := ⟨by decide, by decide⟩
theorem decode : Statement .decode := ⟨by decide, by decide⟩

end Sys2Proof.Laws.LegalWord
end

