-- ==== Sys2Proof/Laws/Step.lean ====
section
/-! SUPPORT. Everything a step can do, said once. -/

namespace Sys2Proof.Machine

theorem step_no_input {s : State} (h : s.inputs = []) : step s = engineMove s := by
  simp [step, nextMove, h]

theorem step_input {s : State} {e : Input} {rest : List Input} (h : s.inputs = e :: rest) :
    step s = performInput e { s with inputs := rest } := by
  simp [step, nextMove, h]

theorem engineMove_idle {s : State} (h : s.status.busy = false) : engineMove s = .next s := by
  simp [engineMove, h]

theorem engineMove_busy {s : State} (h : s.status.busy = true) : engineMove s = runCommand s := by
  simp [engineMove, h]

/-- A move of the engine: idle, nothing; running a command, its meaning; running another word, IllegalCommand. -/
theorem engineMove_cases {s t : State} (h : engineMove s = .next t) :
    (s.status.busy = false ∧ t = s) ∨
    (s.status.busy = true ∧ ∃ i, decode s.cmdw = .ok i ∧ exec i s = .next t) ∨
    (s.status.busy = true ∧ (∃ e, decode s.cmdw = .error e) ∧ t = rejectCommand s) := by
  unfold engineMove at h
  split at h
  · rename_i hb
    unfold runCommand at h
    split at h
    · rename_i i hi
      exact .inr (.inl ⟨hb, i, hi, h⟩)
    · rename_i e he
      cases h
      exact .inr (.inr ⟨hb, ⟨e, he⟩, rfl⟩)
  · rename_i hb
    cases h
    exact .inl ⟨by simpa using hb, rfl⟩

/-- A step: a move of the engine, a read, a write, or a reset; `s'` is `s` without the input performed. -/
theorem step_cases {s t : State} (h : step s = .next t) :
    ∃ s', (s' = s ∨ ∃ e, s.inputs = e :: s'.inputs ∧ s' = { s with inputs := s'.inputs }) ∧
      (engineMove s' = .next t ∨ (∃ a, t = performRead a s') ∨ (∃ a d, t = hostWrite a d s') ∨ t = pinReset s') := by
  unfold step nextMove at h
  split at h
  · exact ⟨s, .inl rfl, .inl h⟩
  · rename_i e rest hin
    refine ⟨{ s with inputs := rest }, .inr ⟨e, hin, rfl⟩, ?_⟩
    cases e with
    | hostRead a => cases h; exact .inr (.inl ⟨a, rfl⟩)
    | hostWrite a d => cases h; exact .inr (.inr (.inl ⟨a, d, rfl⟩))
    | tick => exact .inl h
    | rst => cases h; exact .inr (.inr (.inr rfl))

end Sys2Proof.Machine
end

