-- ==== Sys2Proof/Tests/Slice0.lean ====
section
/-! SUPPORT. The model's own tests. Expected results are the vectors of spec/95_test_vectors.md (V-…) or hand calculation from the
rule named. No test reads an element that nothing has written. -/

namespace Sys2Proof.Tests

open Sys2Proof.Machine Sys2Proof.Safety

/-! ## Helpers: small states -/

/-- A small legal setting: NSYM = 4, MAXLEN = 3, NNODE_MAX = 7, SEQ_N = 4, BIT_N = 32. -/
def tiny : Config := ⟨{ symW := 8, nsym := 4, cntW := 3, seqN := 4, bitN := 32 }, by decide⟩
/-- The setting of V-C9: NSYM = 2. -/
def narrow : Config := ⟨{ symW := 8, nsym := 2, cntW := 8, seqN := 8, bitN := 32 }, by decide⟩
/-- NSYM = 2^SYM_W. -/
def full : Config := ⟨{ symW := 1, nsym := 2, cntW := 8, seqN := 8, bitN := 32 }, by decide⟩

/-- SYMBUF and SLEN hold these symbols. -/
def withSyms (codes : List Word) (s : State) : State :=
  { s with mem := codes.zipIdx.foldl (fun m p => setSymbol s.cfg p.2 p.1 m) s.mem, slen := BitVec.ofNat 32 codes.length }
/-- FREQ and NFREQ hold this table. -/
def withFreq (table : List (Word × Word)) (s : State) : State :=
  { s with mem := table.zipIdx.foldl (fun m p => setFreqCnt s.cfg p.2 p.1.2 (setFreqSym s.cfg p.2 p.1.1 m)) s.mem
           nfreq := BitVec.ofNat 32 table.length }
/-- NODE and NNODES hold these nodes, ROOT names the last. -/
def withNodes (nodes : List Node) (s : State) : State :=
  { s with mem := nodes.zipIdx.foldl (fun m p => setNode s.cfg p.2 p.1 m) s.mem, nnodes := BitVec.ofNat 32 nodes.length
           root := BitVec.ofNat 9 (nodes.length - 1) }
/-- CODE and NCODE hold this table. -/
def withCodes (table : List (Word × List Bool)) (s : State) : State :=
  { s with mem := table.zipIdx.foldl (fun m p => setCode s.cfg p.2 p.1.1 p.1.2.length p.1.2 m) s.mem
           ncode := BitVec.ofNat 32 table.length }
/-- BITBUF and BLEN hold these bits. -/
def withBits (bs : List Bool) (s : State) : State :=
  { s with mem := bs.zipIdx.foldl (fun m p => setBit p.2 p.1 m) s.mem, blen := BitVec.ofNat 32 bs.length }
/-- The reset state of another setting. -/
def resetOf (c : Config) : State := { State.reset with cfg := c }
/-- A state in which a command runs. -/
def running (s : State) : State := accept 0x00000001#32 s

/-- The next state of a command. -/
def after (i : Instr) (s : State) : State :=
  match exec i s with
  | .next t => t
  | .fault _ => s
  | .refused _ => s
/-- What a read returns after a write at the same address of an idle state. -/
def rewritten (a : HostAddr) (d : Word) : Word := hostRead (hostWrite a d State.reset) a
/-- The nodes NODE[0 .. n-1] of a state, without `freq` in the type of the source: kind, sym, freq, left, right. -/
def nodesOf (s : State) : List Node := (List.range s.nnodes.toNat).map (node s.cfg s.mem)
/-- A bit string in the notation of R10. -/
def bitString (s : String) : List Bool := s.toList.map (fun ch => ch == '1')
/-- A LEAF. -/
def leafNode (sym : Word) (freq : Freq) : Node := { kind := .leaf, sym := sym, freq := freq, left := nilHandle, right := nilHandle }
/-- An INTERNAL node. -/
def internalNode (freq : Freq) (left right : Handle) : Node :=
  { kind := .internal, sym := 0, freq := freq, left := left, right := right }

/-! ## Well-formedness: each check refuses an ill-formed term -/

theorem test_wf_reserved_bit_refused : reservedBitsClear 0x00000010#32 = false ∧ reservedBitsClear 0x80000001#32 = false := by decide
theorem test_wf_opcode_refused : opcodeInUse 0x00000000#32 = false ∧ opcodeInUse 0x00000006#32 = false := by decide
theorem test_wf_word_refused : legalWord 0x00000013#32 = false ∧ legalWord 0x0000000F#32 = false := by decide
theorem test_wf_words_accepted : ([0x1#32, 0x2#32, 0x3#32, 0x4#32, 0x5#32].map legalWord) = [true, true, true, true, true] := by decide
theorem test_params_symw_refused :
    Config.make? { symW := 0, nsym := 1, cntW := 3, seqN := 4, bitN := 32 } = none ∧
    Config.make? { symW := 33, nsym := 4, cntW := 3, seqN := 4, bitN := 32 } = none := by decide
theorem test_params_nsym_refused :
    Config.make? { symW := 8, nsym := 0, cntW := 3, seqN := 4, bitN := 32 } = none ∧
    Config.make? { symW := 16, nsym := 257, cntW := 3, seqN := 4, bitN := 32 } = none ∧
    Config.make? { symW := 1, nsym := 3, cntW := 3, seqN := 4, bitN := 32 } = none := by decide
theorem test_params_cntw_refused :
    Config.make? { symW := 8, nsym := 4, cntW := 0, seqN := 1, bitN := 32 } = none ∧
    Config.make? { symW := 8, nsym := 4, cntW := 33, seqN := 4, bitN := 32 } = none := by decide
theorem test_params_seqn_refused :
    Config.make? { symW := 8, nsym := 4, cntW := 3, seqN := 0, bitN := 32 } = none ∧
    Config.make? { symW := 8, nsym := 4, cntW := 32, seqN := 65537, bitN := 32 } = none ∧
    Config.make? { symW := 8, nsym := 4, cntW := 3, seqN := 8, bitN := 32 } = none := by decide
theorem test_params_bitn_refused :
    Config.make? { symW := 8, nsym := 4, cntW := 3, seqN := 4, bitN := 0 } = none ∧
    Config.make? { symW := 8, nsym := 4, cntW := 3, seqN := 4, bitN := 33 } = none ∧
    Config.make? { symW := 8, nsym := 4, cntW := 3, seqN := 4, bitN := 1048608 } = none := by decide
theorem test_params_accepted : (Config.make? { symW := 8, nsym := 4, cntW := 3, seqN := 7, bitN := 32 }).isSome = true := by decide

/-! ## Decoding: words written out from R91 and R92 -/

theorem test_decode_count : decodeTableWord 32 0b00000000000000000000000000000001 = some .count := by decide
theorem test_decode_build : decodeTableWord 32 0b00000000000000000000000000000010 = some .build := by decide
theorem test_decode_gencodes : decodeTableWord 32 0b00000000000000000000000000000011 = some .gencodes := by decide
theorem test_decode_encode : decodeTableWord 32 0b00000000000000000000000000000100 = some .encode := by decide
theorem test_decode_decode : decodeTableWord 32 0b00000000000000000000000000000101 = some .decode := by decide
/-- V-X1 to V-X7: words that are no command. -/
theorem test_decode_illegal :
    ([0x00000000, 0x00000006, 0x0000000F, 0x00000010, 0x00000013, 0x80000001, 0xFFFFFFFF].map (decodeTableWord 32)) =
      [none, none, none, none, none, none, none] := by decide
/-- V-G14: a placed word 3 runs GENCODES as the first command after reset. -/
theorem test_placed_word_runs :
    (match step (State.reset.withFetchWord 32 0x00000003) with
      | .next t => statusWord t.status
      | _ => 0#32) = 0x00000322#32 := by decide

/-! ## Host port: V-M and V-R -/

/-- V-M1 to V-M6. -/
theorem test_port_registers :
    rewritten 0x09 0xFFFFFFFF#32 = 0x000001FF#32 ∧ rewritten (nodeAddr 0 4) 0xFFFFFE03#32 = 0x00000003#32 ∧
    rewritten (symbufAddr 0) 0x12345678#32 = 0x00000078#32 ∧ rewritten 0x00 0xFFFFFFFF#32 = 0x00000001#32 ∧
    hostRead State.reset 0x01 = 0x00000000#32 ∧ rewritten 0x0B 0xFFFFFFFF#32 = 0x00000000#32 := by decide
/-- V-M7: a reserved word of a NODE element. -/
theorem test_port_reserved_word : rewritten 0x01006 0xFFFFFFFF#32 = 0#32 := by decide
/-- V-M8 to V-M11. -/
theorem test_port_fields :
    rewritten 0x30000 0xFFFFFFFF#32 = 0#32 ∧
    rewritten (nodeAddr 0 0) 0xFFFFFFFE#32 = 0#32 ∧ rewritten (codeAddr 0 1) 0x00000123#32 = 0x00000023#32 ∧
    rewritten 0x02009 0xFFFFFFFF#32 = 0x7FFFFFFF#32 := by decide
/-- V-M13 to V-M15. -/
theorem test_port_addresses :
    symbufAddr 3 = 0x10003 ∧ nodeAddr 5 4 = 0x0102C ∧ codeAddr 4 1 = 0x02041 ∧ freqAddr 4 1 = 0x00209 ∧
    bitbufAddr (45 / 32) = 0x20001 ∧ 45 % 32 = 13 ∧ rewritten 0x01003 0xFFFFFFFF#32 = 0x000000FF#32 ∧
    rewritten 0x003FF 0xFFFFFFFF#32 = 0xFFFFFFFF#32 := by decide
/-- V-R1. -/
theorem test_port_reset_registers :
    ((List.range 16).map (fun n => (hostRead State.reset (BitVec.ofNat 18 n)).toNat)) =
      [0, 0, 0, 0, 0, 0, 0, 0, 0, 0x1FF, 0, 0, 0, 0, 0, 0] := by decide
/-- V-X12: while COUNT runs. -/
theorem test_port_busy :
    hostRead (running State.reset) 0x02 = 0x00000101#32 ∧ hostRead (running { State.reset with slen := 9 }) 0x05 = 0#32 ∧
    (hostWrite 0x05 7#32 (running State.reset)).slen = 0#32 ∧ (hostWrite 0x01 2#32 (running State.reset)).cmdw = 1#32 ∧
    (hostWrite 0x00 1#32 (running State.reset)).ie = true := by decide
/-- V-X10. -/
theorem test_port_acknowledge :
    statusWord (acknowledgedStatus { busy := false, done := true, err := .success, op := 5 } 0x00000002#32) = 0x00000500#32 ∧
    statusWord (acknowledgedStatus { busy := false, done := true, err := .success, op := 5 } 0xFFFFFFFD#32) = 0x00000502#32 := by decide

/-! ## One step of each command -/

/-- "ABRACADABRA". -/
def abracadabra : List Word := [0x41, 0x42, 0x52, 0x41, 0x43, 0x41, 0x44, 0x41, 0x42, 0x52, 0x41]
/-- The tree of V-B8. -/
def abraNodes : List Node :=
  [leafNode 0x41 5, leafNode 0x42 2, leafNode 0x52 2, leafNode 0x43 1, leafNode 0x44 1,
   internalNode 2 3 4, internalNode 4 1 2, internalNode 6 5 6, internalNode 11 0 7]
/-- The code table of V-G7. -/
def abraCodes : List (Word × List Bool) :=
  [(0x41, bitString "0"), (0x43, bitString "100"), (0x44, bitString "101"), (0x42, bitString "110"), (0x52, bitString "111")]

/-- V-C4. -/
theorem test_count_table :
    frequencyTable (after .count (withSyms abracadabra State.reset)) = [(0x41, 5), (0x42, 2), (0x52, 2), (0x43, 1), (0x44, 1)] := by decide
/-- V-C9. -/
theorem test_count_capacity :
    let t := after .count (withSyms [0x41, 0x42, 0x43] (resetOf narrow))
    t.status.err = .capacity ∧ t.errinfo = 0x43#32 ∧ t.errpos = 2#32 ∧ t.nfreq = 0#32 := by decide
/-- V-B8. -/
theorem test_build_tree :
    let t := after .build (withFreq [(0x41, 5), (0x42, 2), (0x52, 2), (0x43, 1), (0x44, 1)] State.reset)
    nodesOf t = abraNodes ∧ t.root = 8 := by decide
/-- V-B14: no wrap-around. -/
theorem test_build_wide_sum :
    let t := after .build (withFreq [(0x41, 0xFFFFFFFF), (0x42, 0xFFFFFFFF)] State.reset)
    hostRead t (nodeAddr 2 2) = 0xFFFFFFFE#32 ∧ hostRead t (nodeAddr 2 3) = 0x00000001#32 := by decide
/-- V-B1, steps 5 and 6: the heap after the insert of E, and after the first extraction. -/
theorem test_build_heap :
    let m := (withNodes [leafNode 0x42 5, leafNode 0x43 6, leafNode 0x41 3, leafNode 0x44 4, leafNode 0x45 2] State.reset).mem
    heapInsert Config.reference m 4 [2, 3, 0, 1] = [4, 2, 0, 1, 3] ∧
    heapExtractMin Config.reference m [4, 2, 0, 1, 3] = (4, [2, 3, 0, 1]) := by decide
/-- V-G7. -/
theorem test_gencodes_table : codeTable (after .gencodes (withNodes abraNodes State.reset)) = abraCodes := by decide
/-- V-G16: node 6 without its right child. -/
theorem test_gencodes_defect :
    let t := after .gencodes (withNodes (abraNodes.set 6 (internalNode 4 1 nilHandle)) State.reset)
    t.status.err = .invalidTree ∧ t.errinfo = 6#32 ∧ t.errpos = 2#32 ∧ t.ncode = 0#32 := by decide
/-- V-E8. -/
theorem test_encode_bits :
    bits (after .encode (withCodes abraCodes (withSyms abracadabra State.reset))) = bitString "01101110100010101101110" := by decide
/-- V-E15: an element with len = 0 is no entry. -/
theorem test_encode_unknown :
    let t := after .encode (withCodes [(0x58, []), (0x59, bitString "01"), (0x5A, bitString "1")]
      (withSyms [0x5A, 0x5A, 0x58, 0x59, 0x5A] State.reset))
    t.status.err = .unknownSymbol ∧ t.errinfo = 0x58#32 ∧ t.errpos = 2#32 ∧ t.blen = 0#32 := by decide
/-- V-D9. -/
theorem test_decode_symbols :
    symbols (after .decode (withBits (bitString "01101110100010101101110") (withNodes abraNodes State.reset))) = abracadabra := by decide
/-- V-D9, 21 bits: the stream ends inside a code. -/
theorem test_decode_truncated :
    let t := after .decode (withBits (bitString "011011101000101011011") (withNodes abraNodes State.reset))
    t.status.err = .incompleteCode ∧ t.errinfo = 6#32 ∧ t.errpos = 21#32 ∧ t.slen = 0#32 := by decide
/-- V-X5 and V-X9. -/
theorem test_illegal_and_acceptance :
    statusWord (rejectCommand (accept 0x00000013#32 State.reset)).status = 0x00000372#32 ∧
    statusWord (accept 0x00000001#32 (after .build (accept 0x00000002#32 State.reset))).status = 0x00000101#32 ∧
    statusWord (after .build (accept 0x00000002#32 State.reset)).status = 0x00000212#32 := by decide

/-! ## Witnesses: for each statement with hypotheses, states and operands that meet them, for each clause at its boundary -/

/-- The nodes of V-B6. -/
def abcNodes : List Node := [leafNode 0x41 1, leafNode 0x42 1, leafNode 0x43 1, internalNode 2 0 1, internalNode 3 2 3]
/-- The tree of V-B6 over its symbols. -/
def abcTree : HTree := .internal (.leaf 0x43) (.internal (.leaf 0x41) (.leaf 0x42))
/-- The code table of V-G5. -/
def abcCodes : List (Word × List Bool) := [(0x43, [false]), (0x41, [true, false]), (0x42, [true, true])]
/-- NODE holds the tree of V-B6. -/
def abcState : State := withNodes abcNodes (resetOf tiny)
/-- NODE holds the single leaf of V-B2. -/
def leafState : State := withNodes [leafNode 0x41 4] (resetOf tiny)
/-- NODE holds the tree of V-B3. -/
def abState : State := withNodes [leafNode 0x41 1, leafNode 0x42 1, internalNode 2 0 1] (resetOf tiny)
/-- "ABC" counted. -/
def abcCounted : State := withFreq [(0x41, 1), (0x42, 1), (0x43, 1)] (resetOf tiny)
/-- "ABC" with its code table. -/
def abcToEncode : State := withCodes abcCodes (withSyms [0x41, 0x42, 0x43] (resetOf tiny))
/-- `s` with one input pending and more to come. -/
def pending (e : Input) (s : State) : State := { s with inputs := [e, .tick] }

theorem witness_StepRunsTheDecodedCommand :
    (running State.reset).status.busy = true ∧ decode (running State.reset).cmdw = .ok .count ∧
    (running State.reset).inputs = [] ∧ (pending .tick (running State.reset)).inputs = .tick :: [.tick] := ⟨rfl, rfl, rfl, rfl⟩
theorem witness_WriteToCmdIsTheAcceptance :
    let s := pending (.hostWrite 0x01 0x80000001#32) State.reset
    let s' := pending (.hostWrite 0x01 0x00000002#32) (running State.reset)
    (s.inputs = .hostWrite 0x01 0x80000001#32 :: [.tick] ∧ s.status.busy = false) ∧
    (s'.inputs = .hostWrite 0x01 0x00000002#32 :: [.tick] ∧ s'.status.busy = true) := by decide
theorem witness_BusyHidesAllButCtrlAndStatus :
    (running State.reset).status.busy = true ∧
    (pending (.hostRead 0x00) (running State.reset)).inputs = .hostRead 0x00 :: [.tick] ∧
    (pending (.hostRead 0x02) (running State.reset)).inputs = .hostRead 0x02 :: [.tick] ∧
    (pending (.hostRead 0x3FFFF) (running State.reset)).inputs = .hostRead 0x3FFFF :: [.tick] ∧
    (pending (.hostWrite 0x00 1#32) (running State.reset)).inputs = .hostWrite 0x00 1#32 :: [.tick] ∧
    (pending (.hostWrite 0x02 2#32) (running State.reset)).inputs = .hostWrite 0x02 2#32 :: [.tick] := by decide
theorem witness_UnmappedReadsZeroAndIgnoresWrites :
    ∀ a ∈ [0x0B, 0x1FF, 0x400, 0xFFF, 0x1FF8, 0x1FFF, 0x3000, 0xFFFF, 0x28000, 0x3FFFF, 0x1006, 0x1FF7, 0x200A, 0x2FFF],
      unmappedAddress Config.reference a ∧
      (pending (.hostRead (BitVec.ofNat 18 a)) State.reset).inputs = .hostRead (BitVec.ofNat 18 a) :: [.tick] ∧
      (pending (.hostWrite (BitVec.ofNat 18 a) 7#32) State.reset).inputs = .hostWrite (BitVec.ofNat 18 a) 7#32 :: [.tick] := by
  unfold unmappedAddress
  decide
/-- The gap after SYMBUF exists only where SEQ_N < 65536; and the words beside the gaps are mapped. -/
theorem witness_UnmappedReadsZeroAndIgnoresWrites_edges :
    (∀ a ∈ [0x10004, 0x1FFFF, 0x20001], unmappedAddress tiny a) ∧
    (∀ a ∈ [0x0A, 0x200, 0x3FF, 0x1000, 0x1005, 0x1FF5, 0x2000, 0x2009, 0x2FF9, 0x10000, 0x1FFFF, 0x20000, 0x27FFF],
      ¬ unmappedAddress Config.reference a) := by
  unfold unmappedAddress
  decide
theorem witness_ElementFieldsKeepTheirLowBits :
    State.reset.status.busy = false ∧ 0 < State.reset.cfg.seqN ∧ 65535 < State.reset.cfg.seqN ∧ 255 < State.reset.cfg.nsym ∧
    510 < nnodeMax State.reset.cfg ∧ (10 ≤ 10 ∧ 10 < 16) ∧ (10 ≤ 15 ∧ 15 < 16) ∧ State.reset.cfg.nsym = 256 ∧ 6 < 7 := by decide
theorem witness_EngineFieldsAreTheHostsWords :
    (resetOf tiny).status.busy = false ∧ 3 < (resetOf tiny).cfg.seqN ∧ 3 < (resetOf tiny).cfg.nsym ∧
    6 < nnodeMax (resetOf tiny).cfg ∧ 2 < maxLen (resetOf tiny).cfg := by decide
theorem witness_CodeBitsFieldHasMaxlenBits :
    (resetOf tiny).status.busy = false ∧ 3 < (resetOf tiny).cfg.nsym ∧ 0 < 8 ∧ 7 < 8 ∧ 0 < 32 ∧ 31 < 32 := by decide
theorem witness_RegistersReadBackWhatIsWritten : State.reset.status.busy = false := by decide
theorem witness_WriteIsSeenAtItsOwnAddressOnly :
    State.reset.status.busy = false ∧ (0x20000 : HostAddr) ≠ 0x01 ∧ (0x20001 : HostAddr) ≠ 0x20000 := by decide
theorem witness_BitbufPacksLeastSignificantBitFirst :
    (resetOf tiny).status.busy = false ∧ 31 < (resetOf tiny).cfg.bitN ∧ 0 < (resetOf tiny).cfg.bitN / 32 := by decide
theorem witness_WriteToStatusClearsDoneOnly :
    let s := pending (.hostWrite 0x02 2#32) (after .count State.reset)
    s.status.busy = false ∧ s.inputs = .hostWrite 0x02 2#32 :: [.tick] ∧ s.status.done = true := by decide
theorem witness_ReadsHaveNoSideEffect :
    (pending (.hostRead 0x02) State.reset).inputs = .hostRead 0x02 :: [.tick] ∧
    (pending (.hostWrite 0x3FFFF 7#32) State.reset).inputs = .hostWrite 0x3FFFF 7#32 :: [.tick] := by decide
theorem witness_InterruptIsRaisedByCompletionAndDropped :
    exec .count State.reset = .next (after .count State.reset) ∧ State.reset.status.busy = false ∧
    (0x00000002#32).getLsbD 1 = true ∧ (0xFFFFFFFE#32).getLsbD 0 = false := ⟨rfl, by decide⟩
theorem witness_IllegalCommandCompletesWithErrorSeven :
    ∀ n ∈ [0x00000000, 0x00000006, 0x00000010, 0x80000001, 0xFFFFFFFF],
      let w := BitVec.ofNat 32 n
      State.reset.status.busy = false ∧ w ≠ 0x00000001#32 ∧ w ≠ 0x00000002#32 ∧ w ≠ 0x00000003#32 ∧ w ≠ 0x00000004#32 ∧
      w ≠ 0x00000005#32 ∧ (pending (.hostWrite 0x01 w) State.reset).inputs = .hostWrite 0x01 w :: .tick :: [] := by decide

/-- A failing state for each command: too long, empty, no tree, no entry, no tree. -/
def failing : Instr → State
  | .count => { resetOf tiny with slen := 5 }
  | .build => resetOf tiny
  | .gencodes => resetOf tiny
  | .encode => withSyms [0x41] (resetOf tiny)
  | .decode => resetOf tiny

theorem witness_FailureEmptiesOutputAndKeepsTheRest (i : Instr) :
    exec i (failing i) = .next (after i (failing i)) ∧ (after i (failing i)).status.err ≠ .success ∧
    resultRegisters .ctrl = false ∧ resultRegisters .cmd = false := by
  cases i <;> exact ⟨rfl, by decide⟩
theorem witness_LengthPrechecksComeFirst :
    (resetOf tiny).cfg.seqN < ({ resetOf tiny with slen := 5 } : State).slen.toNat ∧
    (resetOf tiny).cfg.nsym < ({ resetOf tiny with nfreq := 5 } : State).nfreq.toNat ∧
    2 * (resetOf tiny).cfg.nsym - 1 < ({ resetOf tiny with nnodes := 8 } : State).nnodes.toNat ∧
    (({ resetOf tiny with slen := 4, ncode := 5 } : State).slen.toNat ≤ (resetOf tiny).cfg.seqN ∧
      (resetOf tiny).cfg.nsym < ({ resetOf tiny with slen := 4, ncode := 5 } : State).ncode.toNat) ∧
    (resetOf tiny).cfg.bitN < ({ resetOf tiny with blen := 33 } : State).blen.toNat ∧
    (({ resetOf tiny with blen := 32, nnodes := 8 } : State).blen.toNat ≤ (resetOf tiny).cfg.bitN ∧
      2 * (resetOf tiny).cfg.nsym - 1 < ({ resetOf tiny with blen := 32, nnodes := 8 } : State).nnodes.toNat) := by decide
theorem witness_LengthPrechecksComeFirst_only :
    (after .encode { resetOf tiny with slen := 4, ncode := 5 }).status.err = .badLength ∧
    exec .encode { resetOf tiny with slen := 4, ncode := 5 } =
      .next (after .encode { resetOf tiny with slen := 4, ncode := 5 }) := ⟨by decide, rfl⟩

theorem witness_CountTabulatesInFirstOccurrenceOrder :
    let s := withSyms [0x42, 0x43, 0x43, 0x41] (resetOf tiny)
    s.slen.toNat ≤ s.cfg.seqN ∧ (firstOccurrences (symbols s)).length ≤ s.cfg.nsym := by decide
theorem witness_CountFailsAtTheFirstSymbolWithoutRoom :
    let s := withSyms [0x41, 0x42, 0x43] (resetOf narrow)
    (s.slen.toNat ≤ s.cfg.seqN ∧ 2 < s.slen.toNat ∧ (firstOccurrences ((symbols s).take 2)).length = s.cfg.nsym ∧
      symbol s.cfg s.mem 2 ∉ (symbols s).take 2) ∧
    ((resetOf full).cfg.nsym = 2 ^ (resetOf full).cfg.symW ∧ exec .count (resetOf full) = .next (after .count (resetOf full))) :=
  ⟨by decide, by decide, rfl⟩
theorem witness_CountChangesOnlyItsTable :
    let s := withSyms [0x42, 0x43, 0x43, 0x41] (resetOf tiny)
    exec .count s = .next (after .count s) ∧ (after .count s).status.err = .success ∧
    resultRegisters (.symbufWord 3) = false ∧ Location.symbufWord 3 ≠ .nfreq ∧ 2 * (after .count s).nfreq.toNat ≤ 6 :=
  ⟨rfl, by decide⟩

theorem witness_BuildMakesATreeOfTheTable :
    (abcCounted.nfreq.toNat = 3 ∧ 1 ≤ 3 ∧ 3 ≤ abcCounted.cfg.nsym) ∧
    ((withFreq [(0x41, 4)] (resetOf tiny)).nfreq.toNat = 1 ∧ 1 ≤ 1 ∧ 1 ≤ (resetOf tiny).cfg.nsym) ∧
    ((withFreq [(1, 1), (2, 1), (3, 0), (4, 7)] (resetOf tiny)).nfreq.toNat = 4 ∧ 4 ≤ (resetOf tiny).cfg.nsym) ∧
    (3 ≤ 3 ∧ 3 < 2 * 3 - 1) ∧ (3 ≤ 4 ∧ 4 < 2 * 3 - 1) ∧ 3 < 2 * 3 - 2 := by decide
theorem witness_BuildFollowsTheOrderAlone :
    (abcCounted.nfreq.toNat = 3 ∧ 1 ≤ 3 ∧ 3 ≤ abcCounted.cfg.nsym) ∧
    ((withFreq [(0x41, 4)] (resetOf tiny)).nfreq.toNat = 1 ∧ 1 ≤ (resetOf tiny).cfg.nsym) := by decide
theorem witness_HeapOperationsKeepTheOrder :
    heapOrdered tiny abcState.mem [0, 1, 3] ∧ [(0 : Handle), 1, 3] ≠ [] ∧
    (3 : Handle) ∈ (heapExtractMin tiny abcState.mem [0, 1, 3]).2 := by
  unfold heapOrdered
  decide
theorem witness_BuildRootFrequencyIsTheSumOfCounts :
    1 ≤ abcCounted.nfreq.toNat ∧ abcCounted.nfreq.toNat ≤ abcCounted.cfg.nsym ∧
    exec .build abcCounted = .next (after .build abcCounted) := ⟨by decide, by decide, rfl⟩
theorem witness_BuildFrequenciesDoNotFallWithTheHandle :
    abcCounted.nfreq.toNat = 3 ∧ 1 ≤ 3 ∧ 3 ≤ abcCounted.cfg.nsym ∧ exec .build abcCounted = .next (after .build abcCounted) ∧
    3 ≤ 3 ∧ 3 + 1 < 2 * 3 - 1 := ⟨by decide, by decide, by decide, rfl, by decide, by decide⟩
theorem witness_BuildOnTablesOfZeroOneAndTwoEntries :
    (resetOf tiny).nfreq = 0 ∧ (withFreq [(0x41, 4)] (resetOf tiny)).nfreq = 1 ∧
    ((withFreq [(0x41, 2), (0x42, 1)] (resetOf narrow)).nfreq = 2 ∧ 2 ≤ (resetOf narrow).cfg.nsym) := by decide
theorem witness_BuildChangesOnlyItsTree :
    exec .build abcCounted = .next (after .build abcCounted) ∧ (after .build abcCounted).status.err = .success ∧
    resultRegisters (.nodeWord 40) = false ∧ 8 * (after .build abcCounted).nnodes.toNat ≤ 40 := ⟨rfl, by decide⟩

theorem witness_GencodesListsThePathsOfTheTree :
    (abcState.nnodes.toNat ≤ nnodeMax abcState.cfg ∧ holdsTree abcState abcState.root abcTree = true ∧
      abcTree.depth ≤ maxLen abcState.cfg ∧ abcTree.leaves ≤ abcState.cfg.nsym) ∧
    (leafState.nnodes.toNat ≤ nnodeMax leafState.cfg ∧ holdsTree leafState leafState.root (.leaf 0x41) = true ∧
      (HTree.leaf 0x41).depth ≤ maxLen leafState.cfg ∧ (HTree.leaf 0x41).leaves ≤ leafState.cfg.nsym) := by decide
/-- A handle out of range at depth 1 (V-D12, V-G18). -/
def outOfRange : State := withNodes [leafNode 0x41 1, leafNode 0x42 1, internalNode 2 7 1] (resetOf tiny)
/-- The root is a LEAF with a child (V-G19). -/
def rootWithChild : State := withNodes [{ leafNode 0x41 4 with left := 0 }] (resetOf tiny)
/-- The left child of the root is INTERNAL and misses a child. -/
def missingChild : State := withNodes [leafNode 0x41 1, internalNode 1 0 nilHandle, internalNode 2 1 0] (resetOf tiny)
/-- A cycle: still INTERNAL at depth MAXLEN = 3 (after V-G20). -/
def cycle : State := withNodes [leafNode 0x41 1, internalNode 2 1 0] (resetOf tiny)
/-- V-G17: the right leaf of V-B3 has a child. -/
def rightLeafWithChild : State :=
  withNodes [leafNode 0x41 1, { leafNode 0x42 1 with left := 0 }, internalNode 2 0 1] (resetOf tiny)
/-- One leaf shared by all ends of a full tree of depth MAXLEN = 3: the fifth leaf reached is the (NSYM+1)-th. -/
def sharedLeaf : State :=
  withNodes [leafNode 0x41 1, internalNode 2 0 0, internalNode 4 1 1, internalNode 8 2 2] (resetOf tiny)
/-- The left subtree of `sharedLeaf`, with NSYM = 4 leaves. -/
def fourLeaves : HTree := .internal (.internal (.leaf 0x41) (.leaf 0x41)) (.internal (.leaf 0x41) (.leaf 0x41))
theorem witness_GencodesFailsAtTheFirstDefect_range :
    outOfRange.nnodes.toNat ≤ nnodeMax outOfRange.cfg ∧ walksTo outOfRange outOfRange.root 0 [false] [] = true ∧
    (([] : List HTree).map HTree.leaves).sum ≤ outOfRange.cfg.nsym ∧
    outOfRange.nnodes.toNat ≤ (follow outOfRange outOfRange.root [false]).toNat := by
  decide
theorem witness_GencodesFailsAtTheFirstDefect_leaf :
    rootWithChild.nnodes.toNat ≤ nnodeMax rootWithChild.cfg ∧ walksTo rootWithChild rootWithChild.root 0 [] [] = true ∧
    (([] : List HTree).map HTree.leaves).sum ≤ rootWithChild.cfg.nsym ∧
    leafWithChild rootWithChild (follow rootWithChild rootWithChild.root []) := by
  unfold leafWithChild
  decide
theorem witness_GencodesFailsAtTheFirstDefect_internal :
    missingChild.nnodes.toNat ≤ nnodeMax missingChild.cfg ∧ walksTo missingChild missingChild.root 0 [false] [] = true ∧
    (([] : List HTree).map HTree.leaves).sum ≤ missingChild.cfg.nsym ∧
    internalMissingChild missingChild (follow missingChild missingChild.root [false]) := by
  unfold internalMissingChild
  decide
theorem witness_GencodesFailsAtTheFirstDefect_depth :
    cycle.nnodes.toNat ≤ nnodeMax cycle.cfg ∧ walksTo cycle cycle.root 0 [false, false, false] [] = true ∧
    (([] : List HTree).map HTree.leaves).sum ≤ cycle.cfg.nsym ∧
    [false, false, false].length = maxLen cycle.cfg ∧ goodInternal cycle (follow cycle cycle.root [false, false, false]) := by
  unfold goodInternal
  decide
theorem witness_GencodesFailsAtTheFirstDefect_after_leaf :
    rightLeafWithChild.nnodes.toNat ≤ nnodeMax rightLeafWithChild.cfg ∧ walksTo rightLeafWithChild rightLeafWithChild.root 0 [true] [.leaf 0x41] = true ∧
    (([.leaf 0x41] : List HTree).map HTree.leaves).sum ≤ rightLeafWithChild.cfg.nsym ∧
    leafWithChild rightLeafWithChild (follow rightLeafWithChild rightLeafWithChild.root [true]) := by
  unfold leafWithChild
  decide
theorem witness_GencodesFailsAtTheFirstDefect_leaf_count :
    sharedLeaf.nnodes.toNat ≤ nnodeMax sharedLeaf.cfg ∧ walksTo sharedLeaf sharedLeaf.root 0 [true, false, false] [fourLeaves] = true ∧
    (([fourLeaves] : List HTree).map HTree.leaves).sum ≤ sharedLeaf.cfg.nsym ∧
    (node sharedLeaf.cfg sharedLeaf.mem (follow sharedLeaf sharedLeaf.root [true, false, false]).toNat).kind = .leaf ∧
    (([fourLeaves] : List HTree).map HTree.leaves).sum = sharedLeaf.cfg.nsym := by
  decide
theorem witness_BuiltTreeYieldsAPrefixFreeTable :
    1 ≤ abcCounted.nfreq.toNat ∧ abcCounted.nfreq.toNat ≤ abcCounted.cfg.nsym ∧
    exec .build abcCounted = .next (after .build abcCounted) ∧
    exec .gencodes (after .build abcCounted) = .next (after .gencodes (after .build abcCounted)) :=
  ⟨by decide, by decide, rfl, rfl⟩
theorem witness_GencodesChangesOnlyItsTable :
    exec .gencodes abcState = .next (after .gencodes abcState) ∧ (after .gencodes abcState).status.err = .success ∧
    resultRegisters (.codeWord 48) = false ∧ 16 * (after .gencodes abcState).ncode.toNat ≤ 48 := ⟨rfl, by decide⟩

/-- Where CODE lists the symbols of "ABC". -/
def abcIndex (i : Nat) : Nat := [1, 2, 0].getD i 0

theorem witness_EncodeConcatenatesTheCodes :
    abcToEncode.slen.toNat ≤ abcToEncode.cfg.seqN ∧ abcToEncode.ncode.toNat ≤ abcToEncode.cfg.nsym ∧
    (∀ i < abcToEncode.slen.toNat, usedEntry abcToEncode (symbol abcToEncode.cfg abcToEncode.mem i) (abcIndex i)) ∧
    codedLength abcToEncode abcIndex abcToEncode.slen.toNat ≤ abcToEncode.cfg.bitN := by
  unfold usedEntry
  decide
/-- 31 bits fit in 32; the longest code has MAXLEN = 31 bits, so the second symbol finds no room. -/
def longCodes : State :=
  withCodes [(0x41, List.replicate 31 true)] (withSyms [0x41, 0x41]
    (resetOf ⟨{ symW := 8, nsym := 32, cntW := 8, seqN := 8, bitN := 32 }, by decide⟩))
/-- "BA" where only B has a code. -/
def onlyB : State := withCodes [(0x42, [false])] (withSyms [0x42, 0x41] (resetOf tiny))
theorem witness_EncodeReportsTheFirstFailure_unknown :
    onlyB.slen.toNat ≤ onlyB.cfg.seqN ∧ onlyB.ncode.toNat ≤ onlyB.cfg.nsym ∧ 1 < onlyB.slen.toNat ∧
    (∀ k < 1, usedEntry onlyB (symbol onlyB.cfg onlyB.mem k) 0) ∧ codedLength onlyB (fun _ => 0) 1 ≤ onlyB.cfg.bitN ∧
    noEntry onlyB (symbol onlyB.cfg onlyB.mem 1) := by
  unfold usedEntry noEntry
  decide
theorem witness_EncodeReportsTheFirstFailure_capacity :
    longCodes.slen.toNat ≤ longCodes.cfg.seqN ∧ longCodes.ncode.toNat ≤ longCodes.cfg.nsym ∧ 1 < longCodes.slen.toNat ∧
    (∀ k < 1, usedEntry longCodes (symbol longCodes.cfg longCodes.mem k) 0) ∧
    codedLength longCodes (fun _ => 0) 1 ≤ longCodes.cfg.bitN ∧
    usedEntry longCodes (symbol longCodes.cfg longCodes.mem 1) 0 ∧
    longCodes.cfg.bitN < codedLength longCodes (fun _ => 0) 2 := by
  unfold usedEntry
  decide
theorem witness_EncodeChangesOnlyItsBits :
    exec .encode abcToEncode = .next (after .encode abcToEncode) ∧ (after .encode abcToEncode).status.err = .success ∧
    (after .encode abcToEncode).blen.toNat ≤ 5 ∧ resultRegisters (.symbufWord 0) = false ∧ Location.symbufWord 0 ≠ .blen :=
  ⟨rfl, by decide⟩

/-- "ABC" of V-E6 against the tree of V-B6. -/
def abcPicks : List (Word × List Bool) := [(0x41, [true, false]), (0x42, [true, true]), (0x43, [false])]
theorem witness_DecodeRecoversTheSymbols :
    let s := withBits (bitString "10110") abcState
    s.blen.toNat ≤ s.cfg.bitN ∧ s.nnodes.toNat ≤ nnodeMax s.cfg ∧ holdsTree s s.root abcTree = true ∧
    (∀ p ∈ abcPicks, p ∈ abcTree.codes) ∧ bits s = abcPicks.flatMap Prod.snd ∧ abcPicks.length ≤ s.cfg.seqN := by decide
theorem witness_DecodeOfATruncatedCodeFails :
    let s := withBits (bitString "101101") abcState
    s.blen.toNat ≤ s.cfg.bitN ∧ s.nnodes.toNat ≤ nnodeMax s.cfg ∧ holdsTree s s.root abcTree = true ∧
    (∀ p ∈ abcPicks, p ∈ abcTree.codes) ∧ abcPicks.length ≤ s.cfg.seqN ∧ [true] ≠ [] ∧
    (∃ q ∈ abcTree.codes, [true] <+: q.2 ∧ [true] ≠ q.2) ∧ bits s = abcPicks.flatMap Prod.snd ++ [true] := by decide
theorem witness_DecodeAgainstASingleLeaf :
    (let s := withBits (bitString "0000") leafState;
      s.blen.toNat ≤ s.cfg.bitN ∧ s.nnodes.toNat ≤ nnodeMax s.cfg ∧ holdsTree s s.root (.leaf 0x41) = true ∧
      (∀ k < s.blen.toNat, bit s.mem k = false) ∧ s.blen.toNat ≤ s.cfg.seqN) ∧
    (let s := withBits (bitString "00001") leafState;
      s.blen.toNat ≤ s.cfg.bitN ∧ s.nnodes.toNat ≤ nnodeMax s.cfg ∧ holdsTree s s.root (.leaf 0x41) = true ∧
      4 < s.blen.toNat ∧ 4 ≤ s.cfg.seqN ∧ (∀ k < 4, bit s.mem k = false) ∧ bit s.mem 4 = true) := by decide
/-- "010" against a tree whose right node misses a child: the first bit emits A (after V-D10). -/
def missingAtCursor : State :=
  withBits [false, true, false] (withNodes [leafNode 0x41 1, internalNode 2 0 nilHandle, internalNode 3 0 1] (resetOf tiny))
/-- V-D12. -/
def outOfRangeBits : State := withBits [false] outOfRange
/-- V-D11. -/
def leafWithChildBits : State := withBits [false, true] rightLeafWithChild
/-- V-G19's tree with one bit to decode. -/
def rootWithChildBits : State := withBits [false] rootWithChild
theorem witness_DecodeFailsAtTheMalformedNodeItTouches_cursor :
    missingAtCursor.blen.toNat ≤ missingAtCursor.cfg.bitN ∧ missingAtCursor.nnodes.toNat ≤ nnodeMax missingAtCursor.cfg ∧
    missingAtCursor.root.toNat < missingAtCursor.nnodes.toNat ∧ ([(0x41, [false])] : List (Word × List Bool)).length ≤ missingAtCursor.cfg.seqN ∧
    (∀ q ∈ ([(0x41, [false])] : List (Word × List Bool)), emits missingAtCursor q.1 q.2) ∧
    bits missingAtCursor = ([(0x41, [false])] : List (Word × List Bool)).flatMap Prod.snd ++ [true] ++ false :: [] ∧ descends missingAtCursor [true] ∧
    internalMissingChild missingAtCursor (follow missingAtCursor missingAtCursor.root [true]) := by
  unfold descends emits goodInternal internalMissingChild
  decide
theorem witness_DecodeFailsAtTheMalformedNodeItTouches_range :
    outOfRangeBits.blen.toNat ≤ outOfRangeBits.cfg.bitN ∧ outOfRangeBits.nnodes.toNat ≤ nnodeMax outOfRangeBits.cfg ∧
    outOfRangeBits.root.toNat < outOfRangeBits.nnodes.toNat ∧ ([] : List (Word × List Bool)).length ≤ outOfRangeBits.cfg.seqN ∧
    (∀ q ∈ ([] : List (Word × List Bool)), emits outOfRangeBits q.1 q.2) ∧
    bits outOfRangeBits = ([] : List (Word × List Bool)).flatMap Prod.snd ++ [] ++ false :: [] ∧ descends outOfRangeBits [] ∧
    goodInternal outOfRangeBits (follow outOfRangeBits outOfRangeBits.root []) ∧
    outOfRangeBits.nnodes.toNat ≤ (follow outOfRangeBits outOfRangeBits.root ([] ++ [false])).toNat := by
  unfold descends emits goodInternal
  decide
theorem witness_DecodeFailsAtTheMalformedNodeItTouches_leaf :
    leafWithChildBits.blen.toNat ≤ leafWithChildBits.cfg.bitN ∧ leafWithChildBits.nnodes.toNat ≤ nnodeMax leafWithChildBits.cfg ∧
    leafWithChildBits.root.toNat < leafWithChildBits.nnodes.toNat ∧ ([(0x41, [false])] : List (Word × List Bool)).length ≤ leafWithChildBits.cfg.seqN ∧
    (∀ q ∈ ([(0x41, [false])] : List (Word × List Bool)), emits leafWithChildBits q.1 q.2) ∧
    bits leafWithChildBits = ([(0x41, [false])] : List (Word × List Bool)).flatMap Prod.snd ++ [] ++ true :: [] ∧ descends leafWithChildBits [] ∧
    goodInternal leafWithChildBits (follow leafWithChildBits leafWithChildBits.root []) ∧
    leafWithChild leafWithChildBits (follow leafWithChildBits leafWithChildBits.root ([] ++ [true])) := by
  unfold descends emits goodInternal leafWithChild
  decide
theorem witness_DecodeFailsAtTheMalformedNodeItTouches_root :
    rootWithChildBits.blen.toNat ≤ rootWithChildBits.cfg.bitN ∧
    rootWithChildBits.nnodes.toNat ≤ nnodeMax rootWithChildBits.cfg ∧
    rootWithChildBits.root.toNat < rootWithChildBits.nnodes.toNat ∧ leafWithChild rootWithChildBits rootWithChildBits.root ∧
    1 ≤ rootWithChildBits.blen.toNat := by
  unfold leafWithChild
  decide
theorem witness_DecodeFailsWhenSymbufIsFull :
    let s := withBits (bitString "000010") abcState
    let picks : List (Word × List Bool) := List.replicate 4 (0x43, [false])
    s.blen.toNat ≤ s.cfg.bitN ∧ s.nnodes.toNat ≤ nnodeMax s.cfg ∧ holdsTree s s.root abcTree = true ∧
    (∀ p ∈ picks, p ∈ abcTree.codes) ∧ (0x41, [true, false]) ∈ abcTree.codes ∧ picks.length = s.cfg.seqN ∧
    bits s = picks.flatMap Prod.snd ++ [true, false] ++ [] := by decide
theorem witness_DecodeChangesOnlyItsSymbols :
    let s := withBits (bitString "10110") abcState
    exec .decode s = .next (after .decode s) ∧ (after .decode s).status.err = .success ∧
    resultRegisters (.symbufWord 3) = false ∧ Location.symbufWord 3 ≠ .slen ∧ (after .decode s).slen.toNat ≤ 3 := ⟨rfl, by decide⟩
theorem witness_GencodesAndDecodeNeedATree :
    (State.reset.nnodes.toNat ≤ nnodeMax State.reset.cfg ∧ State.reset.nnodes.toNat ≤ State.reset.root.toNat ∧
      State.reset.blen.toNat ≤ State.reset.cfg.bitN) ∧
    (({ abcState with nnodes := 4 } : State).nnodes.toNat ≤ nnodeMax abcState.cfg ∧
      ({ abcState with nnodes := 4 } : State).nnodes.toNat ≤ abcState.root.toNat) := by decide

/-- The pipeline on "ABCA". -/
def pipelined : List Instr → State → State
  | [], s => s
  | i :: rest, s => pipelined rest (after i s)
theorem witness_PipelineRoundTripGivesTheSequenceBack :
    let s0 := withSyms [0x41, 0x42, 0x43, 0x41] (resetOf tiny)
    let s1 := pipelined [.count] s0
    let s2 := pipelined [.count, .build] s0
    let s3 := pipelined [.count, .build, .gencodes] s0
    let s4 := pipelined [.count, .build, .gencodes, .encode] s0
    1 ≤ s0.slen.toNat ∧ s1.status.err = .success ∧ 2 ≤ s0.cfg.nsym ∧
    ((codeTable s3).map (fun e => (symbols s0).count e.1 * e.2.length)).sum ≤ s0.cfg.bitN ∧ s4.status.err = .success ∧
    exec .count s0 = .next s1 ∧ exec .build s1 = .next s2 ∧ exec .gencodes s2 = .next s3 ∧ exec .encode s3 = .next s4 ∧
    exec .decode s4 = .next (after .decode s4) :=
  ⟨by decide, by decide, by decide, by decide, by decide, rfl, rfl, rfl, rfl, rfl⟩
/-- 17 symbols whose codes of two bits each take 34 bits, where BIT_N = 32. -/
def tooLong : State :=
  withSyms (List.replicate 5 0x41 ++ List.replicate 4 0x42 ++ List.replicate 4 0x43 ++ List.replicate 4 0x44)
    (resetOf ⟨{ symW := 8, nsym := 4, cntW := 8, seqN := 32, bitN := 32 }, by decide⟩)
/-- `tooLong` with its code table. -/
def tooLongCoded : State := pipelined [.count, .build, .gencodes] tooLong
theorem witness_PipelineRoundTripGivesTheSequenceBack_capacity :
    1 ≤ tooLong.slen.toNat ∧ (pipelined [.count] tooLong).status.err = .success ∧ 2 ≤ tooLong.cfg.nsym ∧
    tooLong.cfg.bitN < ((codeTable tooLongCoded).map (fun e => (symbols tooLong).count e.1 * e.2.length)).sum := by decide
/-- Two states that differ in the other memories and in the free values behind them. -/
def otherwise (s : State) : State := { withCodes [(7, [true])] s with fresh := 9, errinfo := 3, heapn := 2 }
theorem witness_CommandsReadOnlyTheirReadSets :
    let s := withSyms [0x42, 0x43] (resetOf tiny)
    (s.cfg = (otherwise s).cfg ∧ s.slen = (otherwise s).slen ∧ symbols s = symbols (otherwise s) ∧ s ≠ otherwise s) ∧
    exec .count s = .next (after .count s) ∧ exec .count (otherwise s) = .next (after .count (otherwise s)) :=
  ⟨by decide, rfl, rfl⟩
/-- A single leaf at ROOT = 1. -/
def leafAtOne : State := withNodes [internalNode 9 0 0, leafNode 0x41 4] (resetOf tiny)
/-- The same tree, with another node 0, which is not reached, and another freq. -/
def leafAtOne' : State := withNodes [leafNode 7 1, leafNode 0x41 9] (resetOf tiny)
theorem reached_leafAtOne {p : List Bool} (h : reached leafAtOne p) : p = [] := by
  cases p with
  | nil => rfl
  | cons b q =>
    have hk := (h.1 0 (by simp)).2.1
    simp only [List.take_zero, follow] at hk
    exact absurd hk (by decide)
theorem witness_CommandsReadOnlyTheirReadSets_tree :
    leafAtOne.cfg = leafAtOne'.cfg ∧ sameInputs .gencodes leafAtOne leafAtOne' ∧ sameInputs .decode leafAtOne leafAtOne' ∧
    node leafAtOne.cfg leafAtOne.mem 0 ≠ node leafAtOne'.cfg leafAtOne'.mem 0 ∧
    exec .gencodes leafAtOne = .next (after .gencodes leafAtOne) ∧
    exec .gencodes leafAtOne' = .next (after .gencodes leafAtOne') := by
  have hn : sameReachedNodes leafAtOne leafAtOne' := by
    refine ⟨by decide, by decide, ?_⟩
    intro p hp
    rw [reached_leafAtOne hp]
    unfold sameNode
    decide
  exact ⟨by decide, hn, ⟨by decide, by decide, hn⟩, by decide, rfl, rfl⟩
theorem witness_HiddenStateIsUnobservable :
    exec .build abcCounted = .next (after .build abcCounted) ∧
    exec .build { abcCounted with heap := { epoch := 0, cells := [(0, 3)] }, heapn := 1, stack := .unwritten 4, work := .zero, cmdw := 9 } =
      .next (after .build
        { abcCounted with heap := { epoch := 0, cells := [(0, 3)] }, heapn := 1, stack := .unwritten 4, work := .zero, cmdw := 9 }) :=
  ⟨rfl, rfl⟩
/-- A legal state that is not the reset state: BUILD runs on a table of three entries. -/
theorem witness_EveryStepKeepsTheStateLegal :
    Inv (accept 0x00000002#32 abcCounted) ∧
    step (accept 0x00000002#32 abcCounted) = .next (after .build (accept 0x00000002#32 abcCounted)) :=
  ⟨⟨by decide, by unfold hiddenWf; decide, by decide, by unfold hiddenWf; decide, by decide, by decide, by decide,
    fun _ => ⟨rfl, rfl, rfl⟩, fun _ => ⟨rfl, rfl⟩⟩, rfl⟩
theorem witness_RunningCommandEnds : (running State.reset).status.busy = true := by decide
theorem witness_PhaseChangesOnlyAtAcceptanceAndEnd :
    step (pending .rst (running State.reset)) = .next (pinReset { running State.reset with inputs := [.tick] }) := rfl
theorem witness_CommandsInTheResetState :
    abcCounted.slen = 0 ∧ ({ abcCounted with nfreq := 0 } : State).nfreq = 0 ∧ abcCounted.blen = 0 ∧ abcCounted.nnodes = 0 ∧
    abcCounted.root = 0x1FF ∧ abcCounted.ncode = 0 := by decide
theorem witness_PinResetGivesTheResetRegisters : (pending .rst (running abcCounted)).inputs = .rst :: [.tick] := by decide
theorem witness_LoadBitsLoadsTheBitString :
    (resetOf tiny).status.busy = false ∧ (List.replicate 32 true).length ≤ (resetOf tiny).cfg.bitN := by decide
theorem witness_LoadSymLoadsTheSymbols :
    (resetOf tiny).status.busy = false ∧ [0x41#32, 0xFF#32, 0x41#32, 0xFF#32].length ≤ (resetOf tiny).cfg.seqN ∧
    (0x41#32).toNat < 2 ^ (resetOf tiny).cfg.symW ∧ (0xFF#32).toNat < 2 ^ (resetOf tiny).cfg.symW := by decide
theorem witness_IssueAndWaitShowsTheCompletion : abcCounted.status.busy = false := by decide

end Sys2Proof.Tests
end

section
/-! PROOFS. What the run of each command answers: its outputs, or what it raises, by its prechecks and its loop. -/

namespace Sys2Proof.Machine
open Sys2Proof.Safety

/-! ## What the runs of the five commands answer -/

/-- COUNT's run succeeds only where its precheck and its loop do. -/
theorem countRun_ok {s u : State} (h : countRun s = .ok u) :
    s.slen.toNat ≤ s.cfg.seqN ∧ ∃ n m, countLoop s.cfg s.slen.toNat 0 0 s.mem = .ok (n, m) ∧
      u = { s with mem := m, nfreq := BitVec.ofNat 32 n } := by
  unfold countRun at h
  split at h
  · cases h
  · split at h
    · rename_i hle n m hl
      cases h
      exact ⟨by omega, n, m, hl, rfl⟩
    · cases h

/-- COUNT raises by its precheck or in its loop. -/
theorem countRun_error {s : State} {f : Failure} (h : countRun s = .error f) :
    (s.cfg.seqN < s.slen.toNat ∧ f = badLength 0x05 s.slen) ∨
    (s.slen.toNat ≤ s.cfg.seqN ∧ countLoop s.cfg s.slen.toNat 0 0 s.mem = .error f) := by
  unfold countRun at h
  split at h
  · cases h
    exact .inl ⟨‹_›, rfl⟩
  · split at h
    · cases h
    · rename_i hle g hl
      cases h
      exact .inr ⟨by omega, hl⟩

/-- The two loops of R121 on a table of `n` entries: NNODES, the memory and the heap they end with. -/
def buildLoops (c : Config) (n : Nat) (m : Memory) : Nat × Memory × List Handle :=
  mergeLoop c n n (leafLoop c n 0 m []).1 (leafLoop c n 0 m []).2

/-- BUILD's run succeeds only on a table of 1 to NSYM entries, with the outputs of its two loops (R121). -/
theorem buildRun_ok {s u : State} (h : buildRun s = .ok u) :
    1 ≤ s.nfreq.toNat ∧ s.nfreq.toNat ≤ s.cfg.nsym ∧
    (let r := buildLoops s.cfg s.nfreq.toNat s.mem
     u = { s with mem := r.2.1, nnodes := BitVec.ofNat 32 r.1, root := heapAt r.2.2 0
                  heap := heapStore s.fresh r.2.2, heapn := BitVec.ofNat 9 r.2.2.length }) := by
  unfold buildRun at h
  split at h
  · cases h
  · split at h
    · cases h
    · cases h
      exact ⟨by omega, by omega, rfl⟩

/-- BUILD's run on a table of 1 to NSYM entries (R121). -/
theorem buildRun_of_le {s : State} (h1 : 1 ≤ s.nfreq.toNat) (h2 : s.nfreq.toNat ≤ s.cfg.nsym) :
    ∃ u, buildRun s = .ok u := by
  unfold buildRun
  rw [if_neg (by omega), if_neg (by omega)]
  exact ⟨_, rfl⟩

/-- BUILD raises by its two prechecks alone. -/
theorem buildRun_error {s : State} {f : Failure} (h : buildRun s = .error f) :
    (s.cfg.nsym < s.nfreq.toNat ∧ f = badLength 0x07 s.nfreq) ∨
    (s.nfreq.toNat = 0 ∧ f = { err := .emptyInput, info := 0, pos := 0 }) := by
  unfold buildRun at h
  split at h
  · cases h
    exact .inl ⟨‹_›, rfl⟩
  · split at h
    · cases h
      exact .inr ⟨‹_›, rfl⟩
    · cases h

/-- The traversal of GENCODES: the single leaf, or the walk (R141). -/
def gencodesTraversal (s : State) : Except Failure (Nat × Memory) :=
  match (node s.cfg s.mem s.root.toNat).kind with
  | .leaf => singleLeaf s.cfg s.root (node s.cfg s.mem s.root.toNat) s.mem
  | .internal => walk s.cfg s.nnodes.toNat (maxLen s.cfg) [] s.root 0 s.mem

/-- GENCODES' run, its traversal named (R141). -/
theorem gencodesRun_eq (s : State) : gencodesRun s =
    if nnodeMax s.cfg < s.nnodes.toNat then .error (badLength 0x08 s.nnodes)
    else if s.nnodes.toNat ≤ s.root.toNat then .error (invalidTree s.root 0)
    else (gencodesTraversal s).map fun r => { s with mem := r.2, ncode := BitVec.ofNat 32 r.1 } := by
  unfold gencodesRun
  simp only
  split_ifs
  · rfl
  · rfl
  · change (match gencodesTraversal s with | .ok (n, m) => _ | .error f => _) = _
    cases gencodesTraversal s <;> rfl

/-- GENCODES' run succeeds only where its prechecks and its traversal do. -/
theorem gencodesRun_ok {s u : State} (h : gencodesRun s = .ok u) :
    s.nnodes.toNat ≤ nnodeMax s.cfg ∧ s.root.toNat < s.nnodes.toNat ∧
    ∃ n m, gencodesTraversal s = .ok (n, m) ∧ u = { s with mem := m, ncode := BitVec.ofNat 32 n } := by
  rw [gencodesRun_eq] at h
  split at h
  · cases h
  · split at h
    · cases h
    · rename_i hn hr
      cases ht : gencodesTraversal s <;> rw [ht] at h <;> cases h
      exact ⟨by omega, by omega, _, _, rfl, rfl⟩

/-- GENCODES raises by its precheck, at a ROOT that names no node, or in its traversal. -/
theorem gencodesRun_error {s : State} {f : Failure} (h : gencodesRun s = .error f) :
    (nnodeMax s.cfg < s.nnodes.toNat ∧ f = badLength 0x08 s.nnodes) ∨
    (s.nnodes.toNat ≤ s.root.toNat ∧ f = invalidTree s.root 0) ∨ gencodesTraversal s = .error f := by
  rw [gencodesRun_eq] at h
  split at h
  · cases h
    exact .inl ⟨‹_›, rfl⟩
  · split at h
    · cases h
      exact .inr (.inl ⟨‹_›, rfl⟩)
    · cases ht : gencodesTraversal s <;> rw [ht] at h <;> cases h
      exact .inr (.inr rfl)

/-- ENCODE's run succeeds only where its prechecks and its loop do. -/
theorem encodeRun_ok {s u : State} (h : encodeRun s = .ok u) :
    s.slen.toNat ≤ s.cfg.seqN ∧ s.ncode.toNat ≤ s.cfg.nsym ∧
    ∃ out m, encodeLoop s.cfg s.ncode.toNat s.slen.toNat 0 0 s.mem = .ok (out, m) ∧
      u = { s with mem := m, blen := BitVec.ofNat 32 out } := by
  unfold encodeRun at h
  split at h
  · cases h
  · split at h
    · cases h
    · split at h
      · rename_i hs hn out m hl
        cases h
        exact ⟨by omega, by omega, out, m, hl, rfl⟩
      · cases h

/-- ENCODE raises by its prechecks, in their order, or in its loop. -/
theorem encodeRun_error {s : State} {f : Failure} (h : encodeRun s = .error f) :
    (s.cfg.seqN < s.slen.toNat ∧ f = badLength 0x05 s.slen) ∨
    (s.slen.toNat ≤ s.cfg.seqN ∧ s.cfg.nsym < s.ncode.toNat ∧ f = badLength 0x0A s.ncode) ∨
    (s.slen.toNat ≤ s.cfg.seqN ∧ s.ncode.toNat ≤ s.cfg.nsym ∧
      encodeLoop s.cfg s.ncode.toNat s.slen.toNat 0 0 s.mem = .error f) := by
  unfold encodeRun at h
  split at h
  · cases h
    exact .inl ⟨‹_›, rfl⟩
  · split at h
    · cases h
      exact .inr (.inl ⟨by omega, ‹_›, rfl⟩)
    · split at h
      · cases h
      · rename_i hs hn g hl
        cases h
        exact .inr (.inr ⟨by omega, by omega, hl⟩)

/-- DECODE's run succeeds only where its prechecks, its loop and its end test do. -/
theorem decodeRun_ok {s u : State} (h : decodeRun s = .ok u) :
    s.blen.toNat ≤ s.cfg.bitN ∧ s.nnodes.toNat ≤ nnodeMax s.cfg ∧ s.root.toNat < s.nnodes.toNat ∧
    ∃ out m, decodeLoop s.cfg s.nnodes.toNat s.root s.blen.toNat 0 s.root 0 s.mem = .ok (s.root, out, m) ∧
      u = { s with mem := m, slen := BitVec.ofNat 32 out } := by
  unfold decodeRun at h
  split at h
  · cases h
  · split at h
    · cases h
    · split at h
      · cases h
      · split at h
        · cases h
        · rename_i hb hn hr cur out m hl
          split at h
          · cases h
          · rename_i hcur
            cases h
            rw [not_ne_iff] at hcur
            subst hcur
            exact ⟨by omega, by omega, by omega, out, m, hl, rfl⟩

/-- DECODE raises by its prechecks, at a ROOT that names no node, in its loop, or by its end test (R174). -/
theorem decodeRun_error {s : State} {f : Failure} (h : decodeRun s = .error f) :
    (s.cfg.bitN < s.blen.toNat ∧ f = badLength 0x06 s.blen) ∨
    (s.blen.toNat ≤ s.cfg.bitN ∧ nnodeMax s.cfg < s.nnodes.toNat ∧ f = badLength 0x08 s.nnodes) ∨
    (s.nnodes.toNat ≤ s.root.toNat ∧ f = invalidTree s.root 0) ∨
    decodeLoop s.cfg s.nnodes.toNat s.root s.blen.toNat 0 s.root 0 s.mem = .error f ∨
    ∃ cur out m, decodeLoop s.cfg s.nnodes.toNat s.root s.blen.toNat 0 s.root 0 s.mem = .ok (cur, out, m) ∧
      cur ≠ s.root ∧ f = incompleteCode cur s.blen.toNat := by
  unfold decodeRun at h
  split at h
  · cases h
    exact .inl ⟨‹_›, rfl⟩
  · split at h
    · cases h
      exact .inr (.inl ⟨by omega, ‹_›, rfl⟩)
    · split at h
      · cases h
        exact .inr (.inr (.inl ⟨‹_›, rfl⟩))
      · split at h
        · rename_i hl
          cases h
          exact .inr (.inr (.inr (.inl hl)))
        · rename_i cur out m hl
          split at h
          · cases h
            exact .inr (.inr (.inr (.inr ⟨cur, out, m, hl, ‹_›, rfl⟩)))
          · cases h

end Sys2Proof.Machine
end

section
/-! PROOFS. The error codes the commands raise, and the canonical form along a command. -/

namespace Sys2Proof.Machine
open Sys2Proof.Safety

/-! ## The error codes the commands raise (R190) -/

theorem countLoop_error {c : Config} {f : Failure} : ∀ {rem i n : Nat} {m : Memory},
    countLoop c rem i n m = .error f → f.err = .capacity := by
  intro rem
  induction rem with
  | zero => intro i n m h; cases h
  | succ rem ih =>
    intro i n m h
    simp only [countLoop] at h
    split at h
    · split at h
      · cases h; rfl
      · exact ih h
    · exact ih h

theorem encodeLoop_error {c : Config} {ncode : Nat} {f : Failure} : ∀ {rem i out : Nat} {m : Memory},
    encodeLoop c ncode rem i out m = .error f → f.err = .unknownSymbol ∨ f.err = .capacity := by
  intro rem
  induction rem with
  | zero => intro i out m h; cases h
  | succ rem ih =>
    intro i out m h
    simp only [encodeLoop] at h
    split at h
    · cases h; exact .inl rfl
    · split at h
      · cases h; exact .inr rfl
      · exact ih h

/-- The error codes of DECODE's loop (R171 to R175). -/
def isDecodeError (e : Err) : Prop := e = .invalidTree ∨ e = .incompleteCode ∨ e = .capacity

theorem emit_error {c : Config} {x : Word} {i out : Nat} {m : Memory} {f : Failure} (h : emit c x i out m = .error f) :
    isDecodeError f.err := by
  unfold emit at h
  split at h
  · cases h; exact .inr (.inr rfl)
  · cases h

theorem decodeAtLeaf_error {c : Config} {i : Nat} {cur : Handle} {nd : Node} {b : Bool} {out : Nat} {m : Memory} {f : Failure}
    (h : decodeAtLeaf c i cur nd b out m = .error f) : isDecodeError f.err := by
  unfold decodeAtLeaf at h
  split at h
  · cases h; exact .inl rfl
  · split at h
    · cases h; exact .inr (.inl rfl)
    · exact emit_error h

theorem decodeAtInternal_error {c : Config} {nnodes : Nat} {root : Handle} {i : Nat} {cur : Handle} {nd : Node} {b : Bool}
    {out : Nat} {m : Memory} {f : Failure} (h : decodeAtInternal c nnodes root i cur nd b out m = .error f) :
    isDecodeError f.err := by
  unfold decodeAtInternal at h
  split at h
  · cases h; exact .inl rfl
  · simp only at h
    generalize (if b = true then nd.right else nd.left) = next at h
    split at h
    · cases h; exact .inl rfl
    · split at h
      · split at h
        · cases h; exact .inl rfl
        · split at h
          · rename_i he
            cases h
            exact emit_error he
          · cases h
      · cases h

theorem decodeBit_error {c : Config} {nnodes : Nat} {root : Handle} {i : Nat} {cur : Handle} {out : Nat} {m : Memory}
    {f : Failure} (h : decodeBit c nnodes root i cur out m = .error f) : isDecodeError f.err := by
  unfold decodeBit at h
  simp only at h
  split at h
  · split at h
    · rename_i hl
      cases h
      exact decodeAtLeaf_error hl
    · cases h
  · exact decodeAtInternal_error h

theorem decodeLoop_error {c : Config} {nnodes : Nat} {root : Handle} {f : Failure} :
    ∀ {rem i : Nat} {cur : Handle} {out : Nat} {m : Memory},
    decodeLoop c nnodes root rem i cur out m = .error f → isDecodeError f.err := by
  intro rem
  induction rem with
  | zero => intro i cur out m h; cases h
  | succ rem ih =>
    intro i cur out m h
    simp only [decodeLoop] at h
    split at h
    · rename_i hb
      cases h
      exact decodeBit_error hb
    · exact ih h

theorem visit_error {c : Config} {nnodes : Nat} {m : Memory} {h : Handle} {d n : Nat} {f : Failure}
    (hv : visit c nnodes m h d n = .error f) : f = invalidTree h d := by
  unfold visit at hv
  simp only at hv
  split at hv
  · cases hv; rfl
  · split at hv
    · split at hv
      · cases hv; rfl
      · split at hv <;> cases hv
        rfl
    · split at hv
      · cases hv; rfl
      · split at hv <;> cases hv
        rfl

theorem walk_error {c : Config} {nnodes : Nat} {f : Failure} : ∀ {room : Nat} {path : List Bool} {h : Handle} {n : Nat}
    {m : Memory}, walk c nnodes room path h n m = .error f → f.err = .invalidTree := by
  intro room
  induction room with
  | zero =>
    intro path h n m hw
    simp only [walk] at hw
    split at hw
    · rename_i hv
      cases hw
      rw [visit_error hv]
      rfl
    · cases hw
    · cases hw; rfl
  | succ room ih =>
    intro path h n m hw
    simp only [walk] at hw
    split at hw
    · rename_i hv
      cases hw
      rw [visit_error hv]
      rfl
    · cases hw
    · split at hw
      · rename_i hl
        cases hw
        exact ih hl
      · exact ih hw

theorem gencodesTraversal_error {s : State} {f : Failure} (h : gencodesTraversal s = .error f) : f.err = .invalidTree := by
  unfold gencodesTraversal at h
  split at h
  · unfold singleLeaf at h
    split at h
    · cases h; rfl
    · cases h
  · exact walk_error h

/-- Which errors each command raises (R190 to R194). -/
def raisable (i : Instr) (e : Err) : Prop :=
  match i with
  | .count => e = .badLength ∨ e = .capacity
  | .build => e = .badLength ∨ e = .emptyInput
  | .gencodes => e = .badLength ∨ e = .invalidTree
  | .encode => e = .badLength ∨ e = .unknownSymbol ∨ e = .capacity
  | .decode => e = .badLength ∨ isDecodeError e

theorem runOf_error {i : Instr} {s : State} {f : Failure} (h : runOf i s = .error f) : raisable i f.err := by
  cases i with
  | count =>
    rcases countRun_error h with ⟨-, rfl⟩ | ⟨-, hl⟩
    · exact .inl rfl
    · exact .inr (countLoop_error hl)
  | build =>
    rcases buildRun_error h with ⟨-, rfl⟩ | ⟨-, rfl⟩
    · exact .inl rfl
    · exact .inr rfl
  | gencodes =>
    rcases gencodesRun_error h with ⟨-, rfl⟩ | ⟨-, rfl⟩ | hl
    · exact .inl rfl
    · exact .inr rfl
    · exact .inr (gencodesTraversal_error hl)
  | encode =>
    rcases encodeRun_error h with ⟨-, rfl⟩ | ⟨-, -, rfl⟩ | ⟨-, -, hl⟩
    · exact .inl rfl
    · exact .inl rfl
    · exact .inr (encodeLoop_error hl)
  | decode =>
    rcases decodeRun_error h with ⟨-, rfl⟩ | ⟨-, -, rfl⟩ | ⟨-, rfl⟩ | hl | ⟨-, -, -, -, -, rfl⟩
    · exact .inl rfl
    · exact .inl rfl
    · exact .inr (.inl rfl)
    · exact .inr (decodeLoop_error hl)
    · exact .inr (.inr (.inl rfl))

/-- No command raises `success` or IllegalCommand (R195, R197). -/
theorem raisable_ne {i : Instr} {e : Err} (h : raisable i e) : e ≠ .success ∧ e ≠ .illegalCommand := by
  cases i <;> simp only [raisable, isDecodeError] at h <;> constructor <;> rintro rfl <;> simp at h

theorem runOf_error_ne_success {i : Instr} {s : State} {f : Failure} (h : runOf i s = .error f) : f.err ≠ .success :=
  (raisable_ne (runOf_error h)).1

/-! ## The canonical form along a command -/

/-- The memories and HEAP are canonical, and the free values in use were drawn at the latest now: what a command keeps of `Inv`
up to the moment STACK and the working registers are drawn anew. -/
structure OutputsLegal (s : State) : Prop where
  memory : Memory.wf s.cfg s.mem
  heap : hiddenWf s.cfg.nsym s.heap
  heapn : s.heapn.toNat ≤ s.cfg.nsym
  symbuf : s.mem.symbuf.epoch ≤ s.fresh
  bitbuf : s.mem.bitbuf.epoch ≤ s.fresh
  freq : s.mem.freq.epoch ≤ s.fresh
  node : s.mem.node.epoch ≤ s.fresh
  code : s.mem.code.epoch ≤ s.fresh
  heapEpoch : s.heap.epoch ≤ s.fresh

theorem hiddenWf_unwritten {α : Type} (cap e : Nat) : hiddenWf cap (Store.unwritten (α := α) e) :=
  ⟨List.Pairwise.nil, fun _ h => absurd h List.not_mem_nil⟩

theorem hiddenWf_heapStore {cap e : Nat} {q : List Handle} (h : q.length ≤ cap) : hiddenWf cap (heapStore e q) := by
  have hfst : (heapStore e q).cells.map Prod.fst = List.range q.length := by
    simp [heapStore, Function.comp_def, List.range_eq_range']
  refine ⟨?_, fun p hp => ?_⟩
  · rw [rising, hfst]
    exact List.pairwise_lt_range
  · have hmem := List.mem_map_of_mem (f := Prod.fst) hp
    rw [hfst, List.mem_range] at hmem
    omega

theorem outputsLegal_of_inv {s : State} (h : Inv s) : OutputsLegal s := by
  obtain ⟨hs, hb, hf, hn, hc, hh, -⟩ := h.epochs
  exact ⟨h.memory, h.heap, h.heapn, hs.le, hb.le, hf.le, hn.le, hc.le, hh.le⟩

/-- A completion of legal outputs is a legal state: STACK is drawn anew, and STATUS, PHASE and the details agree (R197). -/
theorem OutputsLegal.inv_complete {s : State} (h : OutputsLegal s) {e : Err} {info pos : Word}
    (hok : e = .success → info = 0 ∧ pos = 0) : Inv (complete e info pos (spoilWork s)) where
  memory := h.memory
  heap := h.heap
  heapn := h.heapn
  stack := hiddenWf_unwritten _ _
  epochs := by
    have := h.symbuf; have := h.bitbuf; have := h.freq; have := h.node; have := h.code; have := h.heapEpoch
    simp only [complete_mem, spoilWork_mem, complete_heap, spoilWork_heap, complete_stack, spoilWork_stack, complete_fresh,
      spoilWork_fresh, Store.unwritten]
    omega
  phaseIdle := by simp
  notBusyAndDone := by simp
  running := by simp
  noDetail := by simpa using hok

theorem anyHeapn_le (s : State) : (anyHeapn s).toNat ≤ s.cfg.nsym := by
  have hlt : (Config.anyWord .heapn s.fresh 0).toNat % (s.cfg.nsym + 1) < s.cfg.nsym + 1 := Nat.mod_lt _ (Nat.succ_pos _)
  exact (Nat.mod_le _ _).trans (by omega)

/-- A failure's effect on the outputs keeps them legal (R198). -/
theorem OutputsLegal.emptyOutput {s : State} (h : OutputsLegal s) (i : Instr) : OutputsLegal (emptyOutput i s) := by
  obtain ⟨⟨ms, mb, mf, mn, mc⟩, hh, hn, es, eb, ef, en, ec, eh⟩ := h
  have hbits : rising ([] : List (Nat × Bool)) ∧ ∀ p ∈ ([] : List (Nat × Bool)), p.1 < s.cfg.bitN :=
    ⟨List.Pairwise.nil, fun _ h => absurd h List.not_mem_nil⟩
  cases i with
  | count => exact ⟨⟨ms, mb, wordsWf_unwritten _ _ _, mn, mc⟩, hh, hn, es, eb, le_refl _, en, ec, eh⟩
  | build => exact ⟨⟨ms, mb, mf, mn, mc⟩, hiddenWf_unwritten _ _, anyHeapn_le s, es, eb, ef, en, ec, le_refl _⟩
  | gencodes => exact ⟨⟨ms, mb, mf, mn, wordsWf_unwritten _ _ _⟩, hh, hn, es, eb, ef, en, le_refl _, eh⟩
  | encode => exact ⟨⟨ms, hbits, mf, mn, mc⟩, hh, hn, es, le_refl _, ef, en, ec, eh⟩
  | decode => exact ⟨⟨wordsWf_unwritten _ _ _, mb, mf, mn, mc⟩, hh, hn, le_refl _, eb, ef, en, ec, eh⟩

/-- The two loops of BUILD: 2n - 1 nodes, one handle left in the heap, and NODE the only memory written (R122, R124). -/
theorem buildLoops_keeps {c : Config} {n : Nat} {m : Memory} (hm : Memory.wf c m) (h1 : 1 ≤ n) (h2 : n ≤ c.nsym) :
    (buildLoops c n m).1 = 2 * n - 1 ∧ Memory.wf c (buildLoops c n m).2.1 ∧ (buildLoops c n m).2.2.length = 1 ∧
    (buildLoops c n m).2.1.symbuf = m.symbuf ∧ (buildLoops c n m).2.1.bitbuf = m.bitbuf ∧
    (buildLoops c n m).2.1.freq = m.freq ∧ (buildLoops c n m).2.1.code = m.code ∧
    (buildLoops c n m).2.1.node.epoch = m.node.epoch := by
  obtain ⟨lwf, llen, ls, lb, lf, lc, ln⟩ := leafLoop_keeps (j := 0) (q := []) hm h2
  unfold buildLoops
  generalize leafLoop c n 0 m [] = l at *
  rw [List.length_nil, Nat.zero_add] at llen
  have hmax : nnodeMax c = 2 * c.nsym - 1 := rfl
  obtain ⟨gk, gwf, glen, gs, gb, gf, gc, gn⟩ := mergeLoop_keeps (bound := n) (k := n) (q := l.2) lwf (by omega) (by omega)
    (by omega)
  exact ⟨by rw [gk]; omega, gwf, glen, gs.trans ls, gb.trans lb, gf.trans lf, gc.trans lc, gn.trans ln⟩

/-- The traversal of GENCODES writes CODE only, and keeps the canonical form. -/
theorem gencodesTraversal_keeps {s : State} {n : Nat} {m : Memory} (hm : Memory.wf s.cfg s.mem)
    (h : gencodesTraversal s = .ok (n, m)) :
    Memory.wf s.cfg m ∧ n ≤ s.cfg.nsym ∧ m.symbuf = s.mem.symbuf ∧ m.bitbuf = s.mem.bitbuf ∧ m.freq = s.mem.freq ∧
      m.node = s.mem.node ∧ m.code.epoch = s.mem.code.epoch := by
  have hnsym := (config_bounds s.cfg).1
  unfold gencodesTraversal at h
  split at h
  · unfold singleLeaf at h
    split at h
    · cases h
    · cases h
      exact ⟨memory_wf_setCode hm (by omega) _ _ _, hnsym, by simp⟩
  · obtain ⟨hwf, -, hle, rest⟩ := walk_keeps hm (Nat.zero_le _) h
    exact ⟨hwf, hle, rest⟩

/-- The outputs of a successful command are legal. -/
theorem OutputsLegal.runOf {i : Instr} {s u : State} (h : OutputsLegal s) (hr : runOf i s = .ok u) : OutputsLegal u := by
  obtain ⟨hm, hh, hn, es, eb, ef, en, ec, eh⟩ := h
  cases i with
  | count =>
    obtain ⟨-, n, m, hl, rfl⟩ := countRun_ok hr
    obtain ⟨hwf, -, -, ks, kb, kn, kc, kf⟩ := countLoop_keeps hm (Nat.zero_le _) hl
    exact ⟨hwf, hh, hn, by rwa [ks], by rwa [kb], by rwa [kf], by rwa [kn], by rwa [kc], eh⟩
  | build =>
    obtain ⟨h1, h2, rfl⟩ := buildRun_ok hr
    obtain ⟨-, hwf, hlen, ks, kb, kf, kc, kn⟩ := buildLoops_keeps hm h1 h2
    have hnsym := (config_bounds s.cfg).1
    refine ⟨hwf, hiddenWf_heapStore (hlen.trans_le hnsym), ?_, by rwa [ks], by rwa [kb], by rwa [kf], by rwa [kn], by rwa [kc],
      le_refl _⟩
    simp only [hlen]
    exact hnsym
  | gencodes =>
    obtain ⟨-, -, n, m, hl, rfl⟩ := gencodesRun_ok hr
    obtain ⟨hwf, -, ks, kb, kf, kn, kc⟩ := gencodesTraversal_keeps hm hl
    exact ⟨hwf, hh, hn, by rwa [ks], by rwa [kb], by rwa [kf], by rwa [kn], by rwa [kc], eh⟩
  | encode =>
    obtain ⟨-, -, out, m, hl, rfl⟩ := encodeRun_ok hr
    obtain ⟨hwf, -, -, ks, kf, kn, kc, kb⟩ := encodeLoop_keeps hm (Nat.zero_le _) hl
    exact ⟨hwf, hh, hn, by rwa [ks], by rwa [kb], by rwa [kf], by rwa [kn], by rwa [kc], eh⟩
  | decode =>
    obtain ⟨-, -, -, out, m, hl, rfl⟩ := decodeRun_ok hr
    obtain ⟨hwf, -, -, kb, kf, kn, kc, ks⟩ := decodeLoop_keeps hm (Nat.zero_le _) hl
    exact ⟨hwf, hh, hn, by rwa [ks], by rwa [kb], by rwa [kf], by rwa [kn], by rwa [kc], eh⟩

/-- A command completes a legal state in a legal state. -/
theorem inv_exec {i : Instr} {s t : State} (h : Inv s) (hx : exec i s = .next t) : Inv t := by
  rcases exec_cases hx with ⟨u, hr, rfl⟩ | ⟨f, hr, rfl⟩
  · exact ((outputsLegal_of_inv h).runOf hr).inv_complete fun _ => ⟨rfl, rfl⟩
  · exact ((outputsLegal_of_inv h).emptyOutput i).inv_complete fun he => absurd he (runOf_error_ne_success hr)

end Sys2Proof.Machine
end

section
/-! PROOFS. What a host write can do, the invariant along a step (O51, O52), and where PHASE changes (O55). -/

namespace Sys2Proof.Machine
open Sys2Proof.Safety

/-! ## What a host write can do to the registers and the epochs -/

/-- STATUS, PHASE, CMDW and the details as they were, but for DONE, which a write to STATUS may clear while BUSY = 0. -/
structure SameControl (s t : State) : Prop where
  phase : t.phase = s.phase
  cmdw : t.cmdw = s.cmdw
  errinfo : t.errinfo = s.errinfo
  errpos : t.errpos = s.errpos
  busy : t.status.busy = s.status.busy
  err : t.status.err = s.status.err
  op : t.status.op = s.status.op
  done : t.status.done = true → s.status.done = true

theorem SameControl.refl (s : State) : SameControl s s := ⟨rfl, rfl, rfl, rfl, rfl, rfl, rfl, id⟩

/-- A write anywhere but to CMD leaves the control state alone (R26, R69). -/
theorem storeAt_sameControl {l : Location} (h : l ≠ .cmd) (d : Word) (s : State) : SameControl s (storeAt l d s) := by
  cases l with
  | cmd => exact absurd rfl h
  | _ => constructor <;> simp +contextual [storeAt]

/-- A host write is the acceptance of a command, or leaves the control state alone (R66, R94). -/
theorem hostWrite_cases (a : HostAddr) (d : Word) (s : State) :
    (s.status.busy = false ∧ a = 0x01 ∧ hostWrite a d s = accept d s) ∨ SameControl s (hostWrite a d s) := by
  by_cases hl : locate s.cfg a = .cmd
  · cases hb : s.status.busy with
    | false => exact .inl ⟨rfl, (locate_cmd_iff _ _).mp hl, by rw [hostWrite_idle hb, hl]; rfl⟩
    | true =>
      have hw : hostWrite a d s = s := by simp [hostWrite, hb, hl, writableWhileBusy]
      rw [hw]
      exact .inr (SameControl.refl s)
  · right
    unfold hostWrite
    simp only
    split
    · exact SameControl.refl s
    · exact storeAt_sameControl hl d s

/-- The unwritten elements of the two memories read the same free values. -/
def sameEpochs (m m' : Memory) : Prop :=
  m'.symbuf.epoch = m.symbuf.epoch ∧ m'.bitbuf.epoch = m.bitbuf.epoch ∧ m'.freq.epoch = m.freq.epoch ∧
  m'.node.epoch = m.node.epoch ∧ m'.code.epoch = m.code.epoch

theorem hostWrite_sameEpochs (a : HostAddr) (d : Word) (s : State) : sameEpochs s.mem (hostWrite a d s).mem := by
  unfold hostWrite
  simp only
  split
  · exact ⟨rfl, rfl, rfl, rfl, rfl⟩
  · cases locate s.cfg a <;>
      simp [storeAt, sameEpochs, setFreqWord, setNodeWord, setCodeWord, setBitWord]

/-! ## The invariant along a step -/

/-- The pending inputs and the port's last word are no part of the invariant. -/
theorem inv_congr {s : State} (h : Inv s) (inputs : List Input) (rdata : Word) :
    Inv { s with inputs := inputs, rdata := rdata } :=
  ⟨h.memory, h.heap, h.heapn, h.stack, h.epochs, h.phaseIdle, h.notBusyAndDone, h.running, h.noDetail⟩

theorem inv_pinReset (s : State) : Inv (pinReset s) where
  memory := ⟨wordsWf_unwritten _ _ _, hiddenWf_unwritten _ _, wordsWf_unwritten _ _ _, wordsWf_unwritten _ _ _,
    wordsWf_unwritten _ _ _⟩
  heap := hiddenWf_unwritten _ _
  heapn := Nat.zero_le _
  stack := hiddenWf_unwritten _ _
  epochs := by simp [Store.unwritten]
  phaseIdle := by simp
  notBusyAndDone := by simp
  running := by simp
  noDetail := by simp

theorem inv_rejectCommand {s : State} (h : Inv s) : Inv (rejectCommand s) where
  memory := h.memory
  heap := h.heap
  heapn := h.heapn
  stack := h.stack
  epochs := h.epochs
  phaseIdle := by simp
  notBusyAndDone := by simp
  running := by simp
  noDetail := by simp

/-- An acceptance makes the control state that of the running word (R94). -/
theorem inv_accept {s : State} (h : Inv s) (w : Word) : Inv (accept w s) where
  memory := h.memory
  heap := h.heap
  heapn := h.heapn
  stack := h.stack
  epochs := h.epochs
  phaseIdle := by simp [phaseOf_ne_idle]
  notBusyAndDone := by simp
  running := by simp
  noDetail := by simp

theorem inv_hostWrite {s : State} (h : Inv s) (a : HostAddr) (d : Word) : Inv (hostWrite a d s) := by
  rcases hostWrite_cases a d s with ⟨-, -, hw⟩ | hc
  · rw [hw]
    exact inv_accept h d
  · obtain ⟨hcfg, hheap, hheapn, hstack, -, -, -, hfresh⟩ := hostWrite_frame a d s
    obtain ⟨es, eb, ef, en, ec⟩ := hostWrite_sameEpochs a d s
    constructor
    case memory => rw [hcfg]; exact hostWrite_memory_wf h.memory a d
    case heap => rw [hcfg, hheap]; exact h.heap
    case heapn => rw [hcfg, hheapn]; exact h.heapn
    case stack => rw [hcfg, hstack]; exact h.stack
    case epochs => rw [es, eb, ef, en, ec, hheap, hstack, hfresh]; exact h.epochs
    case phaseIdle => rw [hc.phase, hc.busy]; exact h.phaseIdle
    case notBusyAndDone => exact fun hbd => h.notBusyAndDone ⟨hc.busy ▸ hbd.1, hc.done hbd.2⟩
    case running => rw [hc.busy, hc.phase, hc.cmdw, hc.op, hc.err]; exact h.running
    case noDetail => rw [hc.err, hc.errinfo, hc.errpos]; exact h.noDetail

theorem inv_engineMove {s t : State} (h : Inv s) (hm : engineMove s = .next t) : Inv t := by
  rcases engineMove_cases hm with ⟨-, rfl⟩ | ⟨-, i, -, hx⟩ | ⟨-, -, rfl⟩
  · exact h
  · exact inv_exec h hx
  · exact inv_rejectCommand h

/-- Settles O51: every move of the engine and of the host keeps each part of the invariant. -/
theorem everyStepKeepsTheStateLegal : Obligations.EveryStepKeepsTheStateLegal := by
  intro s t h hstep
  obtain ⟨s', hs', hmove⟩ := step_cases hstep
  have h' : Inv s' := by
    rcases hs' with rfl | ⟨-, -, hs'⟩
    · exact h
    · rw [hs']
      exact inv_congr h _ _
  rcases hmove with hm | ⟨a, rfl⟩ | ⟨a, d, rfl⟩ | rfl
  · exact inv_engineMove h' hm
  · exact inv_congr h' _ _
  · exact inv_hostWrite h' a d
  · exact inv_pinReset s'

/-- Settles O52: at reset every memory is unwritten and nothing runs. -/
theorem resetStateIsLegal : Obligations.ResetStateIsLegal where
  memory := memory_wf_reset
  heap := hiddenWf_unwritten _ _
  heapn := Nat.zero_le _
  stack := hiddenWf_unwritten _ _
  epochs := by decide
  phaseIdle := by decide
  notBusyAndDone := by decide
  running := by decide
  noDetail := by decide

/-- Whatever the engine does, it leaves PHASE alone or completes (R197). -/
theorem engineMove_phase {s t : State} (h : engineMove s = .next t) :
    t.phase = s.phase ∨ (s.status.busy = true ∧ t.phase = .idle ∧ t.status.busy = false ∧ t.status.done = true) := by
  rcases engineMove_cases h with ⟨-, rfl⟩ | ⟨hb, i, -, hx⟩ | ⟨hb, -, rfl⟩
  · exact .inl rfl
  · rcases exec_cases hx with ⟨u, -, rfl⟩ | ⟨f, -, rfl⟩ <;> exact .inr ⟨hb, by simp⟩
  · exact .inr ⟨hb, by simp⟩

/-- Settles O55, by the input performed: only a write to CMD, the engine and `rst` touch PHASE. -/
theorem phaseChangesOnlyAtAcceptanceAndEnd : Obligations.PhaseChangesOnlyAtAcceptanceAndEnd := by
  intro s t hstep
  cases hin : s.inputs with
  | nil =>
    rw [step_no_input hin] at hstep
    rcases engineMove_phase hstep with h | h
    · exact .inl h
    · exact .inr (.inr (.inl h))
  | cons e rest =>
    rw [step_input hin] at hstep
    cases e with
    | hostRead a => cases hstep; exact .inl rfl
    | hostWrite a d =>
      cases hstep
      rcases hostWrite_cases a d { s with inputs := rest } with ⟨hb, rfl, hw⟩ | hc
      · refine .inr (.inl ⟨hb, ?_, d, rest, rfl, ?_⟩) <;> rw [hw]
        · rfl
        · exact ⟨rfl, phaseOf_ne_idle d⟩
      · exact .inl hc.phase
    | tick =>
      rcases engineMove_phase hstep with h | h
      · exact .inl h
      · exact .inr (.inr (.inl h))
    | rst => cases hstep; exact .inr (.inr (.inr ⟨rfl, rest, rfl⟩))

end Sys2Proof.Machine
end

section
/-! PROOFS. The registers and CODE.bits at the host port (O11, O12, O15, O16), and the hidden state (O50). -/

namespace Sys2Proof.Machine
open Sys2Proof.Safety

/-! ## The registers and CODE.bits at the host port -/

/-- Settles O16: address 0x02 is STATUS, and an idle HUFFCORE stores there. -/
theorem writeToStatusClearsDoneOnly : Obligations.WriteToStatusClearsDoneOnly := by
  intro s d rest hb hin
  rw [step_input hin]
  exact congrArg Host.Outcome.next (hostWrite_idle (s := { s with inputs := rest }) hb 0x02 d)

/-- What an idle HUFFCORE reads back at a register, CMD apart: the register after the store. -/
theorem readBack_eq {s : State} (hb : s.status.busy = false) (a : HostAddr) (d : Word) (hc : locate s.cfg a ≠ .cmd) :
    readBack s a d = (wordAt (storeAt (locate s.cfg a) d s) (locate s.cfg a)).toNat :=
  congrArg _ (hostRead_hostWrite_idle hb rfl hc)

/-- Settles O12, register by register. -/
theorem registersReadBackWhatIsWritten : Obligations.RegistersReadBackWhatIsWritten := by
  intro s d hb
  have hctrl : (BitVec.ofNat 32 (d.getLsbD 0).toNat).toNat = d.toNat % 2 := by
    rw [BitVec.getLsbD, Nat.testBit_zero]
    rcases Nat.mod_two_eq_zero_or_one d.toNat with h | h <;> simp [h]
  have hroot : ((d.setWidth 9).setWidth 32).toNat = d.toNat % 512 := by
    simp only [BitVec.toNat_setWidth]
    omega
  refine ⟨?_, hostRead_idle hb 0x01, ?_, ?_, ?_, ?_, ?_, ?_, ?_, ?_⟩
  · exact (readBack_eq hb 0x00 d nofun).trans hctrl
  · exact readBack_eq hb 0x03 d nofun
  · exact readBack_eq hb 0x04 d nofun
  · exact readBack_eq hb 0x05 d nofun
  · exact readBack_eq hb 0x06 d nofun
  · exact readBack_eq hb 0x07 d nofun
  · exact readBack_eq hb 0x08 d nofun
  · exact (readBack_eq hb 0x09 d nofun).trans hroot
  · exact readBack_eq hb 0x0A d nofun

/-- Word `2 + m` of a CODE element holds the bits of its code from 32m to MAXLEN - 1 (R40, log 10). -/
theorem codeWidth_bits (c : Config) (j : Nat) {m : Nat} (hm : m < 8) :
    codeWidth c ((16 * j + (2 + m)) % 16) = min 32 (maxLen c - 32 * m) := by
  rw [show (16 * j + (2 + m)) % 16 = 2 + m by omega]
  unfold codeWidth
  rw [if_neg (by omega), if_neg (by omega), if_pos (by omega), Nat.add_sub_cancel_left]

/-- Settles O11: the word keeps its low bits, and it has MAXLEN - 32m of them. -/
theorem codeBitsFieldHasMaxlenBits : Obligations.CodeBitsFieldHasMaxlenBits := by
  intro s d hb j hj m hm k hk
  rw [hostRead_hostWrite_idle hb (locate_codeAddr s.cfg hj (by omega)) nofun]
  simp only [wordAt, storeAt]
  rw [codeWord_setCodeWord, if_pos rfl, keepLow_getLsbD, codeWidth_bits _ _ hm]
  congr 1
  rw [decide_eq_decide]
  unfold maxLen
  omega

/-! ## STATUS as the host reads it -/

/-- STATUS is read at all times (R66). -/
theorem hostRead_status (s : State) : hostRead s 0x02 = statusWord s.status := by
  have hl : locate s.cfg 0x02 = .status := rfl
  simp only [hostRead, hl, readableWhileBusy, Bool.not_true, Bool.and_false, wordAt]
  rfl

/-- The number of the STATUS word: its four fields at bits 0, 1, 4 and 8 (R26). -/
theorem statusWord_toNat (st : Status) : (statusWord st).toNat =
    st.busy.toNat + 2 * st.done.toNat + 16 * (errCode st.err).toNat + 256 * st.op.toNat := by
  have := Bool.toNat_le st.busy; have := Bool.toNat_le st.done
  have := (errCode st.err).isLt; have := st.op.isLt
  rw [statusWord, BitVec.toNat_ofNat]
  omega

/-- A field of a word, as a number. -/
theorem extractLsb'_eq_of_toNat {w : Word} {i n : Nat} {v : BitVec n} (h : w.toNat / 2 ^ i % 2 ^ n = v.toNat) :
    w.extractLsb' i n = v := by
  apply BitVec.eq_of_toNat_eq
  rw [BitVec.extractLsb'_toNat, Nat.shiftRight_eq_div_pow, h]

/-- A bit of a word, as a number. -/
theorem getLsbD_eq_of_toNat {w : Word} {i : Nat} {b : Bool} (h : w.toNat / 2 ^ i % 2 = b.toNat) : w.getLsbD i = b := by
  rw [BitVec.getLsbD, Nat.testBit_eq_decide_div_mod_eq, h]
  cases b <;> rfl

/-- Settles O15: every bit of the word is the digit of its number, and the four fields do not overlap. -/
theorem statusWordHasItsFieldsAndNothingElse : Obligations.StatusWordHasItsFieldsAndNothingElse := by
  intro s
  rw [hostRead_status]
  have hw := statusWord_toNat s.status
  have hbusy := Bool.toNat_le s.status.busy
  have hdone := Bool.toNat_le s.status.done
  have herr := (errCode s.status.err).isLt
  have hop := s.status.op.isLt
  refine ⟨getLsbD_eq_of_toNat ?_, getLsbD_eq_of_toNat ?_, extractLsb'_eq_of_toNat ?_,
    (extractLsb'_eq_of_toNat (v := errCode s.status.err) ?_).trans ?_, getLsbD_eq_of_toNat ?_,
    extractLsb'_eq_of_toNat ?_, extractLsb'_eq_of_toNat ?_⟩
  case refine_5 => cases s.status.err <;> rfl
  all_goals simp only [hw, BitVec.toNat_ofNat, Bool.toNat_false]; omega

/-! ## The hidden state is unobservable (R43) -/

/-- The state with HEAP, HEAPN, STACK, the working registers and CMDW forgotten. -/
def forgetHidden (s : State) : State :=
  { s with heap := .unwritten 0, heapn := 0, stack := .unwritten 0, work := .zero, cmdw := 0 }

@[simp] theorem wordAt_forgetHidden (s : State) (l : Location) : wordAt (forgetHidden s) l = wordAt s l := by cases l <;> rfl

/-- No run of a command reads hidden state: it ends the same way, in outputs that agree but for hidden state. -/
theorem runOf_forgetHidden (i : Instr) (s : State) :
    (runOf i (forgetHidden s)).map forgetHidden = (runOf i s).map forgetHidden := by
  cases i with
  | count =>
    dsimp only [runOf, countRun, forgetHidden]
    rcases countLoop s.cfg s.slen.toNat 0 0 s.mem with f | ⟨n, m⟩ <;> split_ifs <;> rfl
  | build =>
    dsimp only [runOf, buildRun, forgetHidden]
    split_ifs <;> rfl
  | gencodes =>
    dsimp only [runOf, gencodesRun, forgetHidden]
    cases (node s.cfg s.mem s.root.toNat).kind
    · rcases singleLeaf s.cfg s.root (node s.cfg s.mem s.root.toNat) s.mem with f | ⟨n, m⟩ <;> split_ifs <;> rfl
    · rcases walk s.cfg s.nnodes.toNat (maxLen s.cfg) [] s.root 0 s.mem with f | ⟨n, m⟩ <;> split_ifs <;> rfl
  | encode =>
    dsimp only [runOf, encodeRun, forgetHidden]
    rcases encodeLoop s.cfg s.ncode.toNat s.slen.toNat 0 0 s.mem with f | ⟨out, m⟩ <;> split_ifs <;> rfl
  | decode =>
    dsimp only [runOf, decodeRun, forgetHidden]
    rcases decodeLoop s.cfg s.nnodes.toNat s.root s.blen.toNat 0 s.root 0 s.mem with f | ⟨cur, out, m⟩
    · split_ifs <;> rfl
    · dsimp only
      split_ifs <;> rfl

theorem forgetHidden_succeed (u : State) : forgetHidden (succeed u) = forgetHidden (succeed (forgetHidden u)) := rfl

theorem forgetHidden_raise (i : Instr) (f : Failure) (s : State) :
    forgetHidden (raise i f s) = forgetHidden (raise i f (forgetHidden s)) := by cases i <;> rfl

/-- The end of a command shows no hidden state of its start or of its run. -/
theorem forgetHidden_finish (i : Instr) {s s' : State} {r r' : Except Failure State} (h : forgetHidden s = forgetHidden s')
    (hr : r.map forgetHidden = r'.map forgetHidden) : forgetHidden (finish i s r) = forgetHidden (finish i s' r') := by
  cases r with
  | ok u =>
    cases r' with
    | ok u' =>
      have hu : forgetHidden u = forgetHidden u' := Except.ok.inj hr
      rw [finish_ok, finish_ok, forgetHidden_succeed, hu, ← forgetHidden_succeed]
    | error f' => cases hr
  | error f =>
    cases r' with
    | ok u' => cases hr
    | error f' =>
      have hf : f = f' := Except.error.inj hr
      rw [finish_error, finish_error, forgetHidden_raise, h, hf, ← forgetHidden_raise]

/-- Commands run from states that agree but for hidden state end in states that agree but for hidden state. -/
theorem forgetHidden_exec {i : Instr} {s s' t t' : State} (hx : exec i s = .next t) (hx' : exec i s' = .next t')
    (h : forgetHidden s = forgetHidden s') : forgetHidden t = forgetHidden t' := by
  rw [exec_eq_finish] at hx hx'
  cases hx
  cases hx'
  refine forgetHidden_finish i h ?_
  rw [← runOf_forgetHidden i s, h, runOf_forgetHidden]

/-- Settles O50: the two runs start and end in states that agree but for hidden state, and the port shows none of it. -/
theorem hiddenStateIsUnobservable : Obligations.HiddenStateIsUnobservable := by
  intro i s t t' heap heapn stack work cmdw hx hx' l
  rw [← wordAt_forgetHidden t', ← wordAt_forgetHidden t, forgetHidden_exec hx' hx rfl]

end Sys2Proof.Machine
end

section
/-! PROOFS. The tree BUILD makes (O26): the heap keeps its handles, and the queue names the roots of a forest. -/

namespace Sys2Proof.Machine
open Sys2Proof.Safety

/-! ## The heap operations only rearrange handles (R125, R126) -/

theorem heapAt_eq_getElem {q : List Handle} {p : Nat} (h : p < q.length) : heapAt q p = q[p] := List.getD_eq_getElem _ _ h

theorem heapSwap_perm {q : List Handle} {p r : Nat} (hp : p < q.length) (hr : r < q.length) : (heapSwap q p r).Perm q := by
  rw [heapSwap, heapAt_eq_getElem hp, heapAt_eq_getElem hr]
  exact List.set_set_perm hp hr

theorem siftUp_perm (c : Config) (m : Memory) {bound p : Nat} {q : List Handle} (h : p < q.length) :
    (siftUp c m bound p q).Perm q := by
  induction bound generalizing p q with
  | zero => rfl
  | succ bound ih =>
    rw [siftUp]
    split
    · simp only
      split
      · exact (ih (by rw [heapSwap_length]; omega)).trans (heapSwap_perm h (by omega))
      · rfl
    · rfl

theorem heapInsert_perm (c : Config) (m : Memory) (h : Handle) (q : List Handle) : (heapInsert c m h q).Perm (h :: q) :=
  (siftUp_perm c m (by simp)).trans (List.perm_append_singleton h q)

theorem leastOfThree_lt (c : Config) (m : Memory) {q : List Handle} {p : Nat} (h : p < q.length) :
    leastOfThree c m q p < q.length := by
  unfold leastOfThree
  simp only [Bool.and_eq_true, decide_eq_true_eq]
  split_ifs with hl hg hg
  · exact hg.1
  · exact hl.1
  · exact hg.1
  · exact h

theorem siftDown_perm (c : Config) (m : Memory) {bound p : Nat} {q : List Handle} (h : p < q.length) :
    (siftDown c m bound p q).Perm q := by
  induction bound generalizing p q with
  | zero => rfl
  | succ bound ih =>
    have ht := leastOfThree_lt c m h
    simp only [siftDown]
    split
    · rfl
    · exact (ih (by rwa [heapSwap_length])).trans (heapSwap_perm h ht)

/-- The handle extracted and the heap left are the heap there was (R126). -/
theorem heapExtractMin_perm (c : Config) (m : Memory) {q : List Handle} (h : q ≠ []) :
    ((heapExtractMin c m q).1 :: (heapExtractMin c m q).2).Perm q := by
  obtain ⟨q', z, rfl⟩ := List.eq_nil_or_concat q |>.resolve_left h
  unfold heapExtractMin
  cases q' with
  | nil => simp [heapAt]
  | cons x rest =>
    have hlast : heapAt (x :: rest ++ [z]) ((x :: rest ++ [z]).length - 1) = z := by simp [heapAt]
    have hfirst : heapAt (x :: rest ++ [z]) 0 = x := rfl
    simp only [List.concat_eq_append, List.dropLast_concat, List.isEmpty_cons, hlast, hfirst, List.set_cons_zero]
    have hsift := siftDown_perm c m (bound := (x :: rest).length) (p := 0) (q := z :: rest) (by simp)
    exact (hsift.cons x).trans ((List.perm_append_singleton z rest).symm.cons x)

/-! ## The forest of a queue -/

/-- Node `p` has the node of handle `g` as a child. -/
def isParent (c : Config) (m : Memory) (p g : Nat) : Prop := (node c m p).left.toNat = g ∨ (node c m p).right.toNat = g

/-- Node `h` is the merge of two different nodes of smaller handles (R124). -/
structure MergedNode (c : Config) (m : Memory) (h : Nat) : Prop where
  kind : (node c m h).kind = .internal
  sym : (node c m h).sym = 0
  left : (node c m h).left.toNat < h
  right : (node c m h).right.toNat < h
  ne : (node c m h).left ≠ (node c m h).right
  freq : (node c m h).freq.toNat =
    (nodeFreq c m (node c m h).left).toNat + (nodeFreq c m (node c m h).right).toNat

/-- The sum of the frequencies of the nodes in a queue. -/
def queueFreq (c : Config) (m : Memory) (q : List Handle) : Nat := (q.map fun x => (nodeFreq c m x).toNat).sum

/-- The sum of the counts FREQ[0 .. n-1]. -/
def countTotal (c : Config) (m : Memory) (n : Nat) : Nat := ((List.range n).map fun j => (freqCnt c m j).toNat).sum

/-- NODE[0 .. k-1] is a forest over the leaves of the table of `n` entries in `m0`: the nodes from `n` on are merges, and the
queue `q` holds the handles of the nodes without a parent, once each; every other node has one parent. -/
structure Forest (c : Config) (m0 : Memory) (n k : Nat) (m : Memory) (q : List Handle) : Prop where
  size : k + q.length = 2 * n
  le : n ≤ k
  leaves : ∀ j < n, node c m j = leafOf c m0 j
  merged : ∀ h, n ≤ h → h < k → MergedNode c m h
  nodup : q.Nodup
  below : ∀ x ∈ q, x.toNat < k
  parentless : ∀ x ∈ q, ∀ p, n ≤ p → p < k → ¬ isParent c m p x.toNat
  once : ∀ g < k, (∀ x ∈ q, x.toNat ≠ g) → ∃! p, n ≤ p ∧ p < k ∧ isParent c m p g
  total : queueFreq c m q = countTotal c m0 n

theorem Forest.perm {c : Config} {m0 : Memory} {n k : Nat} {m : Memory} {q q' : List Handle} (hf : Forest c m0 n k m q)
    (h : q.Perm q') : Forest c m0 n k m q' where
  size := h.length_eq ▸ hf.size
  le := hf.le
  leaves := hf.leaves
  merged := hf.merged
  nodup := h.nodup_iff.mp hf.nodup
  below := fun x hx => hf.below x (h.mem_iff.mpr hx)
  parentless := fun x hx => hf.parentless x (h.mem_iff.mpr hx)
  once := fun g hg hq => hf.once g hg fun x hx => hq x (h.mem_iff.mp hx)
  total := ((h.map _).sum_nat).symm.trans hf.total

/-- The sum of the counts fits in FW bits: there are at most 256 (R9, R129). -/
theorem countTotal_lt (c : Config) (m : Memory) {n : Nat} (hn : n ≤ c.nsym) : countTotal c m n < 2 ^ freqW c := by
  have hle : countTotal c m n ≤ n * (2 ^ c.cntW - 1) := by
    refine (List.sum_le_card_nsmul _ (2 ^ c.cntW - 1) fun x hx => ?_).trans (by simp)
    obtain ⟨j, -, rfl⟩ := List.mem_map.mp hx
    exact Nat.le_sub_one_of_lt (freqCnt_lt c m j)
  have hnsym := (config_bounds c).2.1
  have hpos := Nat.two_pow_pos c.cntW
  calc countTotal c m n ≤ 256 * (2 ^ c.cntW - 1) := hle.trans (Nat.mul_le_mul_right _ (by omega))
    _ < 2 ^ freqW c := by rw [freqW, Nat.pow_add]; omega

theorem freqW_le (c : Config) : freqW c ≤ 40 := by
  have := config_bounds c
  unfold freqW
  omega

/-! ### One merge (R124) -/

section Merge

variable {c : Config} {m0 m : Memory} {n k : Nat} {a b : Handle} {q : List Handle}

/-- The two frequencies of a merge add without wrap-around (R129). -/
theorem Forest.freq_add (hf : Forest c m0 n k m (a :: b :: q)) (hn : n ≤ c.nsym) :
    (nodeFreq c m a + nodeFreq c m b).toNat = (nodeFreq c m a).toNat + (nodeFreq c m b).toNat ∧
    (nodeFreq c m a).toNat + (nodeFreq c m b).toNat < 2 ^ freqW c := by
  have hlt : (nodeFreq c m a).toNat + (nodeFreq c m b).toNat < 2 ^ freqW c := by
    refine lt_of_le_of_lt ?_ (countTotal_lt c m0 hn)
    rw [← hf.total, queueFreq]
    simp only [List.map_cons, List.sum_cons]
    omega
  have hpow : 2 ^ freqW c ≤ 2 ^ 40 := Nat.pow_le_pow_right (by decide) (freqW_le c)
  exact ⟨by rw [BitVec.toNat_add, Nat.mod_eq_of_lt (by omega)], hlt⟩

/-- The memory after the merge of `a` and `b` into node `k`. -/
abbrev mergeNode (c : Config) (k : Nat) (m : Memory) (a b : Handle) : Memory := setNode c k (mergeOf c m a b) m

theorem nodeFreq_setNode_ne (c : Config) (nd : Node) (m : Memory) {k : Nat} {x : Handle} (h : x.toNat ≠ k) :
    nodeFreq c (setNode c k nd m) x = nodeFreq c m x := congrArg Node.freq (node_setNode_ne c nd m h)

theorem isParent_setNode_ne (c : Config) (nd : Node) (m : Memory) {k p g : Nat} (h : p ≠ k) :
    isParent c (setNode c k nd m) p g ↔ isParent c m p g := by rw [isParent, node_setNode_ne c nd m h, isParent]

/-- A merged node stays one when a node of a greater handle is written. -/
theorem MergedNode.setNode {h : Nat} (hm : MergedNode c m h) (nd : Node) (hk : h < k) : MergedNode c (setNode c k nd m) h := by
  have hl := hm.left
  have hr := hm.right
  have hnode := node_setNode_ne c nd m (h := k) (h' := h) (by omega)
  refine ⟨?_, ?_, ?_, ?_, ?_, ?_⟩ <;> rw [hnode]
  · exact hm.kind
  · exact hm.sym
  · exact hl
  · exact hr
  · exact hm.ne
  · rw [nodeFreq_setNode_ne c nd m (by omega), nodeFreq_setNode_ne c nd m (by omega)]
    exact hm.freq

/-- The node written at the merge of `a` and `b` is read back whole. -/
theorem Forest.node_merge (hf : Forest c m0 n k m (a :: b :: q)) (hn : n ≤ c.nsym) :
    node c (mergeNode c k m a b) k = mergeOf c m a b := by
  obtain ⟨hadd, hlt⟩ := hf.freq_add hn
  exact node_setNode_self c _ m k (Nat.two_pow_pos _) (hadd ▸ hlt)

theorem Forest.isParent_merge (hf : Forest c m0 n k m (a :: b :: q)) (hn : n ≤ c.nsym) (g : Nat) :
    isParent c (mergeNode c k m a b) k g ↔ a.toNat = g ∨ b.toNat = g := by
  rw [isParent, hf.node_merge hn]
  rfl

theorem Forest.handle_toNat (hf : Forest c m0 n k m (a :: b :: q)) (hn : n ≤ c.nsym) : (BitVec.ofNat 9 k).toNat = k := by
  have hsize := hf.size
  simp only [List.length_cons] at hsize
  have := (config_bounds c).2.1
  rw [BitVec.toNat_ofNat, Nat.mod_eq_of_lt (by omega)]

theorem Forest.mergedNode_merge (hf : Forest c m0 n k m (a :: b :: q)) (hn : n ≤ c.nsym) :
    MergedNode c (mergeNode c k m a b) k := by
  have ha : a.toNat < k := hf.below a (by simp)
  have hb : b.toNat < k := hf.below b (by simp)
  have hab : a ≠ b := fun h => (List.nodup_cons.mp hf.nodup).1 (h ▸ List.mem_cons_self)
  refine ⟨?_, ?_, ?_, ?_, ?_, ?_⟩ <;> rw [hf.node_merge hn]
  · rfl
  · rfl
  · exact ha
  · exact hb
  · exact hab
  · simp only [mergeOf]
    rw [nodeFreq_setNode_ne c _ m ha.ne, nodeFreq_setNode_ne c _ m hb.ne]
    exact (hf.freq_add hn).1

/-- What stays in the queue gets no parent at a merge. -/
theorem Forest.parentless_merge (hf : Forest c m0 n k m (a :: b :: q)) (hn : n ≤ c.nsym) :
    ∀ x ∈ BitVec.ofNat 9 k :: q, ∀ p, n ≤ p → p < k + 1 → ¬ isParent c (mergeNode c k m a b) p x.toNat := by
  intro x hx p hnp hp hpar
  have ha : a.toNat < k := hf.below a (by simp)
  have hb : b.toNat < k := hf.below b (by simp)
  have hk := hf.handle_toNat hn
  rcases Nat.lt_succ_iff_lt_or_eq.mp hp with hlt | rfl
  · rw [isParent_setNode_ne c _ m hlt.ne] at hpar
    rcases List.mem_cons.mp hx with rfl | hx
    · have hl := (hf.merged p hnp hlt).left
      have hr := (hf.merged p hnp hlt).right
      rcases hpar with h | h <;> omega
    · exact hf.parentless x (by simp [hx]) p hnp hlt hpar
  · rw [hf.isParent_merge hn] at hpar
    rcases List.mem_cons.mp hx with rfl | hx
    · omega
    · obtain ⟨⟨-, haq⟩, hbq, -⟩ : (a ≠ b ∧ a ∉ q) ∧ b ∉ q ∧ q.Nodup := by simpa using hf.nodup
      rcases hpar with h | h
      · exact haq (BitVec.eq_of_toNat_eq h ▸ hx)
      · exact hbq (BitVec.eq_of_toNat_eq h ▸ hx)

/-- What is out of the queue after a merge has one parent: node `k` if it is `a` or `b`, else the one it had. -/
theorem Forest.once_merge (hf : Forest c m0 n k m (a :: b :: q)) (hn : n ≤ c.nsym) :
    ∀ g < k + 1, (∀ x ∈ BitVec.ofNat 9 k :: q, x.toNat ≠ g) →
      ∃! p, n ≤ p ∧ p < k + 1 ∧ isParent c (mergeNode c k m a b) p g := by
  intro g hg hgq
  have hgk : g < k := by
    have := hgq _ List.mem_cons_self
    have := hf.handle_toNat hn
    omega
  have hold : ∀ {p}, p < k → (isParent c (mergeNode c k m a b) p g ↔ isParent c m p g) :=
    fun hp => isParent_setNode_ne c _ m hp.ne
  by_cases hgab : a.toNat = g ∨ b.toNat = g
  · refine ⟨k, ⟨hf.le, Nat.lt_succ_self k, (hf.isParent_merge hn g).mpr hgab⟩, fun p ⟨hnp, hp, hpar⟩ => ?_⟩
    by_contra hne
    have hlt : p < k := by omega
    rw [hold hlt] at hpar
    rcases hgab with rfl | rfl
    · exact hf.parentless a (by simp) p hnp hlt hpar
    · exact hf.parentless b (by simp) p hnp hlt hpar
  · obtain ⟨p, ⟨hnp, hp, hpar⟩, huniq⟩ := hf.once g hgk <| by
      rw [not_or] at hgab
      exact List.forall_mem_cons.mpr ⟨hgab.1, List.forall_mem_cons.mpr
        ⟨hgab.2, fun x hx => hgq x (List.mem_cons_of_mem _ hx)⟩⟩
    refine ⟨p, ⟨hnp, hp.trans (Nat.lt_succ_self k), (hold hp).mpr hpar⟩, fun p' ⟨hnp', hp', hpar'⟩ => ?_⟩
    rcases Nat.lt_succ_iff_lt_or_eq.mp hp' with hlt | rfl
    · exact huniq p' ⟨hnp', hlt, (hold hlt).mp hpar'⟩
    · exact absurd ((hf.isParent_merge hn g).mp hpar') hgab

/-- A merge keeps the sum of the queue's frequencies. -/
theorem Forest.queueFreq_merge (hf : Forest c m0 n k m (a :: b :: q)) (hn : n ≤ c.nsym) :
    queueFreq c (mergeNode c k m a b) (BitVec.ofNat 9 k :: q) = queueFreq c m (a :: b :: q) := by
  have hrest : queueFreq c (mergeNode c k m a b) q = queueFreq c m q :=
    congrArg List.sum (List.map_congr_left fun x hx => by rw [nodeFreq_setNode_ne c _ m (hf.below x (by simp [hx])).ne])
  have hfirst : (nodeFreq c (mergeNode c k m a b) (BitVec.ofNat 9 k)).toNat =
      (nodeFreq c m a).toNat + (nodeFreq c m b).toNat := by
    rw [nodeFreq, hf.handle_toNat hn, hf.node_merge hn]
    exact (hf.freq_add hn).1
  simp only [queueFreq, List.map_cons, List.sum_cons] at hrest ⊢
  omega

/-- The merge of the first two handles of the queue: node `k` over them, and `k` in their place. -/
theorem Forest.merge (hf : Forest c m0 n k m (a :: b :: q)) (hn : n ≤ c.nsym) :
    Forest c m0 n (k + 1) (mergeNode c k m a b) (BitVec.ofNat 9 k :: q) where
  size := by
    have hsize := hf.size
    simp only [List.length_cons] at hsize ⊢
    omega
  le := hf.le.trans (Nat.le_succ k)
  leaves := fun j hj => (node_setNode_ne c _ m (hj.trans_le hf.le).ne).trans (hf.leaves j hj)
  merged := by
    intro h hnh hh
    rcases Nat.lt_succ_iff_lt_or_eq.mp hh with hlt | rfl
    · exact (hf.merged h hnh hlt).setNode _ hlt
    · exact hf.mergedNode_merge hn
  nodup := by
    refine List.nodup_cons.mpr ⟨fun hmem => ?_, (List.nodup_cons.mp (List.nodup_cons.mp hf.nodup).2).2⟩
    have := hf.below _ (List.mem_cons_of_mem _ (List.mem_cons_of_mem _ hmem))
    have := hf.handle_toNat hn
    omega
  below := List.forall_mem_cons.mpr ⟨by rw [hf.handle_toNat hn]; omega,
    fun x hx => (hf.below x (by simp [hx])).trans (Nat.lt_succ_self k)⟩
  parentless := hf.parentless_merge hn
  once := hf.once_merge hn
  total := (hf.queueFreq_merge hn).trans hf.total

end Merge

/-- The merges end in a tree: one handle is left, the root of a forest (R124). -/
theorem mergeLoop_forest {c : Config} {m0 : Memory} {n : Nat} (hn : n ≤ c.nsym) :
    ∀ {bound k : Nat} {m : Memory} {q : List Handle},
    Forest c m0 n k m q → q.length ≤ bound + 1 → q ≠ [] →
    ∃ root, (mergeLoop c bound k m q).2.2 = [root] ∧
      Forest c m0 n (mergeLoop c bound k m q).1 (mergeLoop c bound k m q).2.1 [root] := by
  intro bound
  induction bound with
  | zero =>
    intro k m q hf hlen hne
    obtain ⟨x, rfl⟩ := List.length_eq_one_iff.mp (le_antisymm hlen (List.length_pos_iff.mpr hne))
    exact ⟨x, rfl, hf⟩
  | succ bound ih =>
    intro k m q hf hlen hne
    by_cases hq : 1 < q.length
    · rw [mergeLoop_merge hq]
      have hx := heapExtractMin_perm c m hne
      have hxlen := heapExtractMin_length c m q
      have hy := heapExtractMin_perm c m (q := (heapExtractMin c m q).2) (List.ne_nil_of_length_pos (by omega))
      have hylen := heapExtractMin_length c m (heapExtractMin c m q).2
      generalize heapExtractMin c m q = x at *
      simp only
      generalize heapExtractMin c m x.2 = y at *
      have hmerge := (hf.perm (((hy.cons x.1).trans hx).symm)).merge hn
      unfold mergeNode at hmerge
      generalize setNode c k (mergeOf c m x.1 y.1) m = m' at *
      refine ih (hmerge.perm (heapInsert_perm c m' _ _).symm) ?_ ?_
      · rw [heapInsert_length]; omega
      · exact List.ne_nil_of_length_pos (by rw [heapInsert_length]; omega)
    · rw [mergeLoop, if_neg hq]
      obtain ⟨x, rfl⟩ := List.length_eq_one_iff.mp (le_antisymm (not_lt.mp hq) (List.length_pos_iff.mpr hne))
      exact ⟨x, rfl, hf⟩

/-! ### The leaves (R122) -/

/-- The first `j` leaves are made and queued, and the table is as it was. -/
structure LeavesMade (c : Config) (m0 : Memory) (j : Nat) (m : Memory) (q : List Handle) : Prop where
  table : m.freq = m0.freq
  leaves : ∀ i < j, node c m i = leafOf c m0 i
  queue : q.Perm ((List.range j).map (BitVec.ofNat 9))

theorem leafOf_congr {m m' : Memory} (c : Config) (j : Nat) (h : m.freq = m'.freq) : leafOf c m j = leafOf c m' j := by
  simp only [leafOf, freqSym, freqCnt, freqWord_congr c _ h]

/-- A leaf's frequency is the count of its entry, zero-extended (R122). -/
theorem leafOf_freq_toNat (c : Config) (m : Memory) (j : Nat) : (leafOf c m j).freq.toNat = (freqCnt c m j).toNat := by
  have := (freqCnt c m j).isLt
  simp only [leafOf, BitVec.toNat_setWidth]
  omega

theorem node_setNode_leafOf (c : Config) (m m' : Memory) (j k : Nat) :
    node c (setNode c k (leafOf c m j) m') k = leafOf c m j := by
  refine node_setNode_self c _ m' k (freqSym_lt c m j) ?_
  rw [leafOf_freq_toNat]
  exact (freqCnt_lt c m j).trans_le (Nat.pow_le_pow_right (by decide) (Nat.le_add_right _ _))

/-- One leaf more (R121). -/
theorem LeavesMade.leaf {c : Config} {m0 m : Memory} {j : Nat} {q : List Handle} (h : LeavesMade c m0 j m q) :
    LeavesMade c m0 (j + 1) (setNode c j (leafOf c m j) m)
      (heapInsert c (setNode c j (leafOf c m j) m) (BitVec.ofNat 9 j) q) where
  table := (setNode_freq c j (leafOf c m j) m).trans h.table
  leaves := by
    intro i hi
    rcases Nat.lt_succ_iff_lt_or_eq.mp hi with hlt | rfl
    · rw [node_setNode_ne c _ m hlt.ne]
      exact h.leaves i hlt
    · rw [node_setNode_leafOf, leafOf_congr c i h.table]
  queue := by
    refine (heapInsert_perm c _ _ q).trans ?_
    rw [List.range_succ, List.map_append, List.map_singleton]
    exact (h.queue.cons _).trans (List.perm_append_singleton _ _).symm

theorem leafLoop_leavesMade {c : Config} {m0 : Memory} :
    ∀ {rem j : Nat} {m : Memory} {q : List Handle}, LeavesMade c m0 j m q →
    LeavesMade c m0 (j + rem) (leafLoop c rem j m q).1 (leafLoop c rem j m q).2 := by
  intro rem
  induction rem with
  | zero => intro j m q h; exact h
  | succ rem ih =>
    intro j m q h
    rw [show j + (rem + 1) = j + 1 + rem by omega]
    exact ih h.leaf

/-- The leaves alone are a forest: each is its own root. -/
theorem LeavesMade.forest {c : Config} {m0 m : Memory} {n : Nat} {q : List Handle} (h : LeavesMade c m0 n m q)
    (hn : n ≤ c.nsym) : Forest c m0 n n m q := by
  have hhandle : ∀ j < n, (BitVec.ofNat 9 j).toNat = j := by
    intro j hj
    have := (config_bounds c).2.1
    rw [BitVec.toNat_ofNat, Nat.mod_eq_of_lt (by omega)]
  refine Forest.perm (q := (List.range n).map (BitVec.ofNat 9)) ?_ h.queue.symm
  constructor
  case size => simp only [List.length_map, List.length_range]; omega
  case le => exact le_refl n
  case leaves => exact h.leaves
  case merged => intro p hnp hp; omega
  case nodup =>
    refine List.Nodup.map_on (fun i hi j hj hij => ?_) List.nodup_range
    rw [← hhandle i (List.mem_range.mp hi), hij, hhandle j (List.mem_range.mp hj)]
  case below =>
    intro x hx
    obtain ⟨j, hj, rfl⟩ := List.mem_map.mp hx
    rw [hhandle j (List.mem_range.mp hj)]
    exact List.mem_range.mp hj
  case parentless => intro x _ p hnp hp; omega
  case once =>
    intro g hg hgq
    exact absurd (hhandle g hg) (hgq _ (List.mem_map_of_mem (List.mem_range.mpr hg)))
  case total =>
    rw [queueFreq, countTotal, List.map_map]
    refine congrArg List.sum (List.map_congr_left fun j hj => ?_)
    have hlt := List.mem_range.mp hj
    rw [Function.comp_apply, nodeFreq, hhandle j hlt, h.leaves j hlt, leafOf_freq_toNat]

/-! ### The tree -/

/-- BUILD's loops make a tree: NODE is a forest with one root, the last node made (R124). -/
theorem buildLoops_tree {c : Config} {n : Nat} (m : Memory) (h1 : 1 ≤ n) (h2 : n ≤ c.nsym) :
    ∃ root, (buildLoops c n m).2.2 = [root] ∧ root.toNat = 2 * n - 2 ∧ (buildLoops c n m).1 = 2 * n - 1 ∧
      Forest c m n (2 * n - 1) (buildLoops c n m).2.1 [root] := by
  have hnone : LeavesMade c m 0 m [] := ⟨rfl, fun i hi => absurd hi (Nat.not_lt_zero i), List.Perm.refl _⟩
  have hleaves := leafLoop_leavesMade (rem := n) hnone
  rw [Nat.zero_add] at hleaves
  have hlen : (leafLoop c n 0 m []).2.length = n := by rw [hleaves.queue.length_eq]; simp
  obtain ⟨root, hq, hf⟩ := mergeLoop_forest h2 (bound := n) (hleaves.forest h2) (by omega)
    (List.ne_nil_of_length_pos (by omega))
  have hk : (buildLoops c n m).1 = 2 * n - 1 := Nat.eq_sub_of_add_eq hf.size
  change Forest c m n (buildLoops c n m).1 (buildLoops c n m).2.1 [root] at hf
  rw [hk] at hf
  refine ⟨root, hq, ?_, hk, hf⟩
  by_contra hne
  obtain ⟨p, ⟨hnp, hp, hpar⟩, -⟩ := hf.once (2 * n - 2) (by omega) fun x hx => by rwa [List.mem_singleton.mp hx]
  have hmerged := hf.merged p hnp hp
  have hl := hmerged.left
  have hr := hmerged.right
  rcases hpar with h | h <;> omega

/-- Settles O26: the tree of BUILD's loops, read out of the completed state. -/
theorem buildMakesATreeOfTheTable : Obligations.BuildMakesATreeOfTheTable := by
  rintro s n rfl h1 h2
  obtain ⟨u, hu⟩ := buildRun_of_le h1 h2
  obtain ⟨-, -, rfl⟩ := buildRun_ok hu
  obtain ⟨root, hq, hroot, hk, hf⟩ := buildLoops_tree s.mem h1 h2
  have hx := exec_eq_finish .build s
  rw [runOf, hu, finish_ok] at hx
  refine ⟨_, hx, ⟨rfl, rfl, rfl, rfl⟩, ?_, ?_, hf.leaves, fun h hnh hh => ?_, fun g hg => ?_⟩
  · have := (config_bounds s.cfg).2.1
    simp only [succeed_nnodes, hk, BitVec.toNat_ofNat]
    omega
  · simp only [succeed_root, hq]
    exact hroot
  · have hm := hf.merged h hnh hh
    exact ⟨hm.kind, hm.sym, hm.left, hm.right, hm.ne, hm.freq⟩
  · obtain ⟨p, ⟨hnp, hp, hpar⟩, huniq⟩ := hf.once g (by omega) fun x hx => by rw [List.mem_singleton.mp hx]; omega
    exact ⟨p, ⟨hnp, hp, hpar⟩, huniq⟩

end Sys2Proof.Machine
end

section
/-! PROOFS. Memory at the host port (O7, O8, O9, O10, O13, O14), the transactions as steps (O17), and that no step stops (O53). -/

namespace Sys2Proof.Machine
open Sys2Proof.Safety

/-! ## Transactions as steps (R60, R69) -/

/-- The pending inputs have no part in a write. -/
theorem hostWrite_with_inputs (a : HostAddr) (d : Word) (s : State) (rest : List Input) :
    hostWrite a d { s with inputs := rest } = { hostWrite a d s with inputs := rest } := by
  unfold hostWrite
  simp only
  split
  · rfl
  · cases locate s.cfg a <;> rfl

theorem step_hostRead {s : State} {a : HostAddr} {rest : List Input} (h : s.inputs = .hostRead a :: rest) :
    step s = .next { s with inputs := rest, rdata := hostRead s a } := step_input h

theorem step_hostWrite {s : State} {a : HostAddr} {d : Word} {rest : List Input} (h : s.inputs = .hostWrite a d :: rest) :
    step s = .next { hostWrite a d s with inputs := rest } := by
  rw [step_input h, performInput, hostWrite_with_inputs]

/-- Settles O17: a transaction is one step, and the pending inputs have no part in it. -/
theorem readsHaveNoSideEffect : Obligations.ReadsHaveNoSideEffect :=
  ⟨fun _ _ _ => step_hostRead, fun _ _ _ _ => step_hostWrite⟩

/-! ## No step stops (R67, R241) -/

/-- The engine's move ends in a next state: every command completes, and every other word is rejected. -/
theorem engineMove_next (s : State) : ∃ t, engineMove s = .next t := by
  cases hb : s.status.busy with
  | false => exact ⟨s, engineMove_idle hb⟩
  | true =>
    rw [engineMove_busy hb, runCommand]
    cases decode s.cmdw with
    | ok i => exact ⟨_, exec_eq_finish i s⟩
    | error e => exact ⟨_, rfl⟩

/-- Settles O53, by the input performed. -/
theorem noStepStops : Obligations.NoStepStops := by
  intro s
  cases hin : s.inputs with
  | nil => rw [step_no_input hin]; exact engineMove_next s
  | cons e rest =>
    rw [step_input hin]
    cases e with
    | hostRead a => exact ⟨_, rfl⟩
    | hostWrite a d => exact ⟨_, rfl⟩
    | tick => exact engineMove_next _
    | rst => exact ⟨_, rfl⟩

/-! ## The port while BUSY = 1 (R66) -/

theorem readableWhileBusy_eq_false {l : Location} (hctrl : l ≠ .ctrl) (hstatus : l ≠ .status) : readableWhileBusy l = false := by
  cases l with
  | ctrl => exact absurd rfl hctrl
  | status => exact absurd rfl hstatus
  | _ => rfl

theorem writableWhileBusy_eq_false {l : Location} (hctrl : l ≠ .ctrl) : writableWhileBusy l = false := by
  cases l with
  | ctrl => exact absurd rfl hctrl
  | _ => rfl

/-- CTRL is read at all times. -/
theorem hostRead_ctrl (s : State) : hostRead s 0x00 = if s.ie then 1 else 0 := by
  have hl : locate s.cfg 0x00 = .ctrl := rfl
  simp only [hostRead, hl, readableWhileBusy, Bool.not_true, Bool.and_false, wordAt]
  cases s.ie <;> rfl

theorem hostRead_busy {s : State} (hb : s.status.busy = true) (a : HostAddr) :
    hostRead s a = if a = 0x00 then (if s.ie then 1 else 0) else if a = 0x02 then statusWord s.status else 0 := by
  split
  · rename_i h0
    rw [h0, hostRead_ctrl]
  rename_i h0
  split
  · rename_i h2
    rw [h2, hostRead_status]
  · rename_i h2
    have hl := readableWhileBusy_eq_false (mt (locate_ctrl_iff s.cfg a).mp h0) (mt (locate_status_iff s.cfg a).mp h2)
    simp [hostRead, hb, hl]

theorem hostWrite_busy {s : State} (hb : s.status.busy = true) (a : HostAddr) (d : Word) :
    hostWrite a d s = { s with ie := if a = 0x00 then d.getLsbD 0 else s.ie } := by
  by_cases h0 : a = 0x00
  · have hl := (locate_ctrl_iff s.cfg a).mpr h0
    rw [if_pos h0, hostWrite, hb, hl]
    rfl
  · have hl := writableWhileBusy_eq_false (mt (locate_ctrl_iff s.cfg a).mp h0)
    rw [if_neg h0, hostWrite, hb, hl]
    rfl

/-- Settles O7: what a read and a write are while BUSY = 1, as steps. -/
theorem busyHidesAllButCtrlAndStatus : Obligations.BusyHidesAllButCtrlAndStatus := by
  intro s a d rest hb
  constructor <;> intro hin
  · rw [step_hostRead hin, hostRead_busy hb]
  · rw [step_hostWrite hin, hostWrite_busy hb]

/-! ## Where nothing is stored (R67) -/

/-- The location holds no bit: nothing is mapped, or the word is a reserved word of an element. -/
def holdsNothing (c : Config) : Location → Prop
  | .unmapped => True
  | .nodeWord k => nodeWidth c (k % 8) = 0
  | .codeWord k => codeWidth c (k % 16) = 0
  | _ => False

theorem nodeWidth_reserved (c : Config) {f : Nat} (h : 6 ≤ f) : nodeWidth c f = 0 := by
  unfold nodeWidth
  iterate 6 rw [if_neg (by omega)]

theorem codeWidth_reserved (c : Config) {f : Nat} (h : 10 ≤ f) : codeWidth c f = 0 := by
  unfold codeWidth
  iterate 3 rw [if_neg (by omega)]

/-- The register block ends with its reserved registers (R35). -/
theorem registerAt_reserved {n : Nat} (h : 0x0B ≤ n) : registerAt n = .unmapped := by
  unfold registerAt
  split
  case h_12 => rfl
  all_goals omega

/-- The map puts no bit at an unmapped address (R64, R65). -/
theorem holdsNothing_locate {c : Config} {a : HostAddr} (h : unmappedAddress c a.toNat) : holdsNothing c (locate c a) := by
  have hc := config_bounds c
  have hm : nnodeMax c = 2 * c.nsym - 1 := rfl
  unfold unmappedAddress at h
  unfold locate
  simp only
  split
  · rw [registerAt_reserved (by omega)]
    trivial
  split
  · omega
  split
  · exact nodeWidth_reserved c (by omega)
  split
  · exact codeWidth_reserved c (by omega)
  split
  · omega
  split
  · omega
  · trivial

theorem wordAt_holdsNothing {s : State} {l : Location} (h : holdsNothing s.cfg l) : wordAt s l = 0 := by
  cases l with
  | unmapped => rfl
  | nodeWord k => exact (congrArg (readField .node · s.mem.node k) h).trans (readField_zero_width ..)
  | codeWord k => exact (congrArg (readField .code · s.mem.code k) h).trans (readField_zero_width ..)
  | _ => exact h.elim

theorem storeAt_holdsNothing {s : State} {l : Location} (h : holdsNothing s.cfg l) (d : Word) : storeAt l d s = s := by
  cases l with
  | unmapped => rfl
  | nodeWord k => rw [storeAt, setNodeWord, h, writeField_zero_width]
  | codeWord k => rw [storeAt, setCodeWord, h, writeField_zero_width]
  | _ => exact h.elim

theorem hostRead_unmappedAddress {s : State} {a : HostAddr} (h : unmappedAddress s.cfg a.toNat) : hostRead s a = 0 := by
  unfold hostRead
  simp only
  split
  · rfl
  · exact wordAt_holdsNothing (holdsNothing_locate h)

theorem hostWrite_unmappedAddress {s : State} {a : HostAddr} (h : unmappedAddress s.cfg a.toNat) (d : Word) :
    hostWrite a d s = s := by
  unfold hostWrite
  simp only
  split
  · rfl
  · exact storeAt_holdsNothing (holdsNothing_locate h) d

/-- Settles O8: the map puts no bit at an unmapped address, and no step stops. -/
theorem unmappedReadsZeroAndIgnoresWrites : Obligations.UnmappedReadsZeroAndIgnoresWrites := by
  refine ⟨fun s a d rest h => ⟨fun hin => ?_, fun hin => ?_⟩, fun s _ _ _ _ => noStepStops s⟩
  · rw [step_hostRead hin, hostRead_unmappedAddress h]
  · rw [step_hostWrite hin, hostWrite_unmappedAddress h]

/-! ## A write is seen at its own address only (R64, R69, R71) -/

/-- A store, CMD's apart, leaves every other location as it reads. -/
theorem wordAt_storeAt_ne {l l' : Location} (hc : l ≠ .cmd) (hne : l' ≠ l) (d : Word) (s : State) :
    wordAt (storeAt l d s) l' = wordAt s l' := by
  cases l with
  | cmd => exact absurd rfl hc
  | freqWord k =>
    cases l' with
    | freqWord k' => exact (freqWord_setFreqWord ..).trans (if_neg fun h => hne (congrArg _ h))
    | _ => rfl
  | nodeWord k =>
    cases l' with
    | nodeWord k' => exact (nodeWord_setNodeWord ..).trans (if_neg fun h => hne (congrArg _ h))
    | _ => rfl
  | codeWord k =>
    cases l' with
    | codeWord k' => exact (codeWord_setCodeWord ..).trans (if_neg fun h => hne (congrArg _ h))
    | _ => rfl
  | symbufWord i =>
    cases l' with
    | symbufWord i' => exact (symbol_setSymbol ..).trans (if_neg fun h => hne (congrArg _ h))
    | _ => rfl
  | bitbufWord w =>
    simp only [storeAt]
    cases l' with
    | bitbufWord w' =>
      have hw : w' ≠ w := fun h => hne (congrArg _ h)
      simp only [wordAt, bitWord_setBitWord, if_neg hw]
    | freqWord k => exact freqWord_congr _ _ (setBitWord_freq w d s.mem)
    | nodeWord k => exact nodeWord_congr _ _ (setBitWord_node w d s.mem)
    | codeWord k => exact codeWord_congr _ _ (setBitWord_code w d s.mem)
    | symbufWord i => exact symbol_congr _ _ (setBitWord_symbuf w d s.mem)
    | _ => simp only [wordAt]
  -- The store of a register sets that register's own field.
  | _ => cases l' <;> trivial

/-- Settles O13: two addresses share a location only where nothing is mapped, and there a write does nothing. -/
theorem writeIsSeenAtItsOwnAddressOnly : Obligations.WriteIsSeenAtItsOwnAddressOnly := by
  intro s a d hb ha
  have hcmd : locate s.cfg a ≠ .cmd := mt (locate_cmd_iff s.cfg a).mp ha
  have hcfg : (hostWrite a d s).cfg = s.cfg := (hostWrite_frame a d s).1
  rw [hostWrite_idle hb] at hcfg ⊢
  have hb' : (storeAt (locate s.cfg a) d s).status.busy = false := (storeAt_sameControl hcmd d s).busy.trans hb
  refine ⟨hb', fun a' hne => ?_⟩
  rw [hostRead_idle hb', hostRead_idle hb, hcfg]
  by_cases hl : locate s.cfg a' = locate s.cfg a
  · have hun : locate s.cfg a' = .unmapped := (locate_inj hl).resolve_left hne
    rw [← hl, hun, storeAt]
  · exact wordAt_storeAt_ne hcmd hl d s

/-! ## The words of the elements, as an idle host reads and writes them (R64, R65) -/

section Idle
variable {s : State} (hb : s.status.busy = false)
include hb

theorem hostRead_symbufAddr {i : Nat} (h : i < s.cfg.seqN) : hostRead s (symbufAddr i) = symbol s.cfg s.mem i := by
  rw [hostRead_idle hb, locate_symbufAddr _ h, wordAt]

theorem hostRead_freqAddr {j f : Nat} (h : j < s.cfg.nsym) (hf : f < 2) :
    hostRead s (freqAddr j f) = freqWord s.cfg s.mem (2 * j + f) := by
  rw [hostRead_idle hb, locate_freqAddr _ h hf, wordAt]

theorem hostRead_nodeAddr {h f : Nat} (hh : h < nnodeMax s.cfg) (hf : f < 8) :
    hostRead s (nodeAddr h f) = nodeWord s.cfg s.mem (8 * h + f) := by
  rw [hostRead_idle hb, locate_nodeAddr _ hh hf, wordAt]

theorem hostRead_codeAddr {j f : Nat} (h : j < s.cfg.nsym) (hf : f < 16) :
    hostRead s (codeAddr j f) = codeWord s.cfg s.mem (16 * j + f) := by
  rw [hostRead_idle hb, locate_codeAddr _ h hf, wordAt]

theorem hostRead_bitbufAddr {w : Nat} (h : w < s.cfg.bitN / 32) : hostRead s (bitbufAddr w) = bitWord s.mem w := by
  rw [hostRead_idle hb, locate_bitbufAddr _ h, wordAt]

theorem readBack_symbufAddr {i : Nat} (h : i < s.cfg.seqN) (d : Word) :
    readBack s (symbufAddr i) d = d.toNat % 2 ^ s.cfg.symW := by
  rw [readBack, hostRead_hostWrite_idle hb (locate_symbufAddr _ h) nofun, storeAt, wordAt, symbol_setSymbol, if_pos rfl,
    keepLow_toNat]

theorem readBack_freqAddr {j f : Nat} (h : j < s.cfg.nsym) (hf : f < 2) (d : Word) :
    readBack s (freqAddr j f) d = d.toNat % 2 ^ freqWidth s.cfg f := by
  rw [readBack, hostRead_hostWrite_idle hb (locate_freqAddr _ h hf) nofun, storeAt, wordAt, freqWord_setFreqWord, if_pos rfl,
    keepLow_toNat, Nat.mul_add_mod, Nat.mod_eq_of_lt hf]

theorem readBack_nodeAddr {h f : Nat} (hh : h < nnodeMax s.cfg) (hf : f < 8) (d : Word) :
    readBack s (nodeAddr h f) d = d.toNat % 2 ^ nodeWidth s.cfg f := by
  rw [readBack, hostRead_hostWrite_idle hb (locate_nodeAddr _ hh hf) nofun, storeAt, wordAt, nodeWord_setNodeWord, if_pos rfl,
    keepLow_toNat, Nat.mul_add_mod, Nat.mod_eq_of_lt hf]

theorem readBack_codeAddr {j f : Nat} (h : j < s.cfg.nsym) (hf : f < 16) (d : Word) :
    readBack s (codeAddr j f) d = d.toNat % 2 ^ codeWidth s.cfg f := by
  rw [readBack, hostRead_hostWrite_idle hb (locate_codeAddr _ h hf) nofun, storeAt, wordAt, codeWord_setCodeWord, if_pos rfl,
    keepLow_toNat, Nat.mul_add_mod, Nat.mod_eq_of_lt hf]

end Idle

/-- The widths of CODE.bits that R65 writes out: 32 bits a word, but 31 in word +9, because MAXLEN = 255. -/
theorem codeWidth_of_nsym_256 {c : Config} (h : c.nsym = 256) {m : Nat} (hm : m < 8) :
    codeWidth c (2 + m) = if m < 7 then 32 else 31 := by
  have hw := codeWidth_bits c 0 hm
  rw [Nat.mul_zero, Nat.zero_add, Nat.mod_eq_of_lt (by omega), maxLen, h] at hw
  rw [hw]
  split <;> omega

/-- Settles O9: a word reads back as many low bits as its field has, and R65's table gives the widths. -/
theorem elementFieldsKeepTheirLowBits : Obligations.ElementFieldsKeepTheirLowBits := by
  intro s d hb
  refine ⟨fun i hi => readBack_symbufAddr hb hi d, fun j hj => ?_, fun h hh => ?_, fun j hj => ?_⟩
  · exact ⟨readBack_freqAddr hb hj (by decide) d, readBack_freqAddr hb hj (by decide) d⟩
  · have hw {f : Nat} (hf : f < 8) := readBack_nodeAddr hb hh hf d
    have hreserved {f : Nat} (hf : f < 8) (h6 : 6 ≤ f) : readBack s (nodeAddr h f) d = 0 := by
      rw [hw hf, nodeWidth_reserved _ h6, Nat.pow_zero, Nat.mod_one]
    exact ⟨hw (by decide), hw (by decide), hw (by decide), hw (by decide), hw (by decide), hw (by decide),
      hreserved (by decide) (by decide), hreserved (by decide) (by decide)⟩
  · have hw {f : Nat} (hf : f < 16) := readBack_codeAddr hb hj hf d
    refine ⟨hw (by decide), hw (by decide), fun f h10 hf => ?_, fun h256 => ⟨fun m hm => ?_, ?_⟩⟩
    · rw [hw hf, codeWidth_reserved _ h10, Nat.pow_zero, Nat.mod_one]
    · rw [hw (by omega), codeWidth_of_nsym_256 h256 (by omega), if_pos hm, Nat.mod_eq_of_lt d.isLt]
    · rw [hw (by decide), codeWidth_of_nsym_256 h256 (m := 7) (by decide), if_neg (by decide)]

/-! ## The fields the engine works on (R62, R65, R71) -/

theorem nodeWord_lt (c : Config) (m : Memory) (h : Nat) {f : Nat} (hf : f < 8) :
    (nodeWord c m (8 * h + f)).toNat < 2 ^ nodeWidth c f := by
  have hlt := readField_lt .node (nodeWidth c ((8 * h + f) % 8)) m.node (8 * h + f)
  rwa [← nodeWord, Nat.mul_add_mod, Nat.mod_eq_of_lt hf] at hlt

/-- A kind field is one bit, so it is 0 for LEAF and not 0 for INTERNAL. -/
theorem kindOf_of_lt {w : Word} (h : w.toNat < 2) : kindOf w = if w = 0 then .leaf else .internal := by
  have hw : w = 0 ∨ w = 1 := by
    rcases (by omega : w.toNat = 0 ∨ w.toNat = 1) with h | h
    · exact .inl (BitVec.eq_of_toNat_eq h)
    · exact .inr (BitVec.eq_of_toNat_eq h)
  rcases hw with rfl | rfl <;> rfl

/-- FW is at most 40, so the two words of NODE.freq make up the field. -/
theorem node_freq_toNat (c : Config) (m : Memory) (h : Nat) :
    (node c m h).freq.toNat = (nodeWord c m (8 * h + 2)).toNat + 2 ^ 32 * (nodeWord c m (8 * h + 3)).toNat := by
  have hlow := (nodeWord c m (8 * h + 2)).isLt
  have hhigh : (nodeWord c m (8 * h + 3)).toNat < 2 ^ 8 :=
    lt_of_lt_of_le (nodeWord_lt c m h (f := 3) (by decide))
      (Nat.pow_le_pow_right (by decide) (Nat.sub_le_sub_right (freqW_le c) 32))
  rw [node, BitVec.toNat_ofNat]
  omega

/-- A handle field has 9 bits, so no bit of the word is lost. -/
theorem setWidth_handle_toNat {w : Word} (h : w.toNat < 2 ^ 9) : (w.setWidth 9).toNat = w.toNat := by
  rw [BitVec.toNat_setWidth, Nat.mod_eq_of_lt h]

/-- Settles O10, memory by memory: both sides are the same words of the window. -/
theorem engineFieldsAreTheHostsWords : Obligations.EngineFieldsAreTheHostsWords := by
  intro s hb
  refine ⟨fun i hi => hostRead_symbufAddr hb hi, fun j hj => ?_, fun h hh => ?_, fun j hj => ?_⟩
  · exact ⟨hostRead_freqAddr hb hj (by decide), hostRead_freqAddr hb hj (by decide)⟩
  · iterate 6 rw [hostRead_nodeAddr hb hh (by decide)]
    exact ⟨kindOf_of_lt (nodeWord_lt _ _ h (f := 0) (by decide)), rfl, node_freq_toNat _ _ h,
      setWidth_handle_toNat (nodeWord_lt _ _ h (f := 4) (by decide)),
      setWidth_handle_toNat (nodeWord_lt _ _ h (f := 5) (by decide))⟩
  · refine ⟨hostRead_codeAddr hb hj (by decide), congrArg _ (hostRead_codeAddr hb hj (by decide)), fun k hk => ?_⟩
    have hmax : maxLen s.cfg ≤ 255 := Nat.sub_le_sub_right (config_bounds s.cfg).2.1 1
    rw [hostRead_codeAddr hb hj (by omega), codeBit, Nat.add_assoc]

/-! ## The packing of BITBUF (R63) -/

/-- Settles O14: BITBUF holds whole words, and a word is 32 elements from its least significant bit on. -/
theorem bitbufPacksLeastSignificantBitFirst : Obligations.BitbufPacksLeastSignificantBitFirst := by
  intro s hb
  obtain ⟨-, -, -, -, hmod, -⟩ := config_bounds s.cfg
  refine ⟨fun k hk => ?_, fun d w hw => ⟨?_, fun k _ => ?_⟩⟩
  · rw [hostRead_bitbufAddr hb (by omega), ← bit_eq_bitWord]
  · rw [hostRead_hostWrite_idle hb (locate_bitbufAddr _ hw) nofun, storeAt, wordAt, bitWord_setBitWord, if_pos rfl]
  · rw [hostWrite_idle hb, locate_bitbufAddr _ hw, storeAt, bit_setBitWord]

end Sys2Proof.Machine
end

section
/-! PROOFS. The decoder (O1, O2, O3), the acceptance of a word and its run (O4, O5, O6, O19). -/

namespace Sys2Proof.Machine
open Sys2Proof.Safety

/-! ## The decoder (R92, R97) -/

theorem decodeOp_eq_ok_iff (op : BitVec 4) (i : Instr) : decodeOp op = .ok i ↔ op = opField (encode i) := by
  cases i <;> revert op <;> decide

/-- A word is its two fields, so it is a command's word where both are. -/
theorem eq_encode_iff (w : Word) (i : Instr) : w = encode i ↔ rsvField w = 0#28 ∧ opField w = opField (encode i) := by
  have hrsv : rsvField (encode i) = 0#28 := by cases i <;> rfl
  refine ⟨by rintro rfl; exact ⟨hrsv, rfl⟩, fun ⟨hr, ho⟩ => BitVec.eq_of_toNat_eq ?_⟩
  have hr' := congrArg BitVec.toNat (hr.trans hrsv.symm)
  have ho' := congrArg BitVec.toNat ho
  simp only [rsvField, opField, BitVec.extractLsb'_toNat, Nat.shiftRight_eq_div_pow] at hr' ho'
  have := w.isLt
  have := (encode i).isLt
  omega

/-- A word is a command exactly when it is the command's word, all 32 bits of it. -/
theorem decode_eq_ok_iff (w : Word) (i : Instr) : decode w = .ok i ↔ w = encode i := by
  rw [eq_encode_iff, ← decodeOp_eq_ok_iff]
  unfold decode
  split <;> simp [*]

@[simp] theorem decode_encode (i : Instr) : decode (encode i) = .ok i := (decode_eq_ok_iff _ i).mpr rfl

/-- A word that is no command's word is no command. -/
theorem decode_eq_error {w : Word} (h : ∀ i, w ≠ encode i) : ∃ e, decode w = .error e := by
  cases hd : decode w with
  | ok i => exact absurd ((decode_eq_ok_iff w i).mp hd) (h i)
  | error e => exact ⟨e, rfl⟩

/-- Settles O1: the encoder's word is decoded to its command. -/
theorem encodedCommandDecodesToItself : Obligations.EncodedCommandDecodesToItself := decode_encode

/-- Settles O2, command by command. -/
theorem onlyTheFiveWordsAreCommands : Obligations.OnlyTheFiveWordsAreCommands := fun w =>
  ⟨decode_eq_ok_iff w .count, decode_eq_ok_iff w .build, decode_eq_ok_iff w .gencodes, decode_eq_ok_iff w .encode,
    decode_eq_ok_iff w .decode⟩

/-- A row of 32 bits is decoded as the word it is. -/
theorem tableWord_toNat (w : Word) : tableWord 32 w.toNat = w := by
  rw [tableWord, Nat.mod_eq_of_lt w.isLt, BitVec.ofNat_toNat, BitVec.setWidth_eq]

theorem decodeTableWord_encode (i : Instr) : decodeTableWord 32 (encode i).toNat = some i := by
  rw [decodeTableWord, if_pos (le_refl 32), tableWord_toNat, decode?, decode_encode]

theorem decodeTableWord_eq_none {w : Word} (h : ∀ i, w ≠ encode i) : decodeTableWord 32 w.toNat = none := by
  obtain ⟨e, he⟩ := decode_eq_error h
  rw [decodeTableWord, if_pos (le_refl 32), tableWord_toNat, decode?, he]

/-- Settles O3: the first five words are commands' words, the other four are not. -/
theorem writtenOutWordsDecodeAsListed : Obligations.WrittenOutWordsDecodeAsListed := by
  have hnot (w : Word) (h : ∀ i, w ≠ encode i) := decodeTableWord_eq_none h
  refine ⟨decodeTableWord_encode .count, decodeTableWord_encode .build, decodeTableWord_encode .gencodes,
    decodeTableWord_encode .encode, decodeTableWord_encode .decode, hnot 0x00000000#32 ?_, hnot 0x00000006#32 ?_,
    hnot 0x00000013#32 ?_, hnot 0x80000001#32 ?_⟩ <;> intro i <;> cases i <;> decide

/-! ## The running engine (R92, R94, R195) -/

/-- The engine running a command's word gives the command's meaning. -/
theorem engineMove_exec {s : State} {i : Instr} (hb : s.status.busy = true) (hd : decode s.cmdw = .ok i) :
    engineMove s = exec i s := by
  rw [engineMove_busy hb, runCommand, hd]

/-- The engine running any other word rejects it. -/
theorem engineMove_reject {s : State} {e : DecodeError} (hb : s.status.busy = true) (hd : decode s.cmdw = .error e) :
    engineMove s = .next (rejectCommand s) := by
  rw [engineMove_busy hb, runCommand, hd]

/-- Settles O4: with no input, or a tick, the step is the engine's move. -/
theorem stepRunsTheDecodedCommand : Obligations.StepRunsTheDecodedCommand := by
  intro s i hb hd
  refine ⟨fun hin => ?_, fun rest hin => ?_⟩
  · rw [step_no_input hin, engineMove_exec hb hd]
  · rw [step_input hin]
    exact engineMove_exec (s := { s with inputs := rest }) hb hd

/-- Settles O5: the placed word is in CMDW, BUSY is 1, and the tick before the pending inputs is a move of the engine. -/
theorem placedCommandRunsInTheNextStep : Obligations.PlacedCommandRunsInTheNextStep := by
  intro s i
  rw [State.withFetchWord, tableWord_toNat, step_input (placeCommand_inputs _ s)]
  refine (engineMove_exec (i := i) rfl (decode_encode i)).trans ?_
  cases i <;> rfl

/-! ## The acceptance of a word (R94) -/

/-- The phase of a word, in R94's own words. -/
theorem phaseOf_eq (w : Word) : phaseOf w =
    if w = 0x00000001#32 then .counting
    else if w = 0x00000002#32 then .building
    else if w = 0x00000003#32 then .generating
    else if w = 0x00000004#32 then .encoding
    else if w = 0x00000005#32 then .decoding
    else .rejecting := by
  split_ifs with h1 h2 h3 h4 h5
  case neg =>
    obtain ⟨e, he⟩ := decode_eq_error (w := w) fun i => by cases i <;> assumption
    rw [phaseOf, he]
  all_goals subst w; rfl

/-- A write to CMD while BUSY = 0 is the acceptance of the word. -/
theorem hostWrite_cmd {s : State} (hb : s.status.busy = false) (d : Word) : hostWrite 0x01 d s = accept d s :=
  hostWrite_idle hb 0x01 d

theorem step_accept {s : State} {d : Word} {rest : List Input} (hb : s.status.busy = false)
    (h : s.inputs = .hostWrite 0x01 d :: rest) : step s = .next { accept d s with inputs := rest } := by
  rw [step_hostWrite h, hostWrite_cmd hb]

/-- Settles O6: an idle HUFFCORE accepts the word, a busy one writes CTRL only. -/
theorem writeToCmdIsTheAcceptance : Obligations.WriteToCmdIsTheAcceptance := by
  intro s d rest hin
  refine ⟨fun hb => ?_, fun hb => ?_⟩
  · rw [step_accept hb hin, ← phaseOf_eq]
    rfl
  · rw [step_hostWrite hin, hostWrite_busy hb, if_neg (by decide)]

/-- Settles O19: the acceptance of the word, and the rejection that the tick makes of it. -/
theorem illegalCommandCompletesWithErrorSeven : Obligations.IllegalCommandCompletesWithErrorSeven := by
  intro s w rest hb h1 h2 h3 h4 h5 hin
  obtain ⟨e, he⟩ := decode_eq_error (w := w) fun i => by cases i <;> assumption
  refine ⟨_, _, step_accept hb hin, ?_, rfl, ?_, ?_, rfl⟩
  · exact (phaseOf_eq w).trans (by simp [*])
  · rw [step_input rfl]
    exact engineMove_reject rfl he
  · obtain ⟨-, -, -, herr, -⟩ := statusWordHasItsFieldsAndNothingElse _
    exact herr

end Sys2Proof.Machine
end

section
/-! PROOFS. The frames of the five commands (O25, O32, O37, O40, O46): what the loop of each leaves as the host reads it. -/

namespace Sys2Proof.Machine
open Sys2Proof.Safety

/-! ## A field the engine writes is a word the host could store there -/

/-- The word at a location of `s`, had it the memories `m`. -/
abbrev wordIn (s : State) (m : Memory) (l : Location) : Word := wordAt { s with mem := m } l

section Writes
variable {s : State} {m : Memory} {l : Location}

theorem wordIn_setFreqWord_ne {k : Nat} (h : l ≠ .freqWord k) (v : Word) :
    wordIn s (setFreqWord s.cfg k v m) l = wordIn s m l :=
  wordAt_storeAt_ne (l := .freqWord k) nofun h v { s with mem := m }

theorem wordIn_setNodeWord_ne {k : Nat} (h : l ≠ .nodeWord k) (v : Word) :
    wordIn s (setNodeWord s.cfg k v m) l = wordIn s m l :=
  wordAt_storeAt_ne (l := .nodeWord k) nofun h v { s with mem := m }

theorem wordIn_setCodeWord_ne {k : Nat} (h : l ≠ .codeWord k) (v : Word) :
    wordIn s (setCodeWord s.cfg k v m) l = wordIn s m l :=
  wordAt_storeAt_ne (l := .codeWord k) nofun h v { s with mem := m }

theorem wordIn_setSymbol_ne {i : Nat} (h : l ≠ .symbufWord i) (v : Word) :
    wordIn s (setSymbol s.cfg i v m) l = wordIn s m l :=
  wordAt_storeAt_ne (l := .symbufWord i) nofun h v { s with mem := m }

theorem wordIn_setBits {start n : Nat} (h : ∀ w, l ≠ .bitbufWord w) (f : Nat → Bool) :
    wordIn s (setBits start f n m) l = wordIn s m l := by
  cases l with
  | bitbufWord w => exact absurd rfl (h w)
  | freqWord k => exact freqWord_congr _ _ (setBits_freq start f n m)
  | nodeWord k => exact nodeWord_congr _ _ (setBits_node start f n m)
  | codeWord k => exact codeWord_congr _ _ (setBits_code start f n m)
  | symbufWord i => exact symbol_congr _ _ (setBits_symbuf start f n m)
  | _ => rfl

/-- The location is no word of FREQ[0 .. n-1]. -/
def beyondFreq (n : Nat) (l : Location) : Prop := ∀ k, l = .freqWord k → 2 * n ≤ k

/-- The location is no word of NODE[0 .. n-1]. -/
def beyondNode (n : Nat) (l : Location) : Prop := ∀ k, l = .nodeWord k → 8 * n ≤ k

/-- The location is no word of CODE[0 .. n-1]. -/
def beyondCode (n : Nat) (l : Location) : Prop := ∀ k, l = .codeWord k → 16 * n ≤ k

theorem wordIn_setFreqSym {n j : Nat} (h : beyondFreq n l) (hj : j < n) (v : Word) :
    wordIn s (setFreqSym s.cfg j v m) l = wordIn s m l :=
  wordIn_setFreqWord_ne (fun he => by have := h _ he; omega) v

theorem wordIn_setFreqCnt {n j : Nat} (h : beyondFreq n l) (hj : j < n) (v : Word) :
    wordIn s (setFreqCnt s.cfg j v m) l = wordIn s m l :=
  wordIn_setFreqWord_ne (fun he => by have := h _ he; omega) v

theorem wordIn_setNode {n j : Nat} (h : beyondNode n l) (hj : j < n) (nd : Node) :
    wordIn s (setNode s.cfg j nd m) l = wordIn s m l := by
  have hne {f : Nat} (hf : f < 8) : l ≠ .nodeWord (8 * j + f) := fun he => by have := h _ he; omega
  have h0 : l ≠ .nodeWord (8 * j) := hne (f := 0) (by decide)
  unfold setNode
  rw [wordIn_setNodeWord_ne (hne (by decide)), wordIn_setNodeWord_ne (hne (by decide)), wordIn_setNodeWord_ne (hne (by decide)),
    wordIn_setNodeWord_ne (hne (by decide)), wordIn_setNodeWord_ne (hne (by decide)),
    wordIn_setNodeWord_ne h0]

theorem wordIn_setCodeBits {n j r : Nat} (h : beyondCode n l) (hj : j < n) (hr : r ≤ 8) (path : List Bool) :
    wordIn s (setCodeBits s.cfg j path r m) l = wordIn s m l := by
  induction r with
  | zero => rfl
  | succ r ih => exact (wordIn_setCodeWord_ne (fun he => by have := h _ he; omega) _).trans (ih (by omega))

theorem wordIn_setCode {n j : Nat} (h : beyondCode n l) (hj : j < n) (sym : Word) (len : Nat) (path : List Bool) :
    wordIn s (setCode s.cfg j sym len path m) l = wordIn s m l := by
  have hne {f : Nat} (hf : f < 2) : l ≠ .codeWord (16 * j + f) := fun he => by have := h _ he; omega
  have h0 : l ≠ .codeWord (16 * j) := hne (f := 0) (by decide)
  unfold setCode
  rw [wordIn_setCodeBits h hj (le_refl 8), wordIn_setCodeWord_ne (hne (by decide)),
    wordIn_setCodeWord_ne h0]

end Writes

/-! ## The end of a successful command -/

/-- A command that ends with no error has its outputs in place. -/
theorem exec_success {i : Instr} {s t : State} (hx : exec i s = .next t) (h : t.status.err = .success) :
    ∃ u, runOf i s = .ok u ∧ t = succeed u := by
  rcases exec_cases hx with hu | ⟨f, hr, rfl⟩
  · exact hu
  · rw [raise_status] at h
    exact absurd h (runOf_error_ne_success hr)

/-- The outputs of a command are no part of the control state. -/
theorem runOf_control {i : Instr} {s u : State} (h : runOf i s = .ok u) :
    u.cfg = s.cfg ∧ u.ie = s.ie ∧ u.status = s.status ∧ u.cmdw = s.cmdw ∧ u.inputs = s.inputs ∧ u.rdata = s.rdata := by
  cases i with
  | count =>
    obtain ⟨-, n, m, -, rfl⟩ := countRun_ok h
    exact ⟨rfl, rfl, rfl, rfl, rfl, rfl⟩
  | build =>
    obtain ⟨-, -, rfl⟩ := buildRun_ok h
    exact ⟨rfl, rfl, rfl, rfl, rfl, rfl⟩
  | gencodes =>
    obtain ⟨-, -, n, m, -, rfl⟩ := gencodesRun_ok h
    exact ⟨rfl, rfl, rfl, rfl, rfl, rfl⟩
  | encode =>
    obtain ⟨-, -, out, m, -, rfl⟩ := encodeRun_ok h
    exact ⟨rfl, rfl, rfl, rfl, rfl, rfl⟩
  | decode =>
    obtain ⟨-, -, -, out, m, -, rfl⟩ := decodeRun_ok h
    exact ⟨rfl, rfl, rfl, rfl, rfl, rfl⟩

/-- Every command keeps the control state and completes (R197). -/
theorem exec_completes {i : Instr} {s t : State} (hx : exec i s = .next t) :
    keepsControl s t ∧ t.phase = .idle ∧ t.status.busy = false ∧ t.status.done = true := by
  rcases exec_cases hx with ⟨u, hu, rfl⟩ | ⟨f, -, rfl⟩
  · obtain ⟨hcfg, hie, hstatus, hcmdw, hinputs, hrdata⟩ := runOf_control hu
    have hop : u.status.op = s.status.op := by rw [hstatus]
    exact ⟨⟨hcfg, hie, hop, hcmdw, hinputs, hrdata⟩, rfl, rfl, rfl⟩
  · rw [keepsControl]
    simp

/-- A completion writes the result registers only. -/
theorem wordAt_succeed {l : Location} (h : resultRegisters l = false) (u : State) : wordAt (succeed u) l = wordAt u l := by
  cases l with
  | status => cases h
  | errinfo => cases h
  | errpos => cases h
  | _ => rfl

/-- A register of 32 bits holds a number the capacities allow. -/
theorem toNat_ofNat_of_le {n b : Nat} (h : n ≤ b) (hb : b ≤ 1048576) : (BitVec.ofNat 32 n).toNat = n := by
  rw [BitVec.toNat_ofNat, Nat.mod_eq_of_lt (by omega)]

/-! ## COUNT (R110, R115) -/

/-- COUNT's loop adds entries up to NSYM, and writes no word beyond the last. -/
theorem countLoop_frame {s : State} {rem i n n' : Nat} {m m' : Memory} (hn : n ≤ s.cfg.nsym)
    (h : countLoop s.cfg rem i n m = .ok (n', m')) :
    n ≤ n' ∧ n' ≤ s.cfg.nsym ∧ ∀ l, beyondFreq n' l → wordIn s m' l = wordIn s m l := by
  induction rem generalizing i n m with
  | zero =>
    cases h
    exact ⟨le_refl _, hn, fun _ _ => rfl⟩
  | succ rem ih =>
    simp only [countLoop] at h
    split at h
    · split at h
      · cases h
      · obtain ⟨hle, hle', hframe⟩ := ih (by omega) h
        refine ⟨by omega, hle', fun l hl => (hframe l hl).trans ?_⟩
        rw [wordIn_setFreqCnt hl (by omega), wordIn_setFreqSym hl (by omega)]
    · rename_i j hj
      have hjn := (findSym_eq_some.mp hj).1
      obtain ⟨hle, hle', hframe⟩ := ih hn h
      refine ⟨hle, hle', fun l hl => (hframe l hl).trans ?_⟩
      rw [wordIn_setFreqCnt hl (by omega)]

/-- Settles O25, by the frame of COUNT's loop. -/
theorem countChangesOnlyItsTable : Obligations.CountChangesOnlyItsTable := by
  intro s t hx hs
  obtain ⟨u, hu, rfl⟩ := exec_success hx hs
  obtain ⟨-, n, m, hloop, rfl⟩ := countRun_ok hu
  obtain ⟨-, hn, hframe⟩ := countLoop_frame (Nat.zero_le _) hloop
  have hnsym := (config_bounds s.cfg).2.1
  refine ⟨(exec_completes hx).1, rfl, rfl, fun l hres hl hbeyond => ?_⟩
  rw [succeed_nfreq, toNat_ofNat_of_le hn (by omega)] at hbeyond
  rw [wordAt_succeed hres]
  refine Eq.trans ?_ (hframe l hbeyond)
  cases l with
  | nfreq => exact absurd rfl hl
  | _ => rfl

/-! ## BUILD (R131) -/

/-- The leaves are the only nodes the first loop of BUILD writes. -/
theorem leafLoop_frame {s : State} {rem j : Nat} {m : Memory} {q : List Handle} {l : Location} (hl : beyondNode (j + rem) l) :
    wordIn s (leafLoop s.cfg rem j m q).1 l = wordIn s m l := by
  induction rem generalizing j m q with
  | zero => rfl
  | succ rem ih =>
    simp only [leafLoop]
    rw [ih (by rwa [show j + 1 + rem = j + (rem + 1) by omega]), wordIn_setNode hl (by omega)]

/-- The second loop of BUILD makes nodes in the order of their handles, and writes no other. -/
theorem mergeLoop_frame {s : State} {bound k : Nat} {m : Memory} {q : List Handle} :
    k ≤ (mergeLoop s.cfg bound k m q).1 ∧ ∀ l, beyondNode (mergeLoop s.cfg bound k m q).1 l →
      wordIn s (mergeLoop s.cfg bound k m q).2.1 l = wordIn s m l := by
  induction bound generalizing k m q with
  | zero => exact ⟨le_refl k, fun _ _ => rfl⟩
  | succ bound ih =>
    by_cases hq : 1 < q.length
    · rw [mergeLoop_merge hq]
      obtain ⟨hle, hframe⟩ := @ih (k + 1) _ _
      exact ⟨(Nat.le_succ k).trans hle, fun l hl => (hframe l hl).trans (wordIn_setNode hl hle _)⟩
    · rw [mergeLoop, if_neg hq]
      exact ⟨le_refl k, fun _ _ => rfl⟩

theorem buildLoops_frame {s : State} {n : Nat} {l : Location} (hl : beyondNode (buildLoops s.cfg n s.mem).1 l) :
    wordIn s (buildLoops s.cfg n s.mem).2.1 l = wordAt s l := by
  obtain ⟨hle, hframe⟩ := mergeLoop_frame (s := s) (bound := n) (k := n) (m := (leafLoop s.cfg n 0 s.mem []).1)
    (q := (leafLoop s.cfg n 0 s.mem []).2)
  refine (hframe l hl).trans (leafLoop_frame fun k hk => ?_)
  have := hl k hk
  unfold buildLoops at this
  omega

/-- Settles O32, by the frames of BUILD's two loops. -/
theorem buildChangesOnlyItsTree : Obligations.BuildChangesOnlyItsTree := by
  intro s t hx hs
  obtain ⟨u, hu, rfl⟩ := exec_success hx hs
  obtain ⟨h1, h2, rfl⟩ := buildRun_ok hu
  obtain ⟨-, -, -, hk, -⟩ := buildLoops_tree s.mem h1 h2
  have hnsym := (config_bounds s.cfg).2.1
  refine ⟨(exec_completes hx).1, fun l hres hnn hroot hbeyond => ?_⟩
  rw [succeed_nnodes, toNat_ofNat_of_le (b := 2 * s.cfg.nsym) (by omega) (by omega)] at hbeyond
  rw [wordAt_succeed hres]
  refine Eq.trans ?_ (buildLoops_frame hbeyond)
  cases l with
  | nnodes => exact absurd rfl hnn
  | root => exact absurd rfl hroot
  | _ => rfl

/-! ## GENCODES (R148) -/

/-- A leaf's entry is one more, within NSYM, and its words are the only ones written. -/
theorem leafEntry_frame {s : State} {nnodes d n : Nat} {h : Handle} {m : Memory} {sym : Word} (hn : n ≤ s.cfg.nsym)
    (hv : visit s.cfg nnodes m h d n = .ok (.leaf sym)) (path : List Bool) :
    n ≤ n + 1 ∧ n + 1 ≤ s.cfg.nsym ∧
      ∀ l, beyondCode (n + 1) l → wordIn s (setCode s.cfg n sym d path m) l = wordIn s m l := by
  obtain ⟨-, -, -, -, hroom, -⟩ := visit_leaf hv
  exact ⟨by omega, by omega, fun l hl => wordIn_setCode hl (Nat.lt_succ_self n) _ _ _⟩

/-- The walk adds entries up to NSYM, and writes no word beyond the last. -/
theorem walk_frame {s : State} {nnodes room n n' : Nat} {path : List Bool} {h : Handle} {m m' : Memory} (hn : n ≤ s.cfg.nsym)
    (hw : walk s.cfg nnodes room path h n m = .ok (n', m')) :
    n ≤ n' ∧ n' ≤ s.cfg.nsym ∧ ∀ l, beyondCode n' l → wordIn s m' l = wordIn s m l := by
  induction room generalizing path h n m n' m' with
  | zero =>
    simp only [walk] at hw
    split at hw
    · cases hw
    · rename_i hv
      cases hw
      exact leafEntry_frame hn hv path
    · cases hw
  | succ room ih =>
    simp only [walk] at hw
    split at hw
    · cases hw
    · rename_i hv
      cases hw
      exact leafEntry_frame hn hv path
    · split at hw
      · cases hw
      · rename_i n1 m1 hleft
        obtain ⟨hle1, hn1, hframe1⟩ := ih hn hleft
        obtain ⟨hle, hn', hframe⟩ := ih hn1 hw
        refine ⟨hle1.trans hle, hn', fun l hl => (hframe l hl).trans (hframe1 l fun k hk => ?_)⟩
        have := hl k hk
        omega

theorem gencodesTraversal_frame {s : State} {n : Nat} {m : Memory} (h : gencodesTraversal s = .ok (n, m)) :
    n ≤ s.cfg.nsym ∧ ∀ l, beyondCode n l → wordIn s m l = wordAt s l := by
  unfold gencodesTraversal at h
  split at h
  · unfold singleLeaf at h
    split at h
    · cases h
    · cases h
      exact ⟨(config_bounds s.cfg).1, fun l hl => wordIn_setCode hl Nat.zero_lt_one _ _ _⟩
  · exact (walk_frame (Nat.zero_le _) h).2

/-- Settles O37, by the frame of GENCODES' traversal. -/
theorem gencodesChangesOnlyItsTable : Obligations.GencodesChangesOnlyItsTable := by
  intro s t hx hs
  obtain ⟨u, hu, rfl⟩ := exec_success hx hs
  obtain ⟨-, -, n, m, htrav, rfl⟩ := gencodesRun_ok hu
  obtain ⟨hn, hframe⟩ := gencodesTraversal_frame htrav
  have hnsym := (config_bounds s.cfg).2.1
  refine ⟨(exec_completes hx).1, rfl, rfl, fun l hres hl hbeyond => ?_⟩
  rw [succeed_ncode, toNat_ofNat_of_le hn (by omega)] at hbeyond
  rw [wordAt_succeed hres]
  refine Eq.trans ?_ (hframe l hbeyond)
  cases l with
  | ncode => exact absurd rfl hl
  | _ => rfl

/-! ## ENCODE (R158) -/

/-- ENCODE's loop appends bits up to BIT_N, and writes nothing else. -/
theorem encodeLoop_frame {s : State} {ncode rem i out out' : Nat} {m m' : Memory} (hout : out ≤ s.cfg.bitN)
    (h : encodeLoop s.cfg ncode rem i out m = .ok (out', m')) :
    out ≤ out' ∧ out' ≤ s.cfg.bitN ∧ (∀ k, out' ≤ k → bit m' k = bit m k) ∧
      ∀ l, (∀ w, l ≠ .bitbufWord w) → wordIn s m' l = wordIn s m l := by
  induction rem generalizing i out m with
  | zero =>
    cases h
    exact ⟨le_refl _, hout, fun _ _ => rfl, fun _ _ => rfl⟩
  | succ rem ih =>
    simp only [encodeLoop] at h
    split at h
    · cases h
    · split at h
      · cases h
      · obtain ⟨hle, hle', hbits, hframe⟩ := ih (by omega) h
        refine ⟨by omega, hle', fun k hk => (hbits k hk).trans ?_, fun l hl => (hframe l hl).trans (wordIn_setBits hl _)⟩
        rw [bit_setBits, if_neg (by omega)]

/-- Settles O40, by the frame of ENCODE's loop. -/
theorem encodeChangesOnlyItsBits : Obligations.EncodeChangesOnlyItsBits := by
  intro s t hx hs
  obtain ⟨u, hu, rfl⟩ := exec_success hx hs
  obtain ⟨-, -, out, m, hloop, rfl⟩ := encodeRun_ok hu
  obtain ⟨-, hout, hbits, hframe⟩ := encodeLoop_frame (Nat.zero_le _) hloop
  obtain ⟨-, -, -, -, -, hbitN, -⟩ := config_bounds s.cfg
  refine ⟨(exec_completes hx).1, rfl, rfl, fun k hk => hbits k ?_, fun l hres hl hbit => ?_⟩
  · rwa [succeed_blen, toNat_ofNat_of_le hout hbitN] at hk
  · rw [wordAt_succeed hres]
    refine Eq.trans ?_ (hframe l hbit)
    cases l with
    | blen => exact absurd rfl hl
    | _ => rfl

/-! ## DECODE (R175, R176) -/

/-- DECODE's loop emits symbols up to SEQ_N, and writes no symbol beyond the last and nothing else. -/
theorem decodeLoop_frame {s : State} {nnodes rem i out out' : Nat} {root cur cur' : Handle} {m m' : Memory}
    (hout : out ≤ s.cfg.seqN) (h : decodeLoop s.cfg nnodes root rem i cur out m = .ok (cur', out', m')) :
    out ≤ out' ∧ out' ≤ s.cfg.seqN ∧
      ∀ l, (∀ k, l = .symbufWord k → out' ≤ k) → wordIn s m' l = wordIn s m l := by
  induction rem generalizing i cur out m with
  | zero =>
    cases h
    exact ⟨le_refl _, hout, fun _ _ => rfl⟩
  | succ rem ih =>
    simp only [decodeLoop] at h
    split at h
    · cases h
    · rename_i cur1 out1 m1 hbit
      rcases decodeBit_ok hbit with ⟨rfl, rfl⟩ | ⟨sym, hne, rfl, rfl⟩
      · exact ih hout h
      · obtain ⟨hle, hle', hframe⟩ := ih (by omega) h
        refine ⟨by omega, hle', fun l hl => (hframe l hl).trans (wordIn_setSymbol_ne (fun he => ?_) sym)⟩
        have := hl _ he
        omega

/-- Settles O46, by the frame of DECODE's loop. -/
theorem decodeChangesOnlyItsSymbols : Obligations.DecodeChangesOnlyItsSymbols := by
  intro s t hx hs
  obtain ⟨u, hu, rfl⟩ := exec_success hx hs
  obtain ⟨-, -, -, out, m, hloop, rfl⟩ := decodeRun_ok hu
  obtain ⟨-, hout, hframe⟩ := decodeLoop_frame (Nat.zero_le _) hloop
  obtain ⟨-, -, -, hseqN, -⟩ := config_bounds s.cfg
  refine ⟨(exec_completes hx).1, rfl, rfl, fun l hres hl hbeyond => ?_⟩
  rw [succeed_slen, toNat_ofNat_of_le hout (by omega)] at hbeyond
  rw [wordAt_succeed hres]
  refine Eq.trans ?_ (hframe l hbeyond)
  cases l with
  | slen => exact absurd rfl hl
  | _ => rfl

end Sys2Proof.Machine
end

section
/-! PROOFS. The host script (O58, O59, O60): transactions fed one by one, and the wait for a completion. -/

namespace Sys2Proof.Machine
open Sys2Proof.Safety

/-! ## Feeding inputs (R99) -/

theorem feed_append {xs ys : List Input} {s t : State} (h : feed xs s = .next t) : feed (xs ++ ys) s = feed ys t := by
  induction xs generalizing s with
  | nil => cases h; rfl
  | cons e rest ih =>
    simp only [List.cons_append, feed] at h ⊢
    split at h
    · exact ih h
    · cases h
    · cases h

/-- One input fed is one step with that input pending. -/
theorem feed_singleton {e : Input} {s t : State} (h : performInput e { s with inputs := [] } = .next t) :
    feed [e] s = .next t := by
  simp only [feed, step_input (s := { s with inputs := [e] }) rfl, h]

theorem feed_hostRead (a : HostAddr) (s : State) : feed [.hostRead a] s = .next (performRead a { s with inputs := [] }) :=
  feed_singleton rfl

/-- A write fed to an idle HUFFCORE is the store at the location of its address. -/
theorem feed_hostWrite {s : State} (hb : s.status.busy = false) {a : HostAddr} {l : Location} (hl : locate s.cfg a = l)
    (d : Word) : feed [.hostWrite a d] s = .next (storeAt l d { s with inputs := [] }) := by
  subst hl
  exact feed_singleton (congrArg Host.Outcome.next (hostWrite_idle (s := { s with inputs := [] }) hb a d))

theorem storeAt_cfg (l : Location) (d : Word) (s : State) : (storeAt l d s).cfg = s.cfg := by cases l <;> simp [storeAt]

/-- Writes to different locations but CMD, where each datum fits: every one is read back at the end. -/
theorem feed_hostWrites {s : State} (hb : s.status.busy = false) {addr : Nat → HostAddr} {loc : Nat → Location}
    {data : Nat → Word} (hinj : Function.Injective loc) (hcmd : ∀ i, loc i ≠ .cmd) {n : Nat}
    (hloc : ∀ i < n, locate s.cfg (addr i) = loc i)
    (hfit : ∀ i < n, ∀ u : State, u.cfg = s.cfg → wordAt (storeAt (loc i) (data i) u) (loc i) = data i) :
    ∃ t, feed ((List.range n).map fun i => .hostWrite (addr i) (data i)) s = .next t ∧ t.cfg = s.cfg ∧
      t.status.busy = false ∧ ∀ i < n, wordAt t (loc i) = data i := by
  induction n with
  | zero => exact ⟨s, rfl, rfl, hb, nofun⟩
  | succ n ih =>
    obtain ⟨t, hfeed, hcfg, hbusy, hread⟩ := ih (fun i hi => hloc i (by omega)) fun i hi => hfit i (by omega)
    have hwrite := feed_hostWrite hbusy (hcfg ▸ hloc n (Nat.lt_succ_self n)) (data n)
    refine ⟨storeAt (loc n) (data n) { t with inputs := [] }, ?_, (storeAt_cfg ..).trans hcfg,
      (storeAt_sameControl (hcmd n) _ _).busy.trans hbusy, fun i hi => ?_⟩
    · rw [List.range_succ, List.map_append, feed_append hfeed]
      exact hwrite
    · rcases Nat.lt_succ_iff_lt_or_eq.mp hi with hlt | rfl
      · rw [wordAt_storeAt_ne (hcmd n) (fun h => hlt.ne (hinj h))]
        exact hread i hlt
      · exact hfit i hi _ hcfg

/-! ## LOADBITS and LOADSYM (R100) -/

theorem map_range_getD {α : Type} (xs : List α) (d : α) : (List.range xs.length).map (fun i => xs.getD i d) = xs := by
  refine List.ext_getElem (by simp) fun i _ hi => ?_
  simp [hi]

/-- Settles O58: the words of the string are stored, and bit k of the string is bit k mod 32 of word k div 32. -/
theorem loadBitsLoadsTheBitString : Obligations.LoadBitsLoadsTheBitString := by
  intro s bs hb hlen
  obtain ⟨-, -, -, -, hmod, hbitN, -⟩ := config_bounds s.cfg
  obtain ⟨t, hfeed, hcfg, hbusy, hread⟩ := feed_hostWrites hb (addr := bitbufAddr) (loc := .bitbufWord)
    (data := fun w => packWord fun k => bs.getD (32 * w + k) false) (n := (bs.length + 31) / 32)
    (fun _ _ => Location.bitbufWord.inj) nofun (fun w hw => locate_bitbufAddr _ (by omega))
    fun w _ u _ => (bitWord_setBitWord ..).trans (if_pos rfl)
  refine ⟨_, (feed_append hfeed).trans (feed_hostWrite hbusy (l := .blen) rfl _), ?_⟩
  have hbit : ∀ k < bs.length, bit t.mem k = bs.getD k false := by
    intro k hk
    have hword : bitWord t.mem (k / 32) = _ := hread (k / 32) (by omega)
    rw [bit_eq_bitWord, hword, packWord_getLsbD _ (Nat.mod_lt _ (by decide)), Nat.div_add_mod]
  rw [bits]
  simp only [storeAt, toNat_ofNat_of_le hlen hbitN]
  rw [List.map_congr_left fun k hk => hbit k (List.mem_range.mp hk), map_range_getD]

/-- The writes of LOADSYM, numbered. -/
theorem loadSymInputs_eq (codes : List Word) : loadSymInputs codes =
    ((List.range codes.length).map fun i => .hostWrite (symbufAddr i) (codes.getD i 0)) ++
      [.hostWrite 0x05 (BitVec.ofNat 32 codes.length)] := by
  refine congrArg (· ++ _) (List.ext_getElem (by simp) fun i h _ => ?_)
  have hi : i < codes.length := by simpa using h
  simp [hi]

/-- Settles O59: the symbols are stored, and they fit. -/
theorem loadSymLoadsTheSymbols : Obligations.LoadSymLoadsTheSymbols := by
  intro s codes hb hlen hfit
  obtain ⟨-, -, -, hseqN, -⟩ := config_bounds s.cfg
  have hfit' : ∀ i < codes.length, keepLow s.cfg.symW (codes.getD i 0) = codes.getD i 0 := by
    intro i hi
    refine keepLow_of_lt (hfit _ ?_)
    rw [List.getD_eq_getElem _ _ hi]
    exact List.getElem_mem hi
  obtain ⟨t, hfeed, hcfg, hbusy, hread⟩ := feed_hostWrites hb (addr := symbufAddr) (loc := .symbufWord)
    (data := fun i => codes.getD i 0) (n := codes.length)
    (fun _ _ => Location.symbufWord.inj) nofun (fun i hi => locate_symbufAddr _ (by omega))
    fun i hi u hu => by
      simp only [storeAt, wordAt]
      rw [symbol_setSymbol, if_pos rfl, hu, hfit' i hi]
  refine ⟨_, (congrArg (feed · s) (loadSymInputs_eq codes)).trans
    ((feed_append hfeed).trans (feed_hostWrite hbusy (l := .slen) rfl _)), ?_⟩
  rw [symbols]
  simp only [storeAt, toNat_ofNat_of_le hlen (hseqN.trans (by decide))]
  have hsym : ∀ i < codes.length, symbol t.cfg t.mem i = codes.getD i 0 := hread
  rw [List.map_congr_left fun i hi => hsym i (List.mem_range.mp hi), map_range_getD]

/-! ## Issue and WAIT (R99, R100, R240) -/

/-- Polls leave the machine as it is, but for the port's last word. -/
theorem feed_polls (a : HostAddr) (polls : Nat) (s : State) :
    ∃ t, feed (List.replicate polls (.hostRead a)) s = .next t ∧ t.status = s.status ∧ t.cmdw = s.cmdw := by
  induction polls generalizing s with
  | zero => exact ⟨s, rfl, rfl, rfl⟩
  | succ polls ih =>
    obtain ⟨t, hfeed, hstatus, hcmdw⟩ := ih (performRead a { s with inputs := [] })
    exact ⟨t, (feed_append (feed_hostRead a s)).trans hfeed, hstatus, hcmdw⟩

/-- WAIT for a running command ends with its completion and a read of it. -/
theorem feed_wait {s : State} {i : Instr} (hb : s.status.busy = true) (hd : decode s.cmdw = .ok i) (polls : Nat) :
    ∃ t, feed (waitInputs polls) s = .next t ∧ t.status.busy = false ∧ t.status.done = true ∧
      t.status.op = s.status.op ∧ t.rdata = statusWord t.status := by
  obtain ⟨u, hpolls, hstatus, hcmdw⟩ := feed_polls 0x02 polls s
  obtain ⟨t, hx⟩ : ∃ t, exec i { u with inputs := [] } = .next t := ⟨_, exec_eq_finish i _⟩
  obtain ⟨⟨-, -, hop, -⟩, -, hbusy, hdone⟩ := exec_completes hx
  have htick : feed [.tick] u = .next t := feed_singleton ((engineMove_exec (hstatus ▸ hb) (hcmdw ▸ hd)).trans hx)
  refine ⟨_, (feed_append hpolls).trans ((feed_append htick).trans (feed_hostRead 0x02 t)), hbusy, hdone,
    hop.trans (congrArg Status.op hstatus), hostRead_status _⟩

theorem runScript_cons {st : Stmt} {rest : List Stmt} {s t : State} (h : runStmt st s = .next t) :
    runScript (st :: rest) s = runScript rest t := by
  rw [runScript, h]

/-- Settles O60: the command is accepted, and WAIT ends with its completion. -/
theorem issueAndWaitShowsTheCompletion : Obligations.IssueAndWaitShowsTheCompletion := by
  intro s i polls hb
  have hissue : runStmt (.issue i) s = _ := feed_hostWrite hb (l := .cmd) rfl (encode i)
  obtain ⟨t, hwait, ht⟩ := feed_wait (s := accept (encode i) { s with inputs := [] }) rfl (decode_encode i) polls
  exact ⟨t, (runScript_cons hissue).trans (runScript_cons hwait), ht⟩

end Sys2Proof.Machine
end

section
/-! PROOFS. COUNT, BUILD and ENCODE read their read sets alone (O49): two runs in step, from states that agree on them. -/

namespace Sys2Proof.Machine
open Sys2Proof.Safety

/-! ## Two runs that end alike -/

/-- Two runs raise the same failure, or both succeed with results that `R` relates. -/
def SameResult {α : Type} (R : α → α → Prop) (r r' : Except Failure α) : Prop :=
  (∃ a a', r = .ok a ∧ r' = .ok a' ∧ R a a') ∨ ∃ f, r = .error f ∧ r' = .error f

theorem SameResult.ok {α : Type} {R : α → α → Prop} {a a' : α} (h : R a a') : SameResult R (.ok a) (.ok a') :=
  .inl ⟨a, a', rfl, rfl, h⟩

theorem SameResult.error {α : Type} {R : α → α → Prop} (f : Failure) : SameResult R (.error f) (.error f) :=
  .inr ⟨f, rfl, rfl⟩

/-- A failure leaves the same result, whatever the state: the error with its details, and an empty output (R198). -/
theorem sameOutputs_raise (i : Instr) (f : Failure) (s s' : State) : sameOutputs i (raise i f s) (raise i f s') := by
  cases i with
  | build => exact ⟨rfl, rfl, rfl, rfl, rfl, nofun⟩
  | _ => exact ⟨rfl, rfl, rfl, rfl, rfl⟩

/-- Commands whose runs end alike have the same result. -/
theorem sameOutputs_of_runOf {i : Instr} {s s' t t' : State}
    (h : SameResult (fun u u' => sameOutputs i (succeed u) (succeed u')) (runOf i s) (runOf i s'))
    (hx : exec i s = .next t) (hx' : exec i s' = .next t') : sameOutputs i t t' := by
  rw [exec_eq_finish] at hx hx'
  cases hx
  cases hx'
  rcases h with ⟨u, u', hu, hu', hsame⟩ | ⟨f, hf, hf'⟩
  · rw [hu, hu']
    exact hsame
  · rw [hf, hf']
    exact sameOutputs_raise i f s s'

theorem map_range_eq_iff {α : Type} {f g : Nat → α} {n : Nat} :
    (List.range n).map f = (List.range n).map g ↔ ∀ i < n, f i = g i := by
  simp only [List.map_inj_left, List.mem_range]

/-- A register never holds more than the number put into it. -/
theorem toNat_ofNat_le (n : Nat) : (BitVec.ofNat 32 n).toNat ≤ n := by
  rw [BitVec.toNat_ofNat]
  exact Nat.mod_le _ _

/-! ## COUNT -/

/-- Two memories agree on the first `N` symbols and on the table of `n` entries. -/
structure SameCounting (c : Config) (N n : Nat) (m m' : Memory) : Prop where
  symbols : ∀ i < N, symbol c m i = symbol c m' i
  syms : ∀ j < n, freqSym c m j = freqSym c m' j
  cnts : ∀ j < n, freqCnt c m j = freqCnt c m' j

theorem SameCounting.findSym_congr {c : Config} {N n : Nat} {m m' : Memory} (h : SameCounting c N n m m') (x : Word) :
    findSym c m x n = findSym c m' x n :=
  List.find?_congr fun j hj => by rw [h.syms j (List.mem_range.mp hj)]

/-- A new entry is the same in both tables. -/
theorem SameCounting.newEntry {c : Config} {N n : Nat} {m m' : Memory} (h : SameCounting c N n m m') (x : Word) :
    SameCounting c N (n + 1) (setFreqCnt c n 1 (setFreqSym c n x m)) (setFreqCnt c n 1 (setFreqSym c n x m')) where
  symbols := h.symbols
  syms j hj := by
    simp only [freqSym_setFreqCnt, freqSym_setFreqSym]
    split
    · rfl
    · exact h.syms j (by omega)
  cnts j hj := by
    simp only [freqCnt_setFreqCnt, freqCnt_setFreqSym]
    split
    · rfl
    · exact h.cnts j (by omega)

/-- A count goes up by one in both tables. -/
theorem SameCounting.increment {c : Config} {N n j : Nat} {m m' : Memory} (h : SameCounting c N n m m') (hj : j < n) :
    SameCounting c N n (setFreqCnt c j (freqCnt c m j + 1) m) (setFreqCnt c j (freqCnt c m' j + 1) m') where
  symbols := h.symbols
  syms k hk := by simpa only [freqSym_setFreqCnt] using h.syms k hk
  cnts k hk := by simp only [freqCnt_setFreqCnt, h.cnts k hk, h.cnts j hj]

theorem countLoop_same {c : Config} {N rem i n : Nat} {m m' : Memory} (hN : i + rem ≤ N) (h : SameCounting c N n m m') :
    SameResult (fun x x' => x.1 = x'.1 ∧ SameCounting c N x.1 x.2 x'.2) (countLoop c rem i n m) (countLoop c rem i n m') := by
  induction rem generalizing i n m m' with
  | zero => exact .ok ⟨rfl, h⟩
  | succ rem ih =>
    simp only [countLoop]
    rw [← h.symbols i (by omega), ← h.findSym_congr]
    split
    · split
      · exact .error _
      · exact ih (by omega) (h.newEntry _)
    · rename_i j hj
      exact ih (by omega) (h.increment (findSym_eq_some.mp hj).1)

theorem countRun_same {s s' : State} (hcfg : s.cfg = s'.cfg) (h : sameInputs .count s s') :
    SameResult (fun u u' => sameOutputs .count (succeed u) (succeed u')) (countRun s) (countRun s') := by
  obtain ⟨hslen, hsyms⟩ := h
  rw [symbols, symbols, ← hslen, ← hcfg, map_range_eq_iff] at hsyms
  unfold countRun
  rw [← hcfg, ← hslen]
  split
  · exact .error _
  · rcases countLoop_same (i := 0) (n := 0) (Nat.zero_add _).le ⟨hsyms, nofun, nofun⟩ with
      ⟨⟨n, m⟩, ⟨n', m'⟩, hl, hl', hn, hm⟩ | ⟨f, hl, hl'⟩
    · rw [hl, hl']
      cases hn
      refine .ok ⟨rfl, rfl, rfl, rfl, map_range_eq_iff.mpr fun j hj => ?_⟩
      have hjn := hj.trans_le (toNat_ofNat_le n)
      exact Prod.ext (hm.syms j hjn) (congrArg BitVec.toNat (hm.cnts j hjn))
    · rw [hl, hl']
      exact .error f

/-! ## ENCODE -/

theorem symbol_setBits (c : Config) (start : Nat) (f : Nat → Bool) (n : Nat) (m : Memory) (i : Nat) :
    symbol c (setBits start f n m) i = symbol c m i := symbol_congr c i (setBits_symbuf start f n m)

theorem codeWord_setBits (c : Config) (start : Nat) (f : Nat → Bool) (n : Nat) (m : Memory) (k : Nat) :
    codeWord c (setBits start f n m) k = codeWord c m k := codeWord_congr c k (setBits_code start f n m)

/-- Two memories agree on the first `N` symbols, on the code table of `n` entries, and on the first `out` bits. -/
structure SameEncoding (c : Config) (N n out : Nat) (m m' : Memory) : Prop where
  symbols : ∀ i < N, symbol c m i = symbol c m' i
  syms : ∀ j < n, codeSym c m j = codeSym c m' j
  lens : ∀ j < n, codeLen c m j = codeLen c m' j
  codes : ∀ j < n, ∀ k < codeLen c m j, codeBit c m j k = codeBit c m' j k
  bits : ∀ k < out, bit m k = bit m' k

theorem SameEncoding.lookup_congr {c : Config} {N n out : Nat} {m m' : Memory} (h : SameEncoding c N n out m m') (x : Word) :
    lookup c m x n = lookup c m' x n :=
  List.find?_congr fun j hj => by
    have hjn := List.mem_range.mp hj
    rw [isEntry, isEntry, h.syms j hjn, h.lens j hjn]

/-- The code of an entry is appended to both bit strings. -/
theorem SameEncoding.append {c : Config} {N n out j : Nat} {m m' : Memory} (h : SameEncoding c N n out m m') (hj : j < n) :
    SameEncoding c N n (out + codeLen c m j) (setBits out (codeBit c m j) (codeLen c m j) m)
      (setBits out (codeBit c m' j) (codeLen c m j) m') := by
  constructor
  case symbols => simpa only [symbol_setBits] using h.symbols
  case syms => simpa only [codeSym, codeWord_setBits] using h.syms
  case lens => simpa only [codeLen, codeWord_setBits] using h.lens
  case codes => simpa only [codeLen, codeBit, codeWord_setBits] using h.codes
  case bits =>
    intro k hk
    simp only [bit_setBits]
    split
    · exact h.codes j hj _ (by omega)
    · exact h.bits k (by omega)

theorem encodeLoop_same {c : Config} {N n rem i out : Nat} {m m' : Memory} (hN : i + rem ≤ N)
    (h : SameEncoding c N n out m m') :
    SameResult (fun x x' => x.1 = x'.1 ∧ SameEncoding c N n x.1 x.2 x'.2) (encodeLoop c n rem i out m)
      (encodeLoop c n rem i out m') := by
  induction rem generalizing i out m m' with
  | zero => exact .ok ⟨rfl, h⟩
  | succ rem ih =>
    simp only [encodeLoop]
    rw [← h.symbols i (by omega), ← h.lookup_congr]
    split
    · exact .error _
    · rename_i j hj
      have hjn := (lookup_eq_some.mp hj).1
      rw [← h.lens j hjn]
      split
      · exact .error _
      · exact ih (by omega) (h.append hjn)

/-- Equal code tables have equal symbols, lengths and bits. -/
theorem sameEncoding_of_codeTable {s s' : State} (hcfg : s.cfg = s'.cfg) (hslen : s.slen = s'.slen)
    (hsyms : symbols s = symbols s') (hncode : s.ncode = s'.ncode) (hcodes : codeTable s = codeTable s') :
    SameEncoding s.cfg s.slen.toNat s.ncode.toNat 0 s.mem s'.mem := by
  rw [symbols, symbols, ← hslen, ← hcfg, map_range_eq_iff] at hsyms
  rw [codeTable, codeTable, ← hncode, map_range_eq_iff] at hcodes
  have hlens : ∀ j < s.ncode.toNat, codeLen s.cfg s.mem j = codeLen s.cfg s'.mem j := by
    intro j hj
    simpa [codeEntry, ← hcfg] using congrArg (·.2.length) (hcodes j hj)
  refine ⟨hsyms, fun j hj => ?_, hlens, fun j hj => ?_, nofun⟩
  · simpa only [codeEntry, ← hcfg] using congrArg (·.1) (hcodes j hj)
  · have hbits := congrArg (·.2) (hcodes j hj)
    simp only [codeEntry, ← hcfg] at hbits
    rwa [← hlens j hj, map_range_eq_iff] at hbits

theorem encodeRun_same {s s' : State} (hcfg : s.cfg = s'.cfg) (h : sameInputs .encode s s') :
    SameResult (fun u u' => sameOutputs .encode (succeed u) (succeed u')) (encodeRun s) (encodeRun s') := by
  obtain ⟨hslen, hsyms, hncode, hcodes⟩ := h
  have hsame := sameEncoding_of_codeTable hcfg hslen hsyms hncode hcodes
  unfold encodeRun
  rw [← hcfg, ← hslen, ← hncode]
  split
  · exact .error _
  split
  · exact .error _
  rcases encodeLoop_same (i := 0) (Nat.zero_add _).le hsame with
      ⟨⟨out, m⟩, ⟨out', m'⟩, hl, hl', hout, hm⟩ | ⟨f, hl, hl'⟩
  · rw [hl, hl']
    cases hout
    exact .ok ⟨rfl, rfl, rfl, rfl, map_range_eq_iff.mpr fun k hk => hm.bits k (hk.trans_le (toNat_ofNat_le out))⟩
  · rw [hl, hl']
    exact .error f

/-! ## BUILD -/

/-! ### The heap operations read the frequencies of the heap's handles only (R123, R125, R126) -/

/-- Two memories give the handles of a heap the same frequencies. -/
def sameFreqs (c : Config) (m m' : Memory) (q : List Handle) : Prop := ∀ x ∈ q, nodeFreq c m x = nodeFreq c m' x

theorem heapAt_mem {q : List Handle} {p : Nat} (h : p < q.length) : heapAt q p ∈ q := by
  rw [heapAt_eq_getElem h]
  exact List.getElem_mem h

section Heap
variable {c : Config} {m m' : Memory}

theorem sameFreqs_perm {q q' : List Handle} (h : sameFreqs c m m' q) (hp : q'.Perm q) : sameFreqs c m m' q' :=
  fun x hx => h x (hp.mem_iff.mp hx)

theorem less_congr {q : List Handle} (h : sameFreqs c m m' q) {p r : Nat} (hp : p < q.length) (hr : r < q.length) :
    less c m (heapAt q p) (heapAt q r) = less c m' (heapAt q p) (heapAt q r) := by
  rw [less, less, h _ (heapAt_mem hp), h _ (heapAt_mem hr)]

theorem siftUp_congr {bound p : Nat} {q : List Handle} (h : sameFreqs c m m' q) (hp : p < q.length) :
    siftUp c m bound p q = siftUp c m' bound p q := by
  induction bound generalizing p q with
  | zero => rfl
  | succ bound ih =>
    have hr : (p - 1) / 2 < q.length := by omega
    simp only [siftUp]
    rw [less_congr h hp hr, ih (sameFreqs_perm h (heapSwap_perm hp hr)) (by rwa [heapSwap_length])]

theorem heapInsert_congr {q : List Handle} {x : Handle} (h : sameFreqs c m m' (x :: q)) :
    heapInsert c m x q = heapInsert c m' x q :=
  siftUp_congr (sameFreqs_perm h (List.perm_append_singleton x q)) (by simp)

theorem leastOfThree_congr {q : List Handle} {p : Nat} (h : sameFreqs c m m' q) (hp : p < q.length) :
    leastOfThree c m q p = leastOfThree c m' q p := by
  have hand {l r : Nat} (hr : r < q.length) : (decide (l < q.length) && less c m (heapAt q l) (heapAt q r)) =
      (decide (l < q.length) && less c m' (heapAt q l) (heapAt q r)) := by
    by_cases hl : l < q.length
    · rw [less_congr h hl hr]
    · simp only [hl, decide_false, Bool.false_and]
  unfold leastOfThree
  simp only
  rw [hand hp]
  refine if_congr (Eq.to_iff (congrArg (· = true) (hand ?_))) rfl rfl
  split_ifs with hl
  · exact of_decide_eq_true (Bool.and_eq_true_iff.mp hl).1
  · exact hp

theorem siftDown_congr {bound p : Nat} {q : List Handle} (h : sameFreqs c m m' q) (hp : p < q.length) :
    siftDown c m bound p q = siftDown c m' bound p q := by
  induction bound generalizing p q with
  | zero => rfl
  | succ bound ih =>
    have ht := leastOfThree_lt c m' hp
    simp only [siftDown]
    rw [leastOfThree_congr h hp, ih (sameFreqs_perm h (heapSwap_perm hp ht)) (by rwa [heapSwap_length])]

theorem heapExtractMin_congr {q : List Handle} (h : sameFreqs c m m' q) : heapExtractMin c m q = heapExtractMin c m' q := by
  unfold heapExtractMin
  simp only
  split
  · rfl
  · rename_i hne
    have hpos : 0 < q.dropLast.length := List.length_pos_iff.mpr (by simpa using hne)
    have hlen : q.length - 1 < q.length := by
      rw [List.length_dropLast] at hpos
      omega
    rw [siftDown_congr (fun x hx => ?_) (by rwa [List.length_set])]
    rcases List.mem_or_eq_of_mem_set hx with hx | rfl
    · exact h x (List.mem_of_mem_dropLast hx)
    · exact h _ (heapAt_mem hlen)

end Heap

/-! ### The two loops -/

/-- A node written in two memories reads the same. -/
theorem node_setNode_same (c : Config) (h : Nat) (nd : Node) (m m' : Memory) :
    node c (setNode c h nd m) h = node c (setNode c h nd m') h := by
  simp [node, nodeWord_setNode]

/-- Two memories agree on NODE[0 .. k-1], to which the handles of the heap belong. -/
structure SameBuilding (c : Config) (k : Nat) (m m' : Memory) (q : List Handle) : Prop where
  nodes : ∀ h < k, node c m h = node c m' h
  below : ∀ x ∈ q, x.toNat < k

section Building
variable {c : Config} {k : Nat} {m m' : Memory} {q : List Handle}

theorem SameBuilding.sameFreqs (h : SameBuilding c k m m' q) : sameFreqs c m m' q :=
  fun x hx => congrArg Node.freq (h.nodes _ (h.below x hx))

theorem SameBuilding.perm {q' : List Handle} (h : SameBuilding c k m m' q) (hp : q'.Perm q) : SameBuilding c k m m' q' :=
  ⟨h.nodes, fun x hx => h.below x (hp.mem_iff.mp hx)⟩

/-- The next node is written in both memories, and its handle is queued. -/
theorem SameBuilding.newNode (h : SameBuilding c k m m' q) (hk : k < 512) (nd : Node) :
    SameBuilding c (k + 1) (setNode c k nd m) (setNode c k nd m') (BitVec.ofNat 9 k :: q) where
  nodes g hg := by
    rcases Nat.lt_succ_iff_lt_or_eq.mp hg with hlt | rfl
    · rw [node_setNode_ne c nd m hlt.ne, node_setNode_ne c nd m' hlt.ne]
      exact h.nodes g hlt
    · exact node_setNode_same c g nd m m'
  below := List.forall_mem_cons.mpr ⟨by rw [BitVec.toNat_ofNat, Nat.mod_eq_of_lt hk]; omega,
    fun x hx => (h.below x hx).trans (Nat.lt_succ_self k)⟩

/-- The heap after the handle of the new node is inserted is the same. -/
theorem SameBuilding.insert (h : SameBuilding c k m m' q) (hk : k < 512) (nd : Node) :
    heapInsert c (setNode c k nd m) (BitVec.ofNat 9 k) q = heapInsert c (setNode c k nd m') (BitVec.ofNat 9 k) q ∧
    SameBuilding c (k + 1) (setNode c k nd m) (setNode c k nd m')
      (heapInsert c (setNode c k nd m') (BitVec.ofNat 9 k) q) :=
  ⟨heapInsert_congr (h.newNode hk nd).sameFreqs, (h.newNode hk nd).perm (heapInsert_perm c _ _ q)⟩

theorem leafOf_setNode (c : Config) (h : Nat) (nd : Node) (m : Memory) (i : Nat) :
    leafOf c (setNode c h nd m) i = leafOf c m i :=
  leafOf_congr c i (setNode_freq c h nd m)

theorem leafLoop_same {rem j : Nat} (hj : j + rem ≤ 512) (hleaf : ∀ i < j + rem, leafOf c m i = leafOf c m' i)
    (h : SameBuilding c j m m' q) :
    (leafLoop c rem j m q).2 = (leafLoop c rem j m' q).2 ∧
    SameBuilding c (j + rem) (leafLoop c rem j m q).1 (leafLoop c rem j m' q).1 (leafLoop c rem j m' q).2 := by
  induction rem generalizing j m m' q with
  | zero => exact ⟨rfl, h⟩
  | succ rem ih =>
    simp only [leafLoop]
    rw [hleaf j (by omega)]
    obtain ⟨hq, hsame⟩ := h.insert (by omega) (leafOf c m' j)
    rw [hq, show j + (rem + 1) = j + 1 + rem by omega]
    refine ih (by omega) (fun i hi => ?_) hsame
    rw [leafOf_setNode, leafOf_setNode]
    exact hleaf i (by omega)

/-- The two least handles are the same, and so is the node that merges them. -/
theorem SameBuilding.mergeOf_congr {a b : Handle} (h : SameBuilding c k m m' (a :: b :: q)) :
    mergeOf c m a b = mergeOf c m' a b := by
  rw [mergeOf, mergeOf, h.sameFreqs a (by simp), h.sameFreqs b (by simp)]

theorem mergeLoop_same {bound : Nat} (hk : k + q.length ≤ 513) (h : SameBuilding c k m m' q) :
    (mergeLoop c bound k m q).1 = (mergeLoop c bound k m' q).1 ∧
    (mergeLoop c bound k m q).2.2 = (mergeLoop c bound k m' q).2.2 ∧
    ∀ g < (mergeLoop c bound k m q).1, node c (mergeLoop c bound k m q).2.1 g = node c (mergeLoop c bound k m' q).2.1 g := by
  induction bound generalizing k m m' q with
  | zero => exact ⟨rfl, rfl, h.nodes⟩
  | succ bound ih =>
    by_cases hq : 1 < q.length
    · rw [mergeLoop_merge hq, mergeLoop_merge hq, heapExtractMin_congr h.sameFreqs]
      have hx := heapExtractMin_perm c m' (q := q) (List.ne_nil_of_length_pos (by omega))
      have hxlen := heapExtractMin_length c m' q
      have hy := heapExtractMin_perm c m' (q := (heapExtractMin c m' q).2) (List.ne_nil_of_length_pos (by omega))
      have hylen := heapExtractMin_length c m' (heapExtractMin c m' q).2
      generalize heapExtractMin c m' q = x at *
      have hrest : sameFreqs c m m' x.2 := fun z hz => (h.perm hx).sameFreqs z (List.mem_cons_of_mem _ hz)
      simp only
      rw [heapExtractMin_congr hrest]
      generalize heapExtractMin c m' x.2 = y at *
      have hxy : SameBuilding c k m m' (x.1 :: y.1 :: y.2) := h.perm ((hy.cons x.1).trans hx)
      have hrest' : SameBuilding c k m m' y.2 := ⟨h.nodes, fun z hz => hxy.below z (by simp [hz])⟩
      rw [hxy.mergeOf_congr]
      obtain ⟨hins, hsame⟩ := hrest'.insert (by omega) (mergeOf c m' x.1 y.1)
      rw [hins]
      exact ih (by rw [heapInsert_length]; omega) hsame
    · rw [mergeLoop, mergeLoop, if_neg hq, if_neg hq]
      exact ⟨rfl, rfl, h.nodes⟩

end Building

/-- BUILD's loops on equal tables of at most 256 entries end in the same tree. -/
theorem buildLoops_same {c : Config} {n : Nat} {m m' : Memory} (hn : n ≤ 256)
    (hleaf : ∀ i < n, leafOf c m i = leafOf c m' i) :
    (buildLoops c n m).1 = (buildLoops c n m').1 ∧ (buildLoops c n m).2.2 = (buildLoops c n m').2.2 ∧
    ∀ g < (buildLoops c n m).1, node c (buildLoops c n m).2.1 g = node c (buildLoops c n m').2.1 g := by
  obtain ⟨hq, hsame⟩ := leafLoop_same (q := []) (j := 0) (rem := n) (by omega) (by simpa using hleaf) ⟨nofun, nofun⟩
  rw [Nat.zero_add] at hsame
  have hlen : (leafLoop c n 0 m' []).2.length = n := by
    have hnone : LeavesMade c m' 0 m' [] := ⟨rfl, nofun, List.Perm.refl _⟩
    rw [(leafLoop_leavesMade (rem := n) hnone).queue.length_eq]
    simp
  unfold buildLoops
  rw [hq]
  exact mergeLoop_same (by omega) hsame

theorem buildRun_same {s s' : State} (hcfg : s.cfg = s'.cfg) (h : sameInputs .build s s') :
    SameResult (fun u u' => sameOutputs .build (succeed u) (succeed u')) (buildRun s) (buildRun s') := by
  obtain ⟨hnfreq, htable⟩ := h
  rw [frequencyTable, frequencyTable, ← hnfreq, ← hcfg, map_range_eq_iff] at htable
  have hleaf : ∀ j < s.nfreq.toNat, leafOf s.cfg s.mem j = leafOf s.cfg s'.mem j := by
    intro j hj
    obtain ⟨hsym, hcnt⟩ := Prod.mk.inj (htable j hj)
    rw [leafOf, leafOf, hsym, BitVec.eq_of_toNat_eq hcnt]
  by_cases hmax : s.cfg.nsym < s.nfreq.toNat
  · unfold buildRun
    rw [← hcfg, ← hnfreq, if_pos hmax, if_pos hmax]
    exact .error _
  by_cases h0 : s.nfreq.toNat = 0
  · unfold buildRun
    rw [← hcfg, ← hnfreq, if_neg hmax, if_neg hmax, if_pos h0, if_pos h0]
    exact .error _
  obtain ⟨u, hu⟩ := buildRun_of_le (s := s) (by omega) (by omega)
  obtain ⟨u', hu'⟩ := buildRun_of_le (s := s') (by rw [← hnfreq]; omega) (by rw [← hnfreq, ← hcfg]; omega)
  rw [hu, hu']
  obtain ⟨-, -, rfl⟩ := buildRun_ok hu
  obtain ⟨-, -, rfl⟩ := buildRun_ok hu'
  have hnsym := (config_bounds s.cfg).2.1
  obtain ⟨hk, hq, hnodes⟩ := buildLoops_same (by omega) hleaf
  rw [← hcfg, ← hnfreq]
  refine .ok ⟨rfl, rfl, rfl, congrArg (BitVec.ofNat 32) hk, congrArg (heapAt · 0) hq, fun g hg => ?_⟩
  exact hnodes g (hg.trans_le (toNat_ofNat_le _))

end Sys2Proof.Machine
end

section
/-! PROOFS. GENCODES and DECODE read of NODE the nodes reached from ROOT alone, which ends O49. -/

namespace Sys2Proof.Machine
open Sys2Proof.Safety

/-! ## The nodes reached from ROOT -/

theorem follow_concat (s : State) (h : Handle) (p : List Bool) (b : Bool) : follow s h (p ++ [b]) =
    if b then (node s.cfg s.mem (follow s h p).toNat).right else (node s.cfg s.mem (follow s h p).toNat).left := by
  induction p generalizing h with
  | nil => rfl
  | cons a p ih => exact ih _

/-- Handle `h` is reached from ROOT along some path. -/
def reachedHandle (s : State) (h : Handle) : Prop := ∃ p, reached s p ∧ follow s s.root p = h

theorem reachedHandle_root {s : State} (h : s.root.toNat < s.nnodes.toNat) : reachedHandle s s.root :=
  ⟨[], ⟨nofun, h⟩, rfl⟩

theorem reachedHandle.lt {s : State} {h : Handle} (hr : reachedHandle s h) : h.toNat < s.nnodes.toNat := by
  obtain ⟨p, hp, rfl⟩ := hr
  exact hp.2

/-- The children of a reached INTERNAL node are reached, where they name nodes. -/
theorem reachedHandle.child {s : State} {h : Handle} (hr : reachedHandle s h) (hg : goodInternal s h) (b : Bool)
    (hlt : (if b then (node s.cfg s.mem h.toNat).right else (node s.cfg s.mem h.toNat).left).toNat < s.nnodes.toNat) :
    reachedHandle s (if b then (node s.cfg s.mem h.toNat).right else (node s.cfg s.mem h.toNat).left) := by
  obtain ⟨p, ⟨hpath, hp⟩, rfl⟩ := hr
  rw [← follow_concat] at hlt ⊢
  refine ⟨p ++ [b], ⟨fun k hk => ?_, hlt⟩, rfl⟩
  rw [List.length_append, List.length_singleton] at hk
  rw [List.take_append_of_le_length (by omega)]
  rcases Nat.lt_succ_iff_lt_or_eq.mp hk with hk | rfl
  · exact hpath k hk
  · rw [List.take_length]
    exact ⟨hp, hg⟩

/-- The tree of `s` stands in `m`, and `m'` agrees with it on the reached nodes. -/
structure SameTree (s : State) (m m' : Memory) : Prop where
  node_eq : m.node = s.mem.node
  same : ∀ h, reachedHandle s h → sameNode (node s.cfg s.mem h.toNat) (node s.cfg m' h.toNat)

theorem sameTree_of_sameReachedNodes {s s' : State} (hcfg : s.cfg = s'.cfg) (h : sameReachedNodes s s') :
    SameTree s s.mem s'.mem where
  node_eq := rfl
  same := by
    obtain ⟨-, -, hnodes⟩ := h
    rintro _ ⟨p, hp, rfl⟩
    rw [hcfg]
    exact hcfg ▸ hnodes p hp

section Tree
variable {s : State} {m m' : Memory}

/-- NODE is all the tree stands in. -/
theorem SameTree.of_node_eq {m1 m1' : Memory} (h : SameTree s m m') (hm : m1.node = m.node) (hm' : m1'.node = m'.node) :
    SameTree s m1 m1' where
  node_eq := hm.trans h.node_eq
  same g hg := by
    rw [node_congr s.cfg _ hm']
    exact h.same g hg

/-- What is read of a reached node is the same in both memories. -/
theorem SameTree.sameNode (h : SameTree s m m') {g : Handle} (hg : reachedHandle s g) :
    sameNode (node s.cfg m g.toNat) (node s.cfg m' g.toNat) := by
  rw [node_congr s.cfg _ h.node_eq]
  exact h.same g hg

/-! ## GENCODES -/

/-- A visit that goes on to the children has tested them (R143). -/
theorem visit_internal {c : Config} {nnodes : Nat} {h : Handle} {d n : Nat} {l r : Handle}
    (hv : visit c nnodes m h d n = .ok (.internal l r)) :
    h.toNat < nnodes ∧ (node c m h.toNat).kind = .internal ∧ (node c m h.toNat).left ≠ nilHandle ∧
    (node c m h.toNat).right ≠ nilHandle ∧ l = (node c m h.toNat).left ∧ r = (node c m h.toNat).right := by
  unfold visit at hv
  simp only at hv
  split at hv
  · cases hv
  · split at hv
    · split at hv
      · cases hv
      · split at hv <;> cases hv
    · split at hv
      · cases hv
      · split at hv
        · cases hv
        · cases hv
          simp_all

/-- A visit reads the node visited, where there is one. -/
theorem visit_same (ht : SameTree s m m') {h : Handle} (hh : h.toNat < s.nnodes.toNat → reachedHandle s h) (d n : Nat) :
    visit s.cfg s.nnodes.toNat m' h d n = visit s.cfg s.nnodes.toNat m h d n := by
  unfold visit
  split
  · rfl
  · obtain ⟨hkind, hleft, hright, hsym⟩ := ht.sameNode (hh (by omega))
    simp only
    rw [← hkind, ← hleft, ← hright]
    cases hk : (node s.cfg m h.toNat).kind with
    | leaf => simp only [hsym hk]
    | internal => rfl

/-- Two memories agree on the tree and on the code table of `n` entries, as words. -/
structure SameWalk (s : State) (n : Nat) (m m' : Memory) : Prop where
  tree : SameTree s m m'
  words : ∀ k < 16 * n, codeWord s.cfg m k = codeWord s.cfg m' k

theorem codeWord_reserved (c : Config) (m : Memory) {k : Nat} (h : 10 ≤ k % 16) : codeWord c m k = 0 :=
  (congrArg (readField .code · m.code k) (codeWidth_reserved c h)).trans (readField_zero_width ..)

/-- The entry of a leaf is the same in both tables, reserved words included. -/
theorem SameWalk.entry {n : Nat} (h : SameWalk s n m m') (sym : Word) (len : Nat) (path : List Bool) :
    SameWalk s (n + 1) (setCode s.cfg n sym len path m) (setCode s.cfg n sym len path m') where
  tree := h.tree.of_node_eq (setCode_node ..) (setCode_node ..)
  words k hk := by
    simp only [codeWord_setCode]
    split_ifs
    · rfl
    · rfl
    · rfl
    · by_cases hlt : k < 16 * n
      · exact h.words k hlt
      · rw [codeWord_reserved _ _ (by omega), codeWord_reserved _ _ (by omega)]

/-- Agreement on the words of the table is agreement on the table. -/
theorem SameWalk.codeTable {n : Nat} (h : SameWalk s n m m') {u u' : State} (hcfg : u.cfg = s.cfg) (hcfg' : u'.cfg = s.cfg)
    (hmem : u.mem = m) (hmem' : u'.mem = m') (hncode : u.ncode = u'.ncode) (hn : u.ncode.toNat ≤ n) :
    codeTable u = codeTable u' := by
  rw [Safety.codeTable, Safety.codeTable, ← hncode]
  refine map_range_eq_iff.mpr fun j hj => ?_
  have hsym : codeSym s.cfg m j = codeSym s.cfg m' j := h.words _ (by omega)
  have hlen : codeLen s.cfg m j = codeLen s.cfg m' j := congrArg BitVec.toNat (h.words _ (by omega))
  have hmax : codeLen s.cfg m j < 2 ^ codeWidth s.cfg ((16 * j + 1) % 16) := readField_lt _ _ _ _
  have hwidth : codeWidth s.cfg ((16 * j + 1) % 16) = 8 := by rw [Nat.mul_add_mod]; rfl
  rw [hwidth] at hmax
  rw [codeEntry, codeEntry, hcfg, hcfg', hmem, hmem', hsym, ← hlen]
  refine Prod.ext rfl (map_range_eq_iff.mpr fun k hk => ?_)
  rw [codeBit, codeBit, h.words _ (by omega)]

/-- The two walks visit the same nodes. -/
theorem walk_same {room n : Nat} {path : List Bool} {h : Handle} (hw : SameWalk s n m m')
    (hh : h.toNat < s.nnodes.toNat → reachedHandle s h) :
    SameResult (fun x x' => x.1 = x'.1 ∧ SameWalk s x.1 x.2 x'.2) (walk s.cfg s.nnodes.toNat room path h n m)
      (walk s.cfg s.nnodes.toNat room path h n m') := by
  induction room generalizing path h n m m' with
  | zero =>
    simp only [walk]
    rw [visit_same hw.tree hh]
    split
    · exact .error _
    · exact .ok ⟨rfl, hw.entry _ _ _⟩
    · exact .error _
  | succ room ih =>
    simp only [walk]
    rw [visit_same hw.tree hh]
    split
    · exact .error _
    · exact .ok ⟨rfl, hw.entry _ _ _⟩
    · rename_i l r hv
      obtain ⟨hlt, hkind, hl, hr, rfl, rfl⟩ := visit_internal hv
      rw [node_congr s.cfg _ hw.tree.node_eq] at hkind hl hr ⊢
      have hchild := (hh hlt).child ⟨hkind, hl, hr⟩
      have hleft : (node s.cfg s.mem h.toNat).left.toNat < _ → reachedHandle s _ := hchild false
      rcases ih (path := path ++ [false]) hw hleft with ⟨⟨n1, m1⟩, ⟨n1', m1'⟩, hx, hx', hn1, hw1⟩ | ⟨f, hx, hx'⟩
      · cases hn1
        rw [hx, hx']
        exact ih hw1 (hchild true)
      · rw [hx, hx']
        exact .error f

end Tree

theorem gencodesTraversal_same {s s' : State} (hcfg : s.cfg = s'.cfg) (h : sameReachedNodes s s')
    (hroot : s.root.toNat < s.nnodes.toNat) :
    SameResult (fun x x' => x.1 = x'.1 ∧ SameWalk s x.1 x.2 x'.2) (gencodesTraversal s) (gencodesTraversal s') := by
  have hw : SameWalk s 0 s.mem s'.mem := ⟨sameTree_of_sameReachedNodes hcfg h, nofun⟩
  obtain ⟨heq, hnn, -⟩ := h
  obtain ⟨hkind, hleft, hright, hsym⟩ := hw.tree.sameNode (reachedHandle_root hroot)
  unfold gencodesTraversal
  rw [← hcfg, ← heq, ← hnn, ← hkind]
  cases hk : (node s.cfg s.mem s.root.toNat).kind with
  | leaf =>
    simp only [singleLeaf]
    rw [← hleft, ← hright, ← hsym hk]
    split
    · exact .error _
    · exact .ok ⟨rfl, hw.entry _ _ _⟩
  | internal => exact walk_same hw reachedHandle_root

theorem gencodesRun_same {s s' : State} (hcfg : s.cfg = s'.cfg) (h : sameInputs .gencodes s s') :
    SameResult (fun u u' => sameOutputs .gencodes (succeed u) (succeed u')) (gencodesRun s) (gencodesRun s') := by
  obtain ⟨heq, hnn, -⟩ := id h
  rw [gencodesRun_eq, gencodesRun_eq, ← hcfg, ← heq, ← hnn]
  split
  · exact .error _
  split
  · exact .error _
  rcases gencodesTraversal_same hcfg h (by omega) with ⟨⟨n, m⟩, ⟨n', m'⟩, hx, hx', hn, hw⟩ | ⟨f, hx, hx'⟩
  · cases hn
    rw [hx, hx']
    exact .ok ⟨rfl, rfl, rfl, rfl, hw.codeTable rfl rfl rfl rfl rfl (toNat_ofNat_le n)⟩
  · rw [hx, hx']
    exact .error f

/-! ## DECODE -/

section Decode
variable {s : State} {m m' : Memory}

/-- Two memories agree on the tree, on the first `N` bits, and on the first `out` symbols. -/
structure SameDecoding (s : State) (N out : Nat) (m m' : Memory) : Prop where
  tree : SameTree s m m'
  bits : ∀ k < N, bit m k = bit m' k
  symbols : ∀ k < out, symbol s.cfg m k = symbol s.cfg m' k

/-- Two runs of DECODE stand at the same reached cursor, with the same symbols emitted. -/
def SameCursor (s : State) (N : Nat) (x x' : Handle × Nat × Memory) : Prop :=
  x.1 = x'.1 ∧ x.2.1 = x'.2.1 ∧ reachedHandle s x.1 ∧ SameDecoding s N x.2.1 x.2.2 x'.2.2

theorem emit_same {N out : Nat} (h : SameDecoding s N out m m') (sym : Word) (i : Nat) :
    SameResult (fun x x' => x.1 = x'.1 ∧ SameDecoding s N x.1 x.2 x'.2) (emit s.cfg sym i out m) (emit s.cfg sym i out m') := by
  unfold emit
  split
  · exact .error _
  · refine .ok ⟨rfl, h.tree.of_node_eq rfl rfl, h.bits, fun k hk => ?_⟩
    simp only [symbol_setSymbol]
    split
    · rfl
    · exact h.symbols k (by omega)

/-- A LEAF at the cursor emits the same symbol, or fails the same way. -/
theorem decodeAtLeaf_same {N out : Nat} (h : SameDecoding s N out m m') {nd nd' : Node} (hnd : sameNode nd nd')
    (hk : nd.kind = .leaf) (i : Nat) (cur : Handle) (b : Bool) :
    SameResult (fun x x' => x.1 = x'.1 ∧ SameDecoding s N x.1 x.2 x'.2) (decodeAtLeaf s.cfg i cur nd b out m)
      (decodeAtLeaf s.cfg i cur nd' b out m') := by
  obtain ⟨-, hleft, hright, hsym⟩ := hnd
  unfold decodeAtLeaf
  rw [← hleft, ← hright, ← hsym hk]
  split
  · exact .error _
  split
  · exact .error _
  · exact emit_same h _ i

/-- An INTERNAL node at the cursor leads to the same child, or fails the same way. -/
theorem decodeAtInternal_same {N out : Nat} (h : SameDecoding s N out m m') {cur : Handle} (hcur : reachedHandle s cur)
    (hk : (node s.cfg m cur.toNat).kind = .internal) (hroot : reachedHandle s s.root) (i : Nat) (b : Bool) :
    SameResult (SameCursor s N)
      (decodeAtInternal s.cfg s.nnodes.toNat s.root i cur (node s.cfg m cur.toNat) b out m)
      (decodeAtInternal s.cfg s.nnodes.toNat s.root i cur (node s.cfg m' cur.toNat) b out m') := by
  obtain ⟨-, hleft, hright, -⟩ := h.tree.sameNode hcur
  unfold decodeAtInternal
  rw [← hleft, ← hright]
  rw [node_congr s.cfg _ h.tree.node_eq] at hk ⊢
  split
  · exact .error _
  rename_i hchildren
  rw [not_or] at hchildren
  have hchild := hcur.child ⟨hk, hchildren⟩ b
  simp only
  generalize (if b = true then (node s.cfg s.mem cur.toNat).right else (node s.cfg s.mem cur.toNat).left) = next at *
  split
  · exact .error _
  have hnext : reachedHandle s next := hchild (by omega)
  obtain ⟨hkind, hleft, hright, hsym⟩ := h.tree.sameNode hnext
  rw [← hkind, ← hleft, ← hright]
  cases hk' : (node s.cfg m next.toNat).kind with
  | leaf =>
    simp only
    rw [← hsym hk']
    split
    · exact .error _
    rcases emit_same h (node s.cfg m next.toNat).sym i with ⟨⟨o, x⟩, ⟨o', x'⟩, hx, hx', ho, hd⟩ | ⟨f, hx, hx'⟩
    · rw [hx, hx']
      exact .ok ⟨rfl, ho, hroot, hd⟩
    · rw [hx, hx']
      exact .error f
  | internal => exact .ok ⟨rfl, rfl, hnext, h⟩

theorem decodeBit_same {N out i : Nat} (h : SameDecoding s N out m m') {cur : Handle} (hcur : reachedHandle s cur)
    (hroot : reachedHandle s s.root) (hi : i < N) :
    SameResult (SameCursor s N) (decodeBit s.cfg s.nnodes.toNat s.root i cur out m)
      (decodeBit s.cfg s.nnodes.toNat s.root i cur out m') := by
  have hnode := h.tree.sameNode hcur
  unfold decodeBit
  simp only
  rw [← hnode.1, ← h.bits i hi]
  cases hk : (node s.cfg m cur.toNat).kind with
  | leaf =>
    rcases decodeAtLeaf_same h hnode hk i cur (bit m i) with ⟨⟨o, x⟩, ⟨o', x'⟩, hx, hx', ho, hd⟩ | ⟨f, hx, hx'⟩
    · simp only [hx, hx']
      exact .ok ⟨rfl, ho, hcur, hd⟩
    · simp only [hx, hx']
      exact .error f
  | internal => exact decodeAtInternal_same h hcur hk hroot i (bit m i)

theorem decodeLoop_same {N rem i out : Nat} (h : SameDecoding s N out m m') {cur : Handle} (hcur : reachedHandle s cur)
    (hroot : reachedHandle s s.root) (hN : i + rem ≤ N) :
    SameResult (SameCursor s N) (decodeLoop s.cfg s.nnodes.toNat s.root rem i cur out m)
      (decodeLoop s.cfg s.nnodes.toNat s.root rem i cur out m') := by
  induction rem generalizing i cur out m m' with
  | zero => exact .ok ⟨rfl, rfl, hcur, h⟩
  | succ rem ih =>
    simp only [decodeLoop]
    rcases decodeBit_same h hcur hroot (i := i) (by omega) with
      ⟨⟨cur1, o, x⟩, ⟨cur1', o', x'⟩, hx, hx', rfl, rfl, hcur1, hd⟩ | ⟨f, hx, hx'⟩
    · rw [hx, hx']
      exact ih hd hcur1 (by omega)
    · rw [hx, hx']
      exact .error f

end Decode

theorem decodeRun_same {s s' : State} (hcfg : s.cfg = s'.cfg) (h : sameInputs .decode s s') :
    SameResult (fun u u' => sameOutputs .decode (succeed u) (succeed u')) (decodeRun s) (decodeRun s') := by
  obtain ⟨hblen, hbits, hnodes⟩ := h
  have htree := sameTree_of_sameReachedNodes hcfg hnodes
  obtain ⟨heq, hnn, -⟩ := hnodes
  rw [bits, bits, ← hblen, map_range_eq_iff] at hbits
  unfold decodeRun
  rw [← hcfg, ← heq, ← hnn, ← hblen]
  split
  · exact .error _
  split
  · exact .error _
  split
  · exact .error _
  have hroot : reachedHandle s s.root := reachedHandle_root (by omega)
  rcases decodeLoop_same (out := 0) ⟨htree, hbits, nofun⟩ hroot hroot (Nat.zero_add _).le with
    ⟨⟨cur, out, m⟩, ⟨cur', out', m'⟩, hx, hx', hcur, hout, -, hd⟩ | ⟨f, hx, hx'⟩
  · cases hcur
    cases hout
    rw [hx, hx']
    simp only
    split
    · exact .error _
    · refine .ok ⟨rfl, rfl, rfl, rfl, map_range_eq_iff.mpr fun i hi => ?_⟩
      exact hd.symbols i (hi.trans_le (toNat_ofNat_le out))
  · rw [hx, hx']
    exact .error f

/-- Settles O49, command by command: two runs from states that agree on the read set stay in step and end alike. -/
theorem commandsReadOnlyTheirReadSets : Obligations.CommandsReadOnlyTheirReadSets := by
  intro i s s' t t' hcfg h
  refine sameOutputs_of_runOf ?_
  cases i with
  | count => exact countRun_same hcfg h
  | build => exact buildRun_same hcfg h
  | gencodes => exact gencodesRun_same hcfg h
  | encode => exact encodeRun_same hcfg h
  | decode => exact decodeRun_same hcfg h

end Sys2Proof.Machine
end

section
/-! PROOFS. COUNT tabulates its sequence (O23), and where it finds no room (O24). -/

namespace Sys2Proof.Machine
open Sys2Proof.Safety

/-! ## The different values of a sequence (R112) -/

@[simp] theorem mem_firstOccurrences {x : Word} {xs : List Word} : x ∈ firstOccurrences xs ↔ x ∈ xs := by
  induction xs with
  | nil => rfl
  | cons y ys ih =>
    simp only [firstOccurrences, List.mem_cons, List.mem_filter, ih, bne_iff_ne]
    tauto

theorem nodup_firstOccurrences (xs : List Word) : (firstOccurrences xs).Nodup := by
  induction xs with
  | nil => exact .nil
  | cons y ys ih => exact List.nodup_cons.mpr ⟨by simp, ih.filter _⟩

/-- One more symbol adds itself at the end, where it is new. -/
theorem firstOccurrences_concat (xs : List Word) (x : Word) :
    firstOccurrences (xs ++ [x]) = firstOccurrences xs ++ if x ∈ xs then [] else [x] := by
  induction xs with
  | nil => rfl
  | cons y ys ih =>
    simp only [List.cons_append, firstOccurrences, ih, List.filter_append, List.mem_cons]
    by_cases hy : x = y <;> by_cases hx : x ∈ ys <;> simp [hx, hy]

theorem length_firstOccurrences_le_concat (xs : List Word) (x : Word) :
    (firstOccurrences xs).length ≤ (firstOccurrences (xs ++ [x])).length := by
  rw [firstOccurrences_concat, List.length_append]
  exact Nat.le_add_right _ _

theorem sum_count_firstOccurrences (xs : List Word) : ((firstOccurrences xs).map fun x => xs.count x).sum = xs.length := by
  have hperm : (firstOccurrences xs).Perm xs.dedup :=
    (List.perm_ext_iff_of_nodup (nodup_firstOccurrences xs) xs.nodup_dedup).mpr fun x => by simp
  rw [(hperm.map _).sum_eq, List.sum_map_count_dedup_eq_length]

/-- There are no more different values of `w` bits than numbers below 2^w. -/
theorem length_firstOccurrences_le {xs : List Word} {w : Nat} (h : ∀ x ∈ xs, x.toNat < 2 ^ w) :
    (firstOccurrences xs).length ≤ 2 ^ w := by
  have hnodup := (nodup_firstOccurrences xs).map fun _ _ => BitVec.eq_of_toNat_eq
  have hsub : (firstOccurrences xs).map BitVec.toNat ⊆ List.range (2 ^ w) := fun v hv => by
    obtain ⟨x, hx, rfl⟩ := List.mem_map.mp hv
    exact List.mem_range.mpr (h x (mem_firstOccurrences.mp hx))
  simpa using (hnodup.subperm hsub).length_le

/-! ## The symbols COUNT has read -/

@[simp] theorem length_symbols (s : State) : (symbols s).length = s.slen.toNat := by simp [symbols]

theorem take_symbols_succ {s : State} {i : Nat} (h : i < s.slen.toNat) :
    (symbols s).take (i + 1) = (symbols s).take i ++ [symbol s.cfg s.mem i] := by
  rw [← List.take_append_getElem (by rwa [length_symbols])]
  simp [symbols]

theorem toNat_lt_of_mem_symbols {s : State} {x : Word} (h : x ∈ symbols s) : x.toNat < 2 ^ s.cfg.symW := by
  obtain ⟨i, -, rfl⟩ := List.mem_map.mp h
  exact symbol_lt _ _ i

/-! ## The table grows with the symbols read (R111) -/

/-- FREQ[0 .. n-1] is the frequency table of the sequence `xs`. -/
structure Tabulates (c : Config) (xs : List Word) (n : Nat) (m : Memory) : Prop where
  syms : (List.range n).map (freqSym c m) = firstOccurrences xs
  cnts : ∀ j < n, (freqCnt c m j).toNat = xs.count (freqSym c m j)

section Table
variable {c : Config} {xs : List Word} {n : Nat} {m : Memory}

theorem tabulates_nil (c : Config) (m : Memory) : Tabulates c [] 0 m := ⟨rfl, nofun⟩

theorem Tabulates.length_eq (h : Tabulates c xs n m) : (firstOccurrences xs).length = n := by
  rw [← h.syms, List.length_map, List.length_range]

/-- The table's symbols are those of the sequence. -/
theorem Tabulates.mem_iff (h : Tabulates c xs n m) {x : Word} : x ∈ xs ↔ ∃ j < n, freqSym c m j = x := by
  rw [← mem_firstOccurrences, ← h.syms]
  simp

theorem Tabulates.findSym_eq_none_iff (h : Tabulates c xs n m) {x : Word} : findSym c m x n = none ↔ x ∉ xs := by
  rw [findSym_eq_none, h.mem_iff]
  simp

/-- No symbol stands in two entries. -/
theorem Tabulates.freqSym_inj (h : Tabulates c xs n m) {j k : Nat} (hj : j < n) (hk : k < n)
    (he : freqSym c m j = freqSym c m k) : j = k :=
  List.inj_on_of_nodup_map (h.syms ▸ nodup_firstOccurrences xs) (List.mem_range.mpr hj) (List.mem_range.mpr hk) he

/-- A symbol not yet in the table makes the next entry, with count 1. -/
theorem Tabulates.newEntry (h : Tabulates c xs n m) {x : Word} (hx : x ∉ xs) (hw : x.toNat < 2 ^ c.symW) :
    Tabulates c (xs ++ [x]) (n + 1) (setFreqCnt c n 1 (setFreqSym c n x m)) := by
  have hne : ∀ j < n, freqSym c m j ≠ x := findSym_eq_none.mp (h.findSym_eq_none_iff.mpr hx)
  have hone : keepLow c.cntW 1 = 1 :=
    keepLow_of_lt (Nat.one_lt_two_pow (by have := config_bounds c; omega))
  have hsym (j : Nat) : freqSym c (setFreqCnt c n 1 (setFreqSym c n x m)) j = if j = n then x else freqSym c m j := by
    rw [freqSym_setFreqCnt, freqSym_setFreqSym, keepLow_of_lt hw]
  constructor
  case syms =>
    rw [firstOccurrences_concat, if_neg hx, ← h.syms, List.range_succ, List.map_append, List.map_singleton, hsym, if_pos rfl]
    congr 1
    exact List.map_congr_left fun j hj => (hsym j).trans (if_neg (List.mem_range.mp hj).ne)
  case cnts =>
    intro j hj
    rw [hsym, freqCnt_setFreqCnt, freqCnt_setFreqSym, List.count_append]
    split
    · rw [hone, List.count_eq_zero.mpr hx, List.count_singleton_self]
      rfl
    · rw [List.count_singleton, if_neg (by simpa using (hne j (by omega)).symm)]
      exact h.cnts j (by omega)

/-- A count has room for every symbol of a sequence that fits (R8). -/
theorem seqN_lt_two_pow_cntW (c : Config) : c.seqN < 2 ^ c.cntW := by
  have hok := c.ok
  simp only [Params.valid, Bool.and_eq_true, decide_eq_true_eq] at hok
  have := Nat.two_pow_pos c.cntW
  simp only [Config.seqN, Config.cntW] at this ⊢
  omega

/-- A symbol found at entry `j` adds one to its count, and the count does not overflow. -/
theorem Tabulates.increment (h : Tabulates c xs n m) {x : Word} {j : Nat} (hj : findSym c m x n = some j)
    (hfit : xs.length < c.seqN) : Tabulates c (xs ++ [x]) n (setFreqCnt c j (freqCnt c m j + 1) m) := by
  obtain ⟨hjn, rfl, -⟩ := findSym_eq_some.mp hj
  have hmem : freqSym c m j ∈ xs := h.mem_iff.mpr ⟨j, hjn, rfl⟩
  have hcnt := h.cnts j hjn
  have hlt : xs.count (freqSym c m j) + 1 < 2 ^ c.cntW := by
    have := xs.count_le_length (a := freqSym c m j)
    have := seqN_lt_two_pow_cntW c
    omega
  have hadd : (freqCnt c m j + 1).toNat = xs.count (freqSym c m j) + 1 := by
    have hcap : 2 ^ c.cntW ≤ 2 ^ 32 := Nat.pow_le_pow_right (by decide) (by have := config_bounds c; omega)
    rw [BitVec.toNat_add_of_lt (by rw [hcnt]; exact hlt.trans_le hcap), hcnt]
    rfl
  constructor
  case syms =>
    rw [firstOccurrences_concat, if_pos hmem, List.append_nil, ← h.syms]
    exact List.map_congr_left fun k _ => freqSym_setFreqCnt ..
  case cnts =>
    intro k hk
    rw [freqSym_setFreqCnt, freqCnt_setFreqCnt, List.count_append]
    split
    · subst k
      rw [keepLow_toNat, hadd, Nat.mod_eq_of_lt hlt, List.count_singleton_self]
    · rename_i hkj
      have hne : freqSym c m j ≠ freqSym c m k := fun he => hkj (h.freqSym_inj hjn hk he).symm
      rw [List.count_singleton, if_neg (by simpa using hne)]
      exact h.cnts k hk

end Table

/-! ## COUNT's loop runs along the sequence (R111) -/

section Turn
variable {c : Config} {m : Memory} {i n j : Nat}

/-! A turn of the loop, by what the search finds: no entry and room for one, no entry and no room, or an entry. -/

theorem countLoop_new (hf : findSym c m (symbol c m i) n = none) (hn : n ≠ c.nsym) (rem : Nat) :
    countLoop c (rem + 1) i n m =
      countLoop c rem (i + 1) (n + 1) (setFreqCnt c n 1 (setFreqSym c n (symbol c m i) m)) := by
  simp only [countLoop, hf, if_neg hn]

theorem countLoop_full (hf : findSym c m (symbol c m i) c.nsym = none) (rem : Nat) :
    countLoop c (rem + 1) i c.nsym m = .error { err := .capacity, info := symbol c m i, pos := BitVec.ofNat 32 i } := by
  simp only [countLoop, hf, if_true]

theorem countLoop_found (hf : findSym c m (symbol c m i) n = some j) (rem : Nat) :
    countLoop c (rem + 1) i n m = countLoop c rem (i + 1) n (setFreqCnt c j (freqCnt c m j + 1) m) := by
  simp only [countLoop, hf]

end Turn

/-- COUNT's loop after `i` symbols: FREQ is their table, and SYMBUF is as it was. -/
structure Counted (s : State) (i n : Nat) (m : Memory) : Prop where
  table : Tabulates s.cfg ((symbols s).take i) n m
  symbuf : m.symbuf = s.mem.symbuf

section Loop
variable {s : State} {i n : Nat} {m : Memory}

theorem Counted.symbol_eq (h : Counted s i n m) (k : Nat) : symbol s.cfg m k = symbol s.cfg s.mem k :=
  symbol_congr _ _ h.symbuf

/-- One turn of the loop where the symbol has an entry or there is room for one. -/
theorem Counted.step (h : Counted s i n m) (hi : i < s.slen.toNat) (hfit : i < s.cfg.seqN)
    (hroom : (firstOccurrences ((symbols s).take (i + 1))).length ≤ s.cfg.nsym) :
    ∃ n' m', Counted s (i + 1) n' m' ∧ ∀ rem, countLoop s.cfg (rem + 1) i n m = countLoop s.cfg rem (i + 1) n' m' := by
  have htake : (symbols s).take (i + 1) = (symbols s).take i ++ [symbol s.cfg m i] := by
    rw [h.symbol_eq, take_symbols_succ hi]
  cases hf : findSym s.cfg m (symbol s.cfg m i) n with
  | none =>
    have ht := h.table.newEntry (h.table.findSym_eq_none_iff.mp hf) (symbol_lt _ _ i)
    rw [← htake] at ht
    have hn : n + 1 ≤ s.cfg.nsym := ht.length_eq ▸ hroom
    exact ⟨_, _, ⟨ht, h.symbuf⟩, countLoop_new hf (by omega)⟩
  | some j =>
    have ht := h.table.increment hf ((List.length_take_le _ _).trans_lt hfit)
    rw [← htake] at ht
    exact ⟨_, _, ⟨ht, h.symbuf⟩, countLoop_found hf⟩

/-- The loop reaches every index up to which the different symbols find room. -/
theorem countLoop_reaches {i : Nat} (hi : i ≤ s.slen.toNat) (hfit : s.slen.toNat ≤ s.cfg.seqN)
    (hroom : (firstOccurrences ((symbols s).take i)).length ≤ s.cfg.nsym) :
    ∃ n m, Counted s i n m ∧ ∀ rem, countLoop s.cfg (i + rem) 0 0 s.mem = countLoop s.cfg rem i n m := by
  induction i with
  | zero => exact ⟨0, s.mem, ⟨tabulates_nil _ _, rfl⟩, fun rem => by rw [Nat.zero_add]⟩
  | succ i ih =>
    have hle := length_firstOccurrences_le_concat ((symbols s).take i) (symbol s.cfg s.mem i)
    rw [← take_symbols_succ hi] at hle
    obtain ⟨n, m, hc, hloop⟩ := ih (by omega) (hle.trans hroom)
    obtain ⟨n', m', hc', hstep⟩ := hc.step hi (by omega) hroom
    exact ⟨n', m', hc', fun rem => by rw [Nat.add_assoc, Nat.add_comm 1, hloop, hstep]⟩

end Loop

/-! ## The command -/

/-- COUNT's run on a sequence that fits is its loop. -/
theorem countRun_of_le {s : State} (h : s.slen.toNat ≤ s.cfg.seqN) : countRun s =
    (countLoop s.cfg s.slen.toNat 0 0 s.mem).map fun r => { s with mem := r.2, nfreq := BitVec.ofNat 32 r.1 } := by
  unfold countRun
  rw [if_neg (by omega)]
  cases countLoop s.cfg s.slen.toNat 0 0 s.mem <;> rfl

/-- A run that raises ends in the failure of its command (R196, R198). -/
theorem failsWith_of_runOf_error {i : Instr} {s : State} {f : Failure} (h : runOf i s = .error f) :
    failsWith i s f.err f.info f.pos := by
  refine ⟨raise i f s, by rw [exec_eq_finish, h, finish_error], ?_, ?_⟩
  · exact ⟨by rw [raise_status]; rfl, raise_errinfo .., raise_errpos .., raise_phase ..⟩
  · cases i with
    | build => exact ⟨rfl, rfl⟩
    | _ => rfl

/-- On a sequence that fits, with room for its different symbols, COUNT succeeds with the table of the sequence. -/
theorem exec_count_tabulates {s : State} (hfit : s.slen.toNat ≤ s.cfg.seqN)
    (hroom : (firstOccurrences (symbols s)).length ≤ s.cfg.nsym) :
    ∃ n m, Tabulates s.cfg (symbols s) n m ∧
      exec .count s = .next (succeed { s with mem := m, nfreq := BitVec.ofNat 32 n }) := by
  have hall : (symbols s).take s.slen.toNat = symbols s := List.take_of_length_le (length_symbols s).le
  obtain ⟨n, m, ⟨htable, -⟩, hloop⟩ := countLoop_reaches (le_refl _) hfit (by rwa [hall])
  rw [hall] at htable
  refine ⟨n, m, htable, ?_⟩
  have hok : countLoop s.cfg s.slen.toNat 0 0 s.mem = .ok (n, m) := hloop 0
  rw [exec_eq_finish, runOf, countRun_of_le hfit, hok]
  rfl

/-- The table in FREQ and NFREQ, as the values of the sequence and their counts. -/
theorem Tabulates.frequencyTable_eq {s : State} {xs : List Word} (h : Tabulates s.cfg xs s.nfreq.toNat s.mem) :
    frequencyTable s = (firstOccurrences xs).map fun x => (x, xs.count x) := by
  rw [← h.syms, List.map_map]
  exact List.map_congr_left fun j hj => congrArg (Prod.mk _) (h.cnts j (List.mem_range.mp hj))

/-- Settles O23: the table grows with the symbols read, and the rest are facts of first occurrences and the frame of COUNT. -/
theorem countTabulatesInFirstOccurrenceOrder : Obligations.CountTabulatesInFirstOccurrenceOrder := by
  intro s hfit hroom
  obtain ⟨n, m, htable, hx⟩ := exec_count_tabulates hfit hroom
  have hn : (BitVec.ofNat 32 n).toNat = n :=
    toNat_ofNat_of_le (htable.length_eq ▸ hroom) (by have := config_bounds s.cfg; omega)
  refine ⟨_, hx, ⟨rfl, rfl, rfl, rfl⟩, ?_⟩
  obtain ⟨-, -, -, hframe⟩ := countChangesOnlyItsTable s _ hx rfl
  rw [Tabulates.frequencyTable_eq (xs := symbols s) (by rwa [succeed_nfreq, hn])]
  refine ⟨rfl, ?_, ?_, ?_, fun k hk => ?_⟩
  · simpa [Function.comp_def] using nodup_firstOccurrences (symbols s)
  · simp
  · simpa [Function.comp_def] using sum_count_firstOccurrences (symbols s)
  · exact hframe (.freqWord k) rfl nofun fun _ he => by cases he; exact hk

/-- COUNT fails at the first symbol that finds the table full (R114). -/
theorem count_failsWith_capacity {s : State} {i : Nat} (hfit : s.slen.toNat ≤ s.cfg.seqN) (hi : i < s.slen.toNat)
    (hfull : (firstOccurrences ((symbols s).take i)).length = s.cfg.nsym) (hnew : symbol s.cfg s.mem i ∉ (symbols s).take i) :
    failsWith .count s .capacity (symbol s.cfg s.mem i) (BitVec.ofNat 32 i) := by
  obtain ⟨n, m, hc, hloop⟩ := countLoop_reaches hi.le hfit hfull.le
  obtain rfl : n = s.cfg.nsym := hc.table.length_eq.symm.trans hfull
  obtain ⟨rem, hrem⟩ : ∃ rem, s.slen.toNat = i + (rem + 1) := ⟨s.slen.toNat - (i + 1), by omega⟩
  have hfind := hc.table.findSym_eq_none_iff.mpr hnew
  rw [← hc.symbol_eq] at hfind ⊢
  refine failsWith_of_runOf_error (i := .count) (f := ⟨.capacity, _, _⟩) ?_
  rw [runOf, countRun_of_le hfit, hrem, hloop, countLoop_full hfind]
  rfl

/-- Where there are NSYM symbols in all, COUNT always finds room. -/
theorem count_ne_capacity {s t : State} (hall : s.cfg.nsym = 2 ^ s.cfg.symW) (hx : exec .count s = .next t) :
    t.status.err ≠ .capacity := by
  by_cases hfit : s.slen.toNat ≤ s.cfg.seqN
  · have hroom := length_firstOccurrences_le fun x => toNat_lt_of_mem_symbols (s := s) (x := x)
    obtain ⟨n, m, -, hx'⟩ := exec_count_tabulates hfit (hall ▸ hroom)
    cases hx.symm.trans hx'
    nofun
  · rw [exec_eq_finish, runOf, countRun, if_pos (by omega)] at hx
    cases hx
    nofun

/-- Settles O24: a full table stops the loop at a new symbol, and a table of all 2^SYM_W symbols is never too small. -/
theorem countFailsAtTheFirstSymbolWithoutRoom : Obligations.CountFailsAtTheFirstSymbolWithoutRoom :=
  ⟨fun _ _ => count_failsWith_capacity, fun _ _ => count_ne_capacity⟩

end Sys2Proof.Machine
end

section
/-! PROOFS. The reference queue of BUILD keeps its order and extracts a least member (O28). -/

namespace Sys2Proof.Machine
open Sys2Proof.Safety

/-! ## The order of the queue as an order of numbers (R123) -/

/-- A number for each node, the frequency first and then the handle, so that `less` compares numbers. -/
def queueKey (c : Config) (m : Memory) (x : Handle) : Nat := 512 * (nodeFreq c m x).toNat + x.toNat

section Keys
variable {c : Config} {m : Memory} {x y : Handle}

theorem less_iff : less c m x y = true ↔ queueKey c m x < queueKey c m y := by
  have hx := x.isLt
  have hy := y.isLt
  simp only [less, queueKey, Bool.or_eq_true, Bool.and_eq_true, decide_eq_true_eq, beq_iff_eq, BitVec.lt_def,
    ← BitVec.toNat_inj]
  omega

theorem less_eq_false_iff : less c m x y = false ↔ queueKey c m y ≤ queueKey c m x := by
  rw [← Bool.not_eq_true, less_iff, not_lt]

/-- No two nodes have the same number: `less` is total. -/
theorem queueKey_inj (h : queueKey c m x = queueKey c m y) : x = y := by
  have hx := x.isLt
  have hy := y.isLt
  unfold queueKey at h
  exact BitVec.eq_of_toNat_eq (by omega)

theorem nodeFreq_le_of_queueKey_le (h : queueKey c m x ≤ queueKey c m y) :
    (nodeFreq c m x).toNat ≤ (nodeFreq c m y).toNat := by
  have hx := x.isLt
  have hy := y.isLt
  unfold queueKey at h
  omega

end Keys

/-! ## The heap as a tree of positions -/

/-- Position `r` of the heap is a child of position `p` (R126). -/
def isChild (p r : Nat) : Prop := r = 2 * p + 1 ∨ r = 2 * p + 2

theorem isChild_iff {p r : Nat} : isChild p r ↔ 0 < r ∧ (r - 1) / 2 = p := by
  unfold isChild
  omega

theorem isChild.lt {p r : Nat} (h : isChild p r) : p < r := by
  unfold isChild at h
  omega

/-- A position has one parent. -/
theorem isChild.parent_eq {p p' r : Nat} (h : isChild p r) (h' : isChild p' r) : p = p' :=
  (isChild_iff.mp h).2.symm.trans (isChild_iff.mp h').2

/-- The number of the node at position `p` of the heap. -/
def keyAt (c : Config) (m : Memory) (q : List Handle) (p : Nat) : Nat := queueKey c m (heapAt q p)

section Order
variable {c : Config} {m m' : Memory} {q : List Handle}

theorem heapOrdered_iff :
    heapOrdered c m q ↔ ∀ p r, isChild p r → r < q.length → keyAt c m q p ≤ keyAt c m q r := by
  simp only [heapOrdered, less_eq_false_iff, isChild_iff, keyAt]
  exact ⟨fun h p r ⟨hr0, hp⟩ hr => hp ▸ h r hr hr0, fun h r hr hr0 => h _ r ⟨hr0, rfl⟩ hr⟩

theorem heapOrdered_congr (h : sameFreqs c m m' q) (hq : heapOrdered c m q) : heapOrdered c m' q := by
  intro p hp h0
  rw [← less_congr h hp (by omega)]
  exact hq p hp h0

/-- No node of an ordered heap is before the one at its top (R127). -/
theorem keyAt_zero_le (hq : heapOrdered c m q) {p : Nat} (hp : p < q.length) : keyAt c m q 0 ≤ keyAt c m q p := by
  induction p using Nat.strong_induction_on with
  | _ p ih =>
    rcases Nat.eq_zero_or_pos p with rfl | h0
    · exact le_refl _
    · have hparent : isChild ((p - 1) / 2) p := isChild_iff.mpr ⟨h0, rfl⟩
      exact (ih _ hparent.lt (hparent.lt.trans hp)).trans (heapOrdered_iff.mp hq _ p hparent hp)

theorem keyAt_set {p : Nat} (hp : p < q.length) (x : Handle) : keyAt c m (q.set p x) p = queueKey c m x := by
  rw [keyAt, heapAt_eq_getElem (by rwa [List.length_set]), List.getElem_set_self]

theorem keyAt_set_ne {p i : Nat} (hne : i ≠ p) (x : Handle) : keyAt c m (q.set p x) i = keyAt c m q i := by
  simp only [keyAt, heapAt, List.getD_eq_getElem?_getD, List.getElem?_set_ne hne.symm]

theorem keyAt_heapSwap_left {p r : Nat} (hp : p < q.length) (hne : p ≠ r) :
    keyAt c m (heapSwap q p r) p = keyAt c m q r := by
  rw [heapSwap, keyAt_set_ne hne, keyAt_set hp, keyAt]

theorem keyAt_heapSwap_right {p r : Nat} (hr : r < q.length) : keyAt c m (heapSwap q p r) r = keyAt c m q p := by
  rw [heapSwap, keyAt_set (by rwa [List.length_set]), keyAt]

theorem keyAt_heapSwap_ne {p r i : Nat} (hp : i ≠ p) (hr : i ≠ r) : keyAt c m (heapSwap q p r) i = keyAt c m q i := by
  rw [heapSwap, keyAt_set_ne hr, keyAt_set_ne hp]

theorem keyAt_append {p : Nat} (hp : p < q.length) (x : Handle) : keyAt c m (q ++ [x]) p = keyAt c m q p := by
  rw [keyAt, keyAt, heapAt, heapAt, List.getD_append _ _ _ _ hp]

theorem keyAt_dropLast {p : Nat} (hp : p < q.dropLast.length) : keyAt c m q.dropLast p = keyAt c m q p := by
  have hlt : p < q.length := hp.trans_le (by simp)
  rw [keyAt, keyAt, heapAt_eq_getElem hp, heapAt_eq_getElem hlt, List.getElem_dropLast]

end Order

/-! ## Insertion (R125) -/

/-- The heap is in order but that the handle at `v` may be before its parent: its children are not before that parent. -/
structure OrderedButUp (c : Config) (m : Memory) (q : List Handle) (v : Nat) : Prop where
  edge : ∀ p r, isChild p r → r < q.length → r ≠ v → keyAt c m q p ≤ keyAt c m q r
  skip : ∀ p r, isChild p v → isChild v r → r < q.length → keyAt c m q p ≤ keyAt c m q r

section Insertion
variable {c : Config} {m : Memory} {q : List Handle} {u v : Nat}

/-- The swap with the parent moves the defect there. -/
theorem OrderedButUp.swap (h : OrderedButUp c m q v) (hv : v < q.length) (huv : isChild u v)
    (hlt : keyAt c m q v < keyAt c m q u) : OrderedButUp c m (heapSwap q v u) u := by
  have hu := huv.lt
  have hatu : keyAt c m (heapSwap q v u) u = keyAt c m q v := keyAt_heapSwap_right (by omega)
  have hatv : keyAt c m (heapSwap q v u) v = keyAt c m q u := keyAt_heapSwap_left hv (by omega)
  have hat {i : Nat} (hiv : i ≠ v) (hiu : i ≠ u) : keyAt c m (heapSwap q v u) i = keyAt c m q i :=
    keyAt_heapSwap_ne hiv hiu
  constructor
  case edge =>
    intro p r hpr hr hru
    rw [heapSwap_length] at hr
    by_cases hrv : r = v
    · obtain rfl := hpr.parent_eq (hrv ▸ huv)
      rw [hrv, hatu, hatv]
      exact hlt.le
    · rw [hat hrv hru]
      by_cases hpv : p = v
      · rw [hpv, hatv]
        exact h.skip u r huv (hpv ▸ hpr) hr
      by_cases hpu : p = u
      · rw [hpu, hatu]
        exact hlt.le.trans (h.edge u r (hpu ▸ hpr) hr hrv)
      · rw [hat hpv hpu]
        exact h.edge p r hpr hr hrv
  case skip =>
    intro p r hpu hur hr
    rw [heapSwap_length] at hr
    have hp := hpu.lt
    have htop := h.edge p u hpu (by omega) (by omega)
    rw [hat (by omega) (by omega)]
    by_cases hrv : r = v
    · rw [hrv, hatv]
      exact htop
    · rw [hat hrv hur.lt.ne']
      exact htop.trans (h.edge u r hur hr hrv)

theorem siftUp_ordered {bound : Nat} (h : OrderedButUp c m q v) (hv : v < q.length) (hb : v < bound) :
    heapOrdered c m (siftUp c m bound v q) := by
  induction bound generalizing v q with
  | zero => omega
  | succ bound ih =>
    simp only [siftUp, less_iff]
    split_ifs with h0 hlt
    · have huv : isChild ((v - 1) / 2) v := isChild_iff.mpr ⟨h0, rfl⟩
      have hu := huv.lt
      exact ih (h.swap hv huv hlt) (by rw [heapSwap_length]; omega) (by omega)
    · refine heapOrdered_iff.mpr fun p r hpr hr => ?_
      by_cases hrv : r = v
      · rw [← (isChild_iff.mp hpr).2, hrv]
        exact not_lt.mp hlt
      · exact h.edge p r hpr hr hrv
    · exact heapOrdered_iff.mpr fun p r hpr hr => h.edge p r hpr hr (by have := hpr.lt; omega)

theorem heapInsert_ordered (hq : heapOrdered c m q) (x : Handle) : heapOrdered c m (heapInsert c m x q) := by
  refine siftUp_ordered ⟨fun p r hpr hr hne => ?_, fun p r _ hvr hr => ?_⟩ (by simp) (Nat.lt_succ_self _)
  · rw [List.length_append, List.length_singleton] at hr
    have hp := hpr.lt
    rw [keyAt_append (by omega), keyAt_append (by omega)]
    exact heapOrdered_iff.mp hq p r hpr (by omega)
  · rw [List.length_append, List.length_singleton] at hr
    have := hvr.lt
    omega

end Insertion

/-! ## Extraction (R126) -/

/-- The heap is in order but that the handle at `u` may be after its children: they are not before its parent. -/
structure OrderedButDown (c : Config) (m : Memory) (q : List Handle) (u : Nat) : Prop where
  edge : ∀ p r, isChild p r → r < q.length → p ≠ u → keyAt c m q p ≤ keyAt c m q r
  skip : ∀ p r, isChild p u → isChild u r → r < q.length → keyAt c m q p ≤ keyAt c m q r

section Extraction
variable {c : Config} {m : Memory} {q : List Handle} {u v : Nat}

/-- The position chosen is `u` or a child of it, and holds the least handle of the three. -/
theorem leastOfThree_spec (c : Config) (m : Memory) (q : List Handle) (u : Nat) :
    (leastOfThree c m q u = u ∨ isChild u (leastOfThree c m q u)) ∧
    keyAt c m q (leastOfThree c m q u) ≤ keyAt c m q u ∧
    ∀ r, isChild u r → r < q.length → keyAt c m q (leastOfThree c m q u) ≤ keyAt c m q r := by
  simp only [leastOfThree, isChild, keyAt, Bool.and_eq_true, decide_eq_true_eq, less_iff]
  split_ifs <;> exact ⟨by omega, by omega, by rintro r (rfl | rfl) hr <;> omega⟩

/-- The swap with the least child moves the defect there. -/
theorem OrderedButDown.swap (h : OrderedButDown c m q u) (hv : v < q.length) (huv : isChild u v)
    (hle : keyAt c m q v ≤ keyAt c m q u) (hleast : ∀ r, isChild u r → r < q.length → keyAt c m q v ≤ keyAt c m q r) :
    OrderedButDown c m (heapSwap q u v) v := by
  have hu := huv.lt
  have hatu : keyAt c m (heapSwap q u v) u = keyAt c m q v := keyAt_heapSwap_left (by omega) (by omega)
  have hatv : keyAt c m (heapSwap q u v) v = keyAt c m q u := keyAt_heapSwap_right hv
  have hat {i : Nat} (hiu : i ≠ u) (hiv : i ≠ v) : keyAt c m (heapSwap q u v) i = keyAt c m q i :=
    keyAt_heapSwap_ne hiu hiv
  constructor
  case edge =>
    intro p r hpr hr hpv
    rw [heapSwap_length] at hr
    by_cases hrv : r = v
    · obtain rfl := hpr.parent_eq (hrv ▸ huv)
      rw [hrv, hatu, hatv]
      exact hle
    by_cases hpu : p = u
    · rw [hpu, hatu, hat (hpu ▸ hpr.lt.ne') hrv]
      exact hleast r (hpu ▸ hpr) hr
    · rw [hat hpu hpv]
      by_cases hru : r = u
      · rw [hru, hatu]
        exact h.skip p v (hru ▸ hpr) huv hv
      · rw [hat hru hrv]
        exact h.edge p r hpr hr hpu
  case skip =>
    intro p r hpv hvr hr
    rw [heapSwap_length] at hr
    have hr' := hvr.lt
    obtain rfl := hpv.parent_eq huv
    rw [hatu, hat (by omega) (by omega)]
    exact h.edge v r hvr hr (by omega)

theorem siftDown_ordered {bound : Nat} (h : OrderedButDown c m q u) (hu : u < q.length) (hb : q.length ≤ bound + u) :
    heapOrdered c m (siftDown c m bound u q) := by
  induction bound generalizing u q with
  | zero => omega
  | succ bound ih =>
    have hv := leastOfThree_lt c m hu
    obtain ⟨hpos, hle, hleast⟩ := leastOfThree_spec c m q u
    simp only [siftDown]
    generalize leastOfThree c m q u = v at *
    split_ifs with heq
    · subst heq
      refine heapOrdered_iff.mpr fun p r hpr hr => ?_
      by_cases hpv : p = v
      · exact hpv ▸ hleast r (hpv ▸ hpr) hr
      · exact h.edge p r hpr hr hpv
    · have huv := hpos.resolve_left heq
      have := huv.lt
      exact ih (h.swap hv huv hle hleast) (by rwa [heapSwap_length]) (by rw [heapSwap_length]; omega)

theorem heapExtractMin_ordered (hq : heapOrdered c m q) : heapOrdered c m (heapExtractMin c m q).2 := by
  unfold heapExtractMin
  simp only
  split_ifs with hempty
  · rw [List.isEmpty_iff.mp hempty]
    nofun
  · have hpos : 0 < q.dropLast.length := List.length_pos_iff.mpr (by simpa using hempty)
    refine siftDown_ordered ⟨fun p r hpr hr hp0 => ?_, fun p _ hp0 => absurd hp0.lt (Nat.not_lt_zero p)⟩
      (by rwa [List.length_set]) (by rw [List.length_set]; omega)
    rw [List.length_set] at hr
    have hp := hpr.lt
    have hlen : q.dropLast.length ≤ q.length := by simp
    rw [keyAt_set_ne hp0, keyAt_set_ne (by omega), keyAt_dropLast (by omega), keyAt_dropLast hr]
    exact heapOrdered_iff.mp hq p r hpr (by omega)

theorem heapExtractMin_fst (c : Config) (m : Memory) (q : List Handle) : (heapExtractMin c m q).1 = heapAt q 0 := by
  unfold heapExtractMin
  simp only
  split <;> rfl

/-- No member of the queue is before the one extracted (R127). -/
theorem queueKey_extracted_le (hq : heapOrdered c m q) {x : Handle} (hx : x ∈ q) :
    queueKey c m (heapExtractMin c m q).1 ≤ queueKey c m x := by
  obtain ⟨p, hp, rfl⟩ := List.mem_iff_getElem.mp hx
  rw [heapExtractMin_fst, ← heapAt_eq_getElem hp]
  exact keyAt_zero_le hq hp

end Extraction

/-- Settles O28, by the two loops: each swap moves the one defect of the order along the heap, until it is gone. -/
theorem heapOperationsKeepTheOrder : Obligations.HeapOperationsKeepTheOrder := by
  intro c m q hq
  refine ⟨fun h => ⟨heapInsert_ordered hq h, heapInsert_perm c m h q⟩, fun hne => ?_⟩
  have hperm := heapExtractMin_perm c m hne
  refine ⟨heapExtractMin_ordered hq, hperm.symm, fun y hy => less_eq_false_iff.mpr ?_⟩
  exact queueKey_extracted_le hq (hperm.mem_iff.mp (List.mem_cons_of_mem _ hy))

end Sys2Proof.Machine
end

section
/-! PROOFS. BUILD follows the order alone (O27): the heap and any queue that takes the two least members merge alike. -/

namespace Sys2Proof.Machine
open Sys2Proof.Safety

/-! ## The two least members of a queue (R124) -/

/-- In a queue of `a`, `b` and `r` no member is before `a`, and none but `a` is before `b`. -/
structure LeastTwo (c : Config) (m : Memory) (a b : Handle) (r : List Handle) : Prop where
  first : ∀ x ∈ b :: r, queueKey c m a ≤ queueKey c m x
  second : ∀ x ∈ r, queueKey c m b ≤ queueKey c m x

section Least
variable {c : Config} {m : Memory} {x a : Handle} {rest : List Handle}

theorem lesser_eq_or (c : Config) (m : Memory) (x y : Handle) : lesser c m x y = x ∨ lesser c m x y = y := by
  unfold lesser
  split
  · exact .inr rfl
  · exact .inl rfl

theorem queueKey_lesser (c : Config) (m : Memory) (x y : Handle) :
    queueKey c m (lesser c m x y) = min (queueKey c m x) (queueKey c m y) := by
  simp only [lesser, less_iff]
  split <;> omega

theorem leastOf_cons (c : Config) (m : Memory) (x y : Handle) (rest : List Handle) :
    leastOf c m x (y :: rest) = leastOf c m (lesser c m x y) rest := rfl

theorem leastOf_mem (c : Config) (m : Memory) (x : Handle) (rest : List Handle) : leastOf c m x rest ∈ x :: rest := by
  induction rest generalizing x with
  | nil => exact List.mem_singleton_self x
  | cons y rest ih =>
    rw [leastOf_cons]
    rcases List.mem_cons.mp (ih (lesser c m x y)) with h | h
    · rw [h]
      rcases lesser_eq_or c m x y with hx | hy
      · rw [hx]
        exact List.mem_cons_self
      · rw [hy]
        exact List.mem_cons_of_mem _ List.mem_cons_self
    · exact List.mem_cons_of_mem _ (List.mem_cons_of_mem _ h)

theorem queueKey_leastOf_le (c : Config) (m : Memory) (x : Handle) (rest : List Handle) :
    ∀ y ∈ x :: rest, queueKey c m (leastOf c m x rest) ≤ queueKey c m y := by
  induction rest generalizing x with
  | nil => exact List.forall_mem_singleton.mpr (le_refl _)
  | cons y rest ih =>
    obtain ⟨hfirst, hrest⟩ := List.forall_mem_cons.mp (ih (lesser c m x y))
    rw [queueKey_lesser, le_min_iff] at hfirst
    obtain ⟨hx, hy⟩ := hfirst
    rw [leastOf_cons]
    exact List.forall_mem_cons.mpr ⟨hx, List.forall_mem_cons.mpr ⟨hy, hrest⟩⟩

/-- The least member is the only one that no member is before. -/
theorem leastOf_eq (ha : a ∈ x :: rest) (hle : ∀ y ∈ x :: rest, queueKey c m a ≤ queueKey c m y) :
    leastOf c m x rest = a :=
  queueKey_inj (le_antisymm (queueKey_leastOf_le c m x rest a ha) (hle _ (leastOf_mem c m x rest)))

end Least

/-! ## A merge by the order alone -/

section OrderMerge
variable {c : Config} {m : Memory} {k : Nat} {a b : Handle} {q r : List Handle}

theorem orderMerge_of_length_le_one (bound : Nat) (h : q.length ≤ 1) : orderMerge c bound k m q = (k, m, q) := by
  cases bound with
  | zero => rfl
  | succ bound =>
    match q, h with
    | [], _ => rfl
    | [_], _ => rfl

/-- One merge by the order alone, on a queue in any arrangement. -/
theorem orderMerge_merge (hq : q.Perm (a :: b :: r)) (hl : LeastTwo c m a b r) :
    ∃ r', r'.Perm r ∧ ∀ bound,
      orderMerge c (bound + 1) k m q = orderMerge c bound (k + 1) (mergeNode c k m a b) (BitVec.ofNat 9 k :: r') := by
  obtain ⟨hfirst, hsecond⟩ := hl
  have ha : ∀ x ∈ a :: b :: r, queueKey c m a ≤ queueKey c m x := List.forall_mem_cons.mpr ⟨le_refl _, hfirst⟩
  have hb : ∀ x ∈ b :: r, queueKey c m b ≤ queueKey c m x := List.forall_mem_cons.mpr ⟨le_refl _, hsecond⟩
  have hera : (q.erase a).Perm (b :: r) := by simpa using hq.erase a
  match q, hq.length_eq with
  | x :: y :: rest, _ =>
    have hleasta := leastOf_eq (hq.mem_iff.mpr List.mem_cons_self) fun w hw => ha w (hq.mem_iff.mp hw)
    match hz : (x :: y :: rest).erase a with
    | [] => rw [hz] at hera; cases hera.length_eq
    | z :: q1 =>
      rw [hz] at hera
      have hleastb := leastOf_eq (hera.mem_iff.mpr List.mem_cons_self) fun w hw => hb w (hera.mem_iff.mp hw)
      refine ⟨(z :: q1).erase b, by simpa using hera.erase b, fun bound => ?_⟩
      simp only [orderMerge, hleasta, hz, hleastb]

end OrderMerge

/-! ## A merge of the heap -/

/-- NODE[0 .. k-1] is a forest over the leaves of the table in `m0`, and the handles of its roots are a heap in order. -/
structure HeapForest (c : Config) (m0 : Memory) (n k : Nat) (m : Memory) (q : List Handle) : Prop where
  forest : Forest c m0 n k m q
  ordered : heapOrdered c m q

section HeapMerge
variable {c : Config} {m0 m : Memory} {n k : Nat} {q : List Handle}

/-- Two extractions take the two least members, and leave the rest in order (R126, R127). -/
theorem heapExtractMin_leastTwo (hq : heapOrdered c m q) (hlen : 1 < q.length) :
    let x := heapExtractMin c m q
    let y := heapExtractMin c m x.2
    q.Perm (x.1 :: y.1 :: y.2) ∧ LeastTwo c m x.1 y.1 y.2 ∧ heapOrdered c m y.2 := by
  have hxlen := heapExtractMin_length c m q
  have hx := heapExtractMin_perm c m (q := q) (List.ne_nil_of_length_pos (by omega))
  have hy := heapExtractMin_perm c m (q := (heapExtractMin c m q).2) (List.ne_nil_of_length_pos (by omega))
  have hxord := heapExtractMin_ordered hq
  have hperm := ((hy.cons _).trans hx).symm
  refine ⟨hperm, ⟨fun z hz => ?_, fun z hz => ?_⟩, heapExtractMin_ordered hxord⟩
  · exact queueKey_extracted_le hq (hperm.mem_iff.mpr (List.mem_cons_of_mem _ hz))
  · exact queueKey_extracted_le hxord (hy.mem_iff.mp (List.mem_cons_of_mem _ hz))

/-- One merge of the heap: the two least members give way to the node over them, and the rest stays a heap in order. -/
theorem HeapForest.merge (h : HeapForest c m0 n k m q) (hn : n ≤ c.nsym) (hlen : 1 < q.length) :
    ∃ a b r q', q.Perm (a :: b :: r) ∧ LeastTwo c m a b r ∧ q'.Perm (BitVec.ofNat 9 k :: r) ∧
      HeapForest c m0 n (k + 1) (mergeNode c k m a b) q' ∧
      ∀ bound, mergeLoop c (bound + 1) k m q = mergeLoop c bound (k + 1) (mergeNode c k m a b) q' := by
  obtain ⟨hperm, hleast, hord⟩ := heapExtractMin_leastTwo h.ordered hlen
  have hf := h.forest.perm hperm
  refine ⟨_, _, _, _, hperm, hleast, heapInsert_perm c _ _ _,
    ⟨(hf.merge hn).perm (heapInsert_perm c _ _ _).symm, heapInsert_ordered (heapOrdered_congr (fun x hx => ?_) hord) _⟩,
    fun bound => mergeLoop_merge hlen⟩
  exact (nodeFreq_setNode_ne c _ m (hf.below x (by simp [hx])).ne).symm

/-- The heap's merges and the merges by the order alone are the same, in whatever arrangement the queue is (R127). -/
theorem mergeLoop_follows_orderMerge {q' : List Handle} (hn : n ≤ c.nsym) (bound : Nat) (h : HeapForest c m0 n k m q)
    (hq : q.Perm q') :
    (mergeLoop c bound k m q).1 = (orderMerge c bound k m q').1 ∧
    (mergeLoop c bound k m q).2.1 = (orderMerge c bound k m q').2.1 ∧
    (mergeLoop c bound k m q).2.2.Perm (orderMerge c bound k m q').2.2 := by
  induction bound generalizing k m q q' with
  | zero => exact ⟨rfl, rfl, hq⟩
  | succ bound ih =>
    by_cases hlen : 1 < q.length
    · obtain ⟨a, b, r, q1, hperm, hleast, hq1, hnext, hloop⟩ := h.merge hn hlen
      obtain ⟨r', hr', horder⟩ := orderMerge_merge (k := k) (hq.symm.trans hperm) hleast
      rw [hloop, horder]
      exact ih hnext (hq1.trans (hr'.symm.cons _))
    · rw [mergeLoop, if_neg hlen, orderMerge_of_length_le_one _ (hq.length_eq ▸ not_lt.mp hlen)]
      exact ⟨rfl, rfl, hq⟩

end HeapMerge

/-! ## The leaves (R122) -/

section Leaves
variable {c : Config} {m0 m : Memory} {n j : Nat} {q : List Handle}

theorem leafLoop_fst (rem : Nat) : (leafLoop c rem j m q).1 =
    (List.range' j rem).foldl (fun m j => setNode c j (leafOf c m j) m) m := by
  induction rem generalizing j m q with
  | zero => rfl
  | succ rem ih => rw [leafLoop, ih, List.range'_succ, List.foldl_cons]

theorem leavesMade_eq_leafLoop (c : Config) (m : Memory) (n : Nat) : leavesMade c m n = (leafLoop c n 0 m []).1 := by
  rw [leafLoop_fst, leavesMade, List.range_eq_range']

/-- The queue of the first leaves is a heap in order after each insertion (R127). -/
theorem leafLoop_ordered {rem : Nat} (h : LeavesMade c m0 j m q) (hq : heapOrdered c m q) (hj : j + rem ≤ 512) :
    heapOrdered c (leafLoop c rem j m q).1 (leafLoop c rem j m q).2 := by
  induction rem generalizing j m q with
  | zero => exact hq
  | succ rem ih =>
    refine ih h.leaf (heapInsert_ordered (heapOrdered_congr (fun x hx => ?_) hq) _) (by omega)
    obtain ⟨i, hi, rfl⟩ := List.mem_map.mp (h.queue.mem_iff.mp hx)
    have hi := List.mem_range.mp hi
    exact (nodeFreq_setNode_ne c _ m (by rw [BitVec.toNat_ofNat, Nat.mod_eq_of_lt (by omega)]; omega)).symm

theorem leafLoop_table (c : Config) (n : Nat) (m : Memory) :
    LeavesMade c m n (leavesMade c m n) (leafLoop c n 0 m []).2 := by
  have hnone : LeavesMade c m 0 m [] := ⟨rfl, nofun, List.Perm.refl _⟩
  have hleaves := leafLoop_leavesMade (rem := n) hnone
  rwa [Nat.zero_add, ← leavesMade_eq_leafLoop] at hleaves

/-- The merges begin with the leaves in a heap in order. -/
theorem leafLoop_heapForest (m : Memory) (hn : n ≤ c.nsym) :
    HeapForest c m n n (leavesMade c m n) (leafLoop c n 0 m []).2 := by
  have hnsym := (config_bounds c).2.1
  refine ⟨(leafLoop_table c n m).forest hn, ?_⟩
  rw [leavesMade_eq_leafLoop]
  exact leafLoop_ordered (m0 := m) ⟨rfl, nofun, List.Perm.refl _⟩ nofun (by omega)

end Leaves

theorem buildLoops_eq (c : Config) (n : Nat) (m : Memory) :
    buildLoops c n m = mergeLoop c n n (leavesMade c m n) (leafLoop c n 0 m []).2 := by
  rw [leavesMade_eq_leafLoop, buildLoops]

/-! ## The command -/

/-- BUILD on a table of 1 to NSYM entries completes with the outputs of its two loops (R121). -/
theorem exec_build_of_le {s : State} (h1 : 1 ≤ s.nfreq.toNat) (h2 : s.nfreq.toNat ≤ s.cfg.nsym) :
    exec .build s = .next (succeed (let r := buildLoops s.cfg s.nfreq.toNat s.mem
      { s with mem := r.2.1, nnodes := BitVec.ofNat 32 r.1, root := heapAt r.2.2 0
               heap := heapStore s.fresh r.2.2, heapn := BitVec.ofNat 9 r.2.2.length })) := by
  obtain ⟨u, hu⟩ := buildRun_of_le h1 h2
  obtain ⟨-, -, rfl⟩ := buildRun_ok hu
  rw [exec_eq_finish, runOf, hu, finish_ok]

/-- Settles O27: the heap's loop runs along the merges by the order alone, turn by turn. -/
theorem buildFollowsTheOrderAlone : Obligations.BuildFollowsTheOrderAlone := by
  rintro s n rfl h1 h2
  obtain ⟨root, hq, hroot, hk, -⟩ := buildLoops_tree s.mem h1 h2
  have hstart := leafLoop_heapForest (c := s.cfg) s.mem h2
  obtain ⟨hfst, hmem, hperm⟩ := mergeLoop_follows_orderMerge h2 s.nfreq.toNat hstart (leafLoop_table _ _ _).queue
  rw [← buildLoops_eq] at hfst hmem hperm
  rw [hq] at hperm
  refine ⟨_, exec_build_of_le h1 h2, ⟨rfl, rfl, rfl, rfl⟩, ?_⟩
  simp only [succeed_mem, succeed_nnodes, succeed_root, succeed_heapn, heapEntry, succeed_heap, hq]
  refine ⟨⟨hmem, by rw [hfst], hfst ▸ hk, List.perm_singleton.mp hperm.symm, hroot⟩, rfl, rfl⟩

end Sys2Proof.Machine
end

section
/-! PROOFS. The frequencies BUILD makes (O29, O30), and its tables of no, one and two entries (O31). -/

namespace Sys2Proof.Machine
open Sys2Proof.Safety

/-! ## The root's frequency (R127, R129) -/

/-- Settles O29: the queue's frequencies add up to the sum of the counts throughout, and the root alone is left. -/
theorem buildRootFrequencyIsTheSumOfCounts : Obligations.BuildRootFrequencyIsTheSumOfCounts := by
  intro s t h1 h2 hx
  cases hx.symm.trans (exec_build_of_le h1 h2)
  obtain ⟨root, hq, -, -, hf⟩ := buildLoops_tree s.mem h1 h2
  have htotal : (nodeFreq s.cfg (buildLoops s.cfg s.nfreq.toNat s.mem).2.1 root).toNat =
      countTotal s.cfg s.mem s.nfreq.toNat := by simpa [queueFreq] using hf.total
  simp only [succeed_mem, succeed_cfg, succeed_root, hq]
  exact htotal

/-! ## The merged frequencies rise (R127) -/

/-- The merges made so far do not fall in frequency, and the next, over two nodes of the queue, is not below the last. -/
structure RisingMerges (c : Config) (n k : Nat) (m : Memory) (q : List Handle) : Prop where
  rising : ∀ h, n ≤ h → h + 1 < k → (node c m h).freq.toNat ≤ (node c m (h + 1)).freq.toNat
  last : ∀ h, n ≤ h → h + 1 = k → ∀ x ∈ q, (node c m h).freq.toNat ≤ 2 * (nodeFreq c m x).toNat

section Rising
variable {c : Config} {m0 m : Memory} {n k : Nat} {q r : List Handle} {a b : Handle}

theorem RisingMerges.perm {q' : List Handle} (h : RisingMerges c n k m q) (hq : q.Perm q') : RisingMerges c n k m q' :=
  ⟨h.rising, fun g hng hg x hx => h.last g hng hg x (hq.mem_iff.mpr hx)⟩

/-- The merge of the two least is at least the last, and at most twice the second of them, hence twice any node left. -/
theorem RisingMerges.merge (h : RisingMerges c n k m (a :: b :: r)) (hf : Forest c m0 n k m (a :: b :: r)) (hn : n ≤ c.nsym)
    (hleast : LeastTwo c m a b r) : RisingMerges c n (k + 1) (mergeNode c k m a b) (BitVec.ofNat 9 k :: r) := by
  have hnew : (node c (mergeNode c k m a b) k).freq.toNat = (nodeFreq c m a).toNat + (nodeFreq c m b).toNat := by
    rw [hf.node_merge hn]
    exact (hf.freq_add hn).1
  have hold {g : Nat} (hg : g < k) : node c (mergeNode c k m a b) g = node c m g := node_setNode_ne c _ m hg.ne
  have hab := nodeFreq_le_of_queueKey_le (hleast.first b List.mem_cons_self)
  constructor
  case rising =>
    intro g hng hg
    rcases Nat.lt_succ_iff_lt_or_eq.mp hg with hlt | hk
    · rw [hold hlt, hold (by omega)]
      exact h.rising g hng hlt
    · have ha := h.last g hng hk a (by simp)
      have hb := h.last g hng hk b (by simp)
      rw [hk, hnew, hold (by omega)]
      omega
  case last =>
    rintro g - hg
    obtain rfl : g = k := by omega
    have hqueued : nodeFreq c (mergeNode c g m a b) (BitVec.ofNat 9 g) = (node c (mergeNode c g m a b) g).freq := by
      rw [nodeFreq, hf.handle_toNat hn]
    rw [hnew]
    refine List.forall_mem_cons.mpr ⟨?_, fun x hx => ?_⟩
    · rw [hqueued, hnew]
      omega
    · have hbx := nodeFreq_le_of_queueKey_le (hleast.second x hx)
      rw [nodeFreq_setNode_ne c _ m (hf.below x (by simp [hx])).ne]
      omega

theorem mergeLoop_rising (hn : n ≤ c.nsym) (bound : Nat) (h : HeapForest c m0 n k m q) (hr : RisingMerges c n k m q) :
    RisingMerges c n (mergeLoop c bound k m q).1 (mergeLoop c bound k m q).2.1 (mergeLoop c bound k m q).2.2 := by
  induction bound generalizing k m q with
  | zero => exact hr
  | succ bound ih =>
    by_cases hlen : 1 < q.length
    · obtain ⟨a, b, r, q1, hperm, hleast, hq1, hnext, hloop⟩ := h.merge hn hlen
      rw [hloop]
      exact ih hnext (((hr.perm hperm).merge (h.forest.perm hperm) hn hleast).perm hq1.symm)
    · rw [mergeLoop, if_neg hlen]
      exact hr

end Rising

/-- Settles O30, by the merges of the two least: each keeps the frequencies rising. -/
theorem buildFrequenciesDoNotFallWithTheHandle : Obligations.BuildFrequenciesDoNotFallWithTheHandle := by
  rintro s t n rfl h1 h2 hx h hnh hh
  cases hx.symm.trans (exec_build_of_le h1 h2)
  obtain ⟨-, -, -, hk, -⟩ := buildLoops_tree s.mem h1 h2
  have hrising := mergeLoop_rising h2 s.nfreq.toNat (leafLoop_heapForest s.mem h2)
    ⟨fun g hng hg => by omega, fun g hng hg => by omega⟩
  rw [← buildLoops_eq, hk] at hrising
  exact hrising.rising h hnh hh

/-! ## The corner cases (R128) -/

theorem node_setNode_children (c : Config) (h : Nat) (nd : Node) (m : Memory) :
    (node c (setNode c h nd m) h).left = nd.left ∧ (node c (setNode c h nd m) h).right = nd.right := by
  simp [node, nodeWord_setNode, keepLow_handle]

/-- On a queue of two the order alone merges once. -/
theorem orderMerge_pair {c : Config} {m : Memory} {a b : Handle} {q : List Handle} {bound : Nat} (k : Nat)
    (hq : q.Perm [a, b]) (hle : queueKey c m a ≤ queueKey c m b) :
    (orderMerge c (bound + 1) k m q).2.1 = mergeNode c k m a b := by
  obtain ⟨r, hr, hmerge⟩ := orderMerge_merge (k := k) hq ⟨List.forall_mem_singleton.mpr hle, nofun⟩
  rw [hmerge, hr.eq_nil, orderMerge_of_length_le_one bound (le_refl 1)]

/-- The number of a leaf is its count and its handle. -/
theorem queueKey_leavesMade (c : Config) (m : Memory) {n j : Nat} (hj : j < n) (hn : n ≤ 512) :
    queueKey c (leavesMade c m n) (BitVec.ofNat 9 j) = 512 * (freqCnt c m j).toNat + j := by
  have htoNat : (BitVec.ofNat 9 j).toNat = j := by
    rw [BitVec.toNat_ofNat, Nat.mod_eq_of_lt (by omega)]
  rw [queueKey, nodeFreq, htoNat, (leafLoop_table c n m).leaves j hj, leafOf_freq_toNat]

/-- The one merge of two leaves: the lesser count is on the left, and at equal counts handle 0 (R123). -/
theorem orderMerge_two_leaves (c : Config) (m : Memory) :
    (orderMerge c 2 2 (leavesMade c m 2) ((List.range 2).map (BitVec.ofNat 9))).2.1 =
      if (freqCnt c m 1).toNat < (freqCnt c m 0).toNat then mergeNode c 2 (leavesMade c m 2) 1 0
      else mergeNode c 2 (leavesMade c m 2) 0 1 := by
  have h0 : queueKey c (leavesMade c m 2) 0 = 512 * (freqCnt c m 0).toNat :=
    queueKey_leavesMade c m (j := 0) (by decide) (by decide)
  have h1 : queueKey c (leavesMade c m 2) 1 = 512 * (freqCnt c m 1).toNat + 1 :=
    queueKey_leavesMade c m (j := 1) (by decide) (by decide)
  split_ifs with hlt
  · exact orderMerge_pair 2 (List.Perm.swap 1 0 []) (by omega)
  · exact orderMerge_pair 2 (List.Perm.refl _) (by omega)

/-- BUILD on no entries raises EmptyInputError. -/
theorem build_no_entries {s : State} (h : s.nfreq = 0) : failsWith .build s .emptyInput 0 0 := by
  refine failsWith_of_runOf_error (i := .build) (f := ⟨.emptyInput, 0, 0⟩) ?_
  rw [runOf, buildRun, h]
  rfl

/-- BUILD on one entry makes its leaf alone. -/
theorem build_one_entry {s : State} (h : s.nfreq = 1) :
    ∃ t, exec .build s = .next t ∧ completedOk s t ∧ t.nnodes = 1 ∧ t.root = 0 ∧ t.heapn = 1 ∧
      node t.cfg t.mem 0 = leafOf s.cfg s.mem 0 := by
  have hn : s.nfreq.toNat = 1 := by rw [h]; rfl
  have hnsym := (config_bounds s.cfg).1
  obtain ⟨t, hx, hok, ⟨-, hnodes, hk, -, hroot⟩, hheapn, -⟩ := buildFollowsTheOrderAlone s 1 hn (le_refl 1) hnsym
  obtain ⟨t', hx', -, -, -, hleaves, -⟩ := buildMakesATreeOfTheTable s 1 hn (le_refl 1) hnsym
  cases hx.symm.trans hx'
  rw [hk] at hnodes
  exact ⟨t, hx, hok, hnodes, BitVec.eq_of_toNat_eq hroot, hheapn, hleaves 0 Nat.zero_lt_one⟩

/-- BUILD on two entries makes one merge, of the two leaves in their order. -/
theorem build_two_entries {s : State} (h : s.nfreq = 2) (hnsym : 2 ≤ s.cfg.nsym) :
    ∃ t, exec .build s = .next t ∧ completedOk s t ∧ t.nnodes = 3 ∧ t.root = 2 ∧ (node t.cfg t.mem 2).kind = .internal ∧
      if (freqCnt s.cfg s.mem 1).toNat < (freqCnt s.cfg s.mem 0).toNat
        then (node t.cfg t.mem 2).left = 1 ∧ (node t.cfg t.mem 2).right = 0
        else (node t.cfg t.mem 2).left = 0 ∧ (node t.cfg t.mem 2).right = 1 := by
  have hn : s.nfreq.toNat = 2 := by rw [h]; rfl
  obtain ⟨t, hx, hok, ⟨hmem, hnodes, hk, -, hroot⟩, -, -⟩ := buildFollowsTheOrderAlone s 2 hn (by decide) hnsym
  obtain ⟨t', hx', -, -, -, -, hmerged, -⟩ := buildMakesATreeOfTheTable s 2 hn (by decide) hnsym
  cases hx.symm.trans hx'
  rw [hk] at hnodes
  obtain ⟨hkind, -⟩ := hmerged 2 (le_refl 2) (by decide)
  obtain ⟨⟨hcfg, -⟩, -⟩ := exec_completes hx
  refine ⟨t, hx, hok, hnodes, BitVec.eq_of_toNat_eq hroot, hkind, ?_⟩
  rw [hmem, hcfg, orderMerge_two_leaves]
  split_ifs
  · exact node_setNode_children _ 2 _ _
  · exact node_setNode_children _ 2 _ _

/-- Settles O31, table by table. -/
theorem buildOnTablesOfZeroOneAndTwoEntries : Obligations.BuildOnTablesOfZeroOneAndTwoEntries :=
  ⟨fun _ => build_no_entries, fun _ => build_one_entry, fun _ => build_two_entries⟩

end Sys2Proof.Machine
end

section
/-! PROOFS. GENCODES' explicit stack gives what the recursion gives (O34), and GENCODES and DECODE need a ROOT (O47). -/

namespace Sys2Proof.Machine
open Sys2Proof.Safety

/-! ## A walk, by what its first visit answers (R143) -/

section Walk
variable {c : Config} {nnodes n : Nat} {m : Memory} {path : List Bool} {h : Handle}

theorem walk_of_visit_error {f : Failure} (hv : visit c nnodes m h path.length n = .error f) (room : Nat) :
    walk c nnodes room path h n m = .error f := by
  cases room <;> simp only [walk, hv]

theorem walk_of_visit_leaf {sym : Word} (hv : visit c nnodes m h path.length n = .ok (.leaf sym)) (room : Nat) :
    walk c nnodes room path h n m = .ok (n + 1, setCode c n sym path.length path m) := by
  cases room <;> simp only [walk, hv]

/-- An INTERNAL node's walk is the left child's and then the right child's. -/
theorem walk_of_visit_internal {l r : Handle} (hv : visit c nnodes m h path.length n = .ok (.internal l r)) (room : Nat) :
    walk c nnodes (room + 1) path h n m = (walk c nnodes room (path ++ [false]) l n m).bind
      fun x => walk c nnodes room (path ++ [true]) r x.1 x.2 := by
  simp only [walk, hv]
  cases walk c nnodes room (path ++ [false]) l n m <;> rfl

/-- A visit at depth MAXLEN does not go on to children (R143). -/
theorem visit_internal_depth {d : Nat} {l r : Handle} (hv : visit c nnodes m h d n = .ok (.internal l r)) :
    d ≠ maxLen c := by
  rintro rfl
  obtain ⟨hlt, hkind, hl, hr, -⟩ := visit_internal hv
  rw [visit, if_neg (not_le.mpr hlt)] at hv
  simp [hkind, hl, hr] at hv

end Walk

/-! ## The explicit stack (R145) -/

/-- The recursion over the right subtrees on the stack, after a left part that ended at `path` with the table `x`. -/
def walkPending (c : Config) (nnodes : Nat) :
    List (Handle × Nat) → List Bool → Nat × Memory → Except Failure (Nat × Memory)
  | [], _, x => .ok x
  | (h, d) :: rest, path, x =>
    (walk c nnodes (maxLen c - d) (path.take (d - 1) ++ [true]) h x.1 x.2).bind
      (walkPending c nnodes rest (path.take (d - 1) ++ [true]))

/-- The stack under a path of `len` bits: each entry's depth is at least 1 and at most the depth above it. -/
def stackFits : List (Handle × Nat) → Nat → Prop
  | [], _ => True
  | (_, d) :: rest, len => 1 ≤ d ∧ d ≤ len ∧ stackFits rest d

theorem stackFits.push {stack : List (Handle × Nat)} {len : Nat} (h : stackFits stack len) (r : Handle) :
    stackFits ((r, len + 1) :: stack) (len + 1) := by
  refine ⟨by omega, le_refl _, ?_⟩
  cases stack with
  | nil => trivial
  | cons e rest =>
    obtain ⟨h1, hle, hrest⟩ := h
    exact ⟨h1, by omega, hrest⟩

/-- The entries on the stack lead off the path within its length, so a longer path changes nothing. -/
theorem walkPending_append {c : Config} {nnodes : Nat} {stack : List (Handle × Nat)} {path : List Bool}
    (h : stackFits stack path.length) (b : Bool) :
    walkPending c nnodes stack (path ++ [b]) = walkPending c nnodes stack path := by
  cases stack with
  | nil => rfl
  | cons e rest =>
    obtain ⟨-, hle, -⟩ := h
    funext x
    simp only [walkPending]
    rw [List.take_append_of_le_length (by omega)]

/-- An INTERNAL node's walk followed by the stack is the left child's walk followed by the stack with the right child. -/
theorem walk_internal_push {c : Config} {nnodes n : Nat} {m : Memory} {path : List Bool} {h l r : Handle}
    {stack : List (Handle × Nat)} (hv : visit c nnodes m h path.length n = .ok (.internal l r))
    (hd : path.length ≤ maxLen c) (hs : stackFits stack path.length) :
    (walk c nnodes (maxLen c - path.length) path h n m).bind (walkPending c nnodes stack path) =
      (walk c nnodes (maxLen c - (path ++ [false]).length) (path ++ [false]) l n m).bind
        (walkPending c nnodes ((r, path.length + 1) :: stack) (path ++ [false])) := by
  have hlt := lt_of_le_of_ne hd (visit_internal_depth hv)
  have hroom : maxLen c - path.length = (maxLen c - (path.length + 1)) + 1 := by omega
  rw [hroom, walk_of_visit_internal hv, List.length_append, List.length_singleton]
  cases walk c nnodes (maxLen c - (path.length + 1)) (path ++ [false]) l n m with
  | error f => rfl
  | ok x =>
    simp only [Except.bind, walkPending, Nat.add_sub_cancel, List.take_left, walkPending_append hs]

/-- The stack does what the recursion does, within one descent for each leaf still allowed and the rest of this one: every
leaf gives one of the NSYM entries, and a descent is at most MAXLEN + 1 visits (R146). -/
theorem stackWalk_eq {c : Config} {nnodes bound n : Nat} {path : List Bool} {h : Handle} {m : Memory}
    {stack : List (Handle × Nat)} (hd : path.length ≤ maxLen c) (hn : n ≤ c.nsym) (hs : stackFits stack path.length)
    (hb : (c.nsym - n) * (maxLen c + 1) + (maxLen c - path.length) < bound) :
    stackWalk c nnodes bound path h n m stack =
      (walk c nnodes (maxLen c - path.length) path h n m).bind (walkPending c nnodes stack path) := by
  induction bound generalizing path h n m stack with
  | zero => omega
  | succ bound ih =>
    match hv : visit c nnodes m h path.length n with
    | .error f =>
      simp only [stackWalk, hv, walk_of_visit_error hv]
      rfl
    | .ok (.leaf sym) =>
      obtain ⟨-, -, -, -, hne, -⟩ := visit_leaf hv
      rw [walk_of_visit_leaf hv]
      match stack with
      | [] =>
        simp only [stackWalk, hv]
        rfl
      | (h', d') :: rest =>
        obtain ⟨h1, hle, hrest⟩ := hs
        have hlen : (path.take (d' - 1) ++ [true]).length = d' := by
          rw [List.length_append, List.length_take, List.length_singleton]
          omega
        have hleft : c.nsym - n = (c.nsym - (n + 1)) + 1 := by omega
        rw [hleft, Nat.succ_mul] at hb
        simp only [stackWalk, hv]
        rw [ih (by omega) (by omega) (by rwa [hlen]) (by omega), hlen]
        rfl
    | .ok (.internal l r) =>
      have hne := visit_internal_depth hv
      rw [walk_internal_push hv hd hs]
      simp only [stackWalk, hv]
      refine ih ?_ hn ?_ ?_ <;> rw [List.length_append, List.length_singleton]
      · omega
      · exact hs.push r
      · omega

/-- Settles O34: the stack is empty at the end, and R146's bound is a descent for each leaf and one more. -/
theorem gencodesStackEqualsTheRecursion : Obligations.GencodesStackEqualsTheRecursion := by
  intro c m nnodes h
  have hbound : visitBound c = c.nsym * (maxLen c + 1) + maxLen c + 1 := by
    rw [visitBound, Nat.succ_mul]
    omega
  rw [stackWalk_eq (stack := []) (Nat.zero_le _) (Nat.zero_le _) trivial (hbound ▸ Nat.lt_succ_self _)]
  cases walk c nnodes (maxLen c) [] h 0 m with
  | error f => rfl
  | ok x => rfl

/-! ## A ROOT that names no node (R142, R172) -/

/-- Settles O47: both commands test ROOT right after their prechecks. -/
theorem gencodesAndDecodeNeedATree : Obligations.GencodesAndDecodeNeedATree := by
  intro s hn hroot
  refine ⟨failsWith_of_runOf_error (f := invalidTree s.root 0) ?_,
    fun hb => failsWith_of_runOf_error (f := invalidTree s.root 0) ?_⟩
  · rw [runOf, gencodesRun_eq, if_neg (not_lt.mpr hn), if_pos hroot]
  · rw [runOf, decodeRun, if_neg (not_lt.mpr hb), if_neg (not_lt.mpr hn), if_pos hroot]

end Sys2Proof.Machine
end

section
/-! PROOFS. GENCODES lists the paths of the tree at ROOT (O33), and fails at the first defect of its traversal (O35). -/

namespace Sys2Proof.Machine
open Sys2Proof.Safety

/-! ## The entries of a code table (R40, R143) -/

/-- CODE[n], CODE[n + 1] and on <- the entries, in order. -/
def recordCodes (c : Config) : Nat → List (Word × List Bool) → Memory → Memory
  | _, [], m => m
  | n, e :: rest, m => recordCodes c (n + 1) rest (setCode c n e.1 e.2.length e.2 m)

@[simp] theorem recordCodes_node (c : Config) (n : Nat) (es : List (Word × List Bool)) (m : Memory) :
    (recordCodes c n es m).node = m.node := by
  induction es generalizing n m with
  | nil => rfl
  | cons e es ih => rw [recordCodes, ih, setCode_node]

theorem recordCodes_append (c : Config) (n : Nat) (es es' : List (Word × List Bool)) (m : Memory) :
    recordCodes c n (es ++ es') m = recordCodes c (n + es.length) es' (recordCodes c n es m) := by
  induction es generalizing n m with
  | nil => rfl
  | cons e es ih =>
    rw [List.cons_append, recordCodes, ih, List.length_cons, Nat.add_comm es.length, ← Nat.add_assoc, recordCodes]

/-- CODE[j] is the entry `e`, the bits beyond its code 0. -/
structure HoldsCode (c : Config) (m : Memory) (j : Nat) (e : Word × List Bool) : Prop where
  sym : codeSym c m j = e.1
  len : codeLen c m j = e.2.length
  bits : ∀ k < 256, codeBit c m j k = e.2.getD k false

/-- The entry fits the fields of CODE: its symbol, its length, and its bits but for trailing zeros. -/
structure CodeFits (c : Config) (e : Word × List Bool) : Prop where
  sym : e.1.toNat < 2 ^ c.symW
  len : e.2.length < 256
  bits : ∀ k, maxLen c ≤ k → e.2.getD k false = false

theorem getD_of_length_le {p : List Bool} {k : Nat} (h : p.length ≤ k) : p.getD k false = false := by
  rw [List.getD_eq_getElem?_getD, List.getElem?_eq_none h, Option.getD_none]

/-- CODE.bits has no bit at MAXLEN or beyond (R40, log 10). -/
theorem codeBit_of_maxLen_le (c : Config) (m : Memory) (j : Nat) {k : Nat} (hk : k < 256) (hmax : maxLen c ≤ k) :
    codeBit c m j k = false := by
  rw [codeBit, codeWord, readField, keepLow_getLsbD, Nat.add_assoc, codeWidth_bits c j (m := k / 32) (by omega),
    decide_eq_false (by omega), Bool.false_and]

section Entries
variable {c : Config} {m : Memory} {n j : Nat} {e : Word × List Bool} {es : List (Word × List Bool)}

theorem CodeFits.holdsCode_setCode (h : CodeFits c e) (m : Memory) (j : Nat) :
    HoldsCode c (setCode c j e.1 e.2.length e.2 m) j e where
  sym := by rw [codeSym_setCode, if_pos rfl, keepLow_of_lt h.sym]
  len := by rw [codeLen_setCode, if_pos rfl, Nat.mod_eq_of_lt h.len]
  bits k hk := by
    rcases lt_or_ge k (maxLen c) with hlt | hge
    · exact codeBit_setCode_self c j _ _ _ m hk hlt
    · rw [codeBit_of_maxLen_le c _ j hk hge, h.bits k hge]

theorem HoldsCode.setCode_ne (h : HoldsCode c m j e) (hne : j ≠ n) (sym : Word) (len : Nat) (path : List Bool) :
    HoldsCode c (setCode c n sym len path m) j e where
  sym := by rw [codeSym_setCode, if_neg hne, h.sym]
  len := by rw [codeLen_setCode, if_neg hne, h.len]
  bits k hk := by rw [codeBit_setCode_ne c _ _ _ m hk hne, h.bits k hk]

theorem HoldsCode.recordCodes_of_lt (h : HoldsCode c m j e) (hj : j < n) : HoldsCode c (recordCodes c n es m) j e := by
  induction es generalizing n m with
  | nil => exact h
  | cons e' es ih => exact ih (h.setCode_ne hj.ne _ _ _) (by omega)

theorem holdsCode_recordCodes (hfit : ∀ e ∈ es, CodeFits c e) {i : Nat} (hi : i < es.length) :
    HoldsCode c (recordCodes c n es m) (n + i) es[i] := by
  induction es generalizing n m i with
  | nil => exact absurd hi (Nat.not_lt_zero i)
  | cons e es ih =>
    obtain ⟨he, hes⟩ := List.forall_mem_cons.mp hfit
    rw [recordCodes]
    cases i with
    | zero => exact (he.holdsCode_setCode m n).recordCodes_of_lt (Nat.lt_succ_self n)
    | succ i =>
      rw [show n + (i + 1) = n + 1 + i by omega]
      exact ih hes (Nat.lt_of_succ_lt_succ hi)

/-- The element of the table that CODE[j] holds. -/
theorem HoldsCode.codeEntry_eq {u : State} (h : HoldsCode u.cfg u.mem j e) (hlen : e.2.length ≤ 256) :
    codeEntry u j = e := by
  refine Prod.ext h.sym ?_
  simp only [codeEntry, h.len]
  rw [List.map_congr_left fun k hk => h.bits k ((List.mem_range.mp hk).trans_le hlen), map_range_getD]

/-- The code table of a state whose CODE was recorded entry by entry. -/
theorem codeTable_recordCodes {u : State} (hfit : ∀ e ∈ es, CodeFits u.cfg e) (hmem : u.mem = recordCodes u.cfg 0 es m)
    (hncode : u.ncode.toNat = es.length) : codeTable u = es := by
  refine List.ext_getElem (by rw [codeTable, List.length_map, List.length_range, hncode]) fun j _ hj => ?_
  have hentry : HoldsCode u.cfg u.mem (0 + j) es[j] := hmem ▸ holdsCode_recordCodes hfit hj
  rw [Nat.zero_add] at hentry
  simp only [codeTable, List.getElem_map, List.getElem_range]
  exact hentry.codeEntry_eq (hfit _ (List.getElem_mem hj)).len.le

end Entries

/-! ## Trees and their paths (spec/00_scope.md R12) -/

theorem leaves_pos (t : HTree) : 1 ≤ t.leaves := by
  induction t with
  | leaf sym => exact le_refl 1
  | internal l r ihl ihr => exact ihl.trans (Nat.le_add_right _ _)

@[simp] theorem length_paths (t : HTree) (path : List Bool) : (t.paths path).length = t.leaves := by
  induction t generalizing path with
  | leaf sym => rfl
  | internal l r ihl ihr => rw [HTree.paths, List.length_append, ihl, ihr, HTree.leaves]

@[simp] theorem length_codes (t : HTree) : t.codes.length = t.leaves := by
  cases t with
  | leaf sym => rfl
  | internal l r => exact length_paths _ _

theorem length_le_of_mem_paths {t : HTree} {path : List Bool} {e : Word × List Bool} (h : e ∈ t.paths path) :
    e.2.length ≤ path.length + t.depth := by
  induction t generalizing path with
  | leaf sym =>
    rw [List.mem_singleton.mp h]
    exact Nat.le_add_right _ _
  | internal l r ihl ihr =>
    rw [HTree.depth]
    rcases List.mem_append.mp h with h | h
    · have := ihl h
      rw [List.length_append, List.length_singleton] at this
      omega
    · have := ihr h
      rw [List.length_append, List.length_singleton] at this
      omega

/-! ## Trees in NODE (R39) -/

section Tree
variable {s : State} {h : Handle}

theorem holdsTree_leaf_iff {sym : Word} : holdsTree s h (.leaf sym) = true ↔
    h.toNat < s.nnodes.toNat ∧ (node s.cfg s.mem h.toNat).kind = .leaf ∧ (node s.cfg s.mem h.toNat).sym = sym ∧
    (node s.cfg s.mem h.toNat).left = nilHandle ∧ (node s.cfg s.mem h.toNat).right = nilHandle := by
  simp only [holdsTree, Bool.and_eq_true, decide_eq_true_eq, and_assoc]

theorem holdsTree_internal_iff {l r : HTree} : holdsTree s h (.internal l r) = true ↔
    h.toNat < s.nnodes.toNat ∧ (node s.cfg s.mem h.toNat).kind = .internal ∧
    holdsTree s (node s.cfg s.mem h.toNat).left l = true ∧ holdsTree s (node s.cfg s.mem h.toNat).right r = true := by
  simp only [holdsTree, Bool.and_eq_true, decide_eq_true_eq, and_assoc]

theorem lt_of_holdsTree {t : HTree} (ht : holdsTree s h t = true) : h.toNat < s.nnodes.toNat := by
  cases t with
  | leaf sym => exact (holdsTree_leaf_iff.mp ht).1
  | internal l r => exact (holdsTree_internal_iff.mp ht).1

/-- NIL names no node (R9, R142). -/
theorem ne_nilHandle_of_lt (hnn : s.nnodes.toNat ≤ nnodeMax s.cfg) (h : Handle) (hlt : h.toNat < s.nnodes.toNat) :
    h ≠ nilHandle := by
  rintro rfl
  have := (config_bounds s.cfg).2.1
  have hnil : nilHandle.toNat = 511 := rfl
  unfold nnodeMax at hnn
  omega

/-- The symbols of a tree in NODE are symbols of the alphabet. -/
theorem toNat_lt_of_mem_paths {t : HTree} {path : List Bool} (ht : holdsTree s h t = true) {e : Word × List Bool}
    (he : e ∈ t.paths path) : e.1.toNat < 2 ^ s.cfg.symW := by
  induction t generalizing h path with
  | leaf sym =>
    obtain ⟨-, -, rfl, -⟩ := holdsTree_leaf_iff.mp ht
    rw [List.mem_singleton.mp he]
    exact node_sym_lt _ _ _
  | internal l r ihl ihr =>
    obtain ⟨-, -, hl, hr⟩ := holdsTree_internal_iff.mp ht
    rcases List.mem_append.mp he with he | he
    · exact ihl hl he
    · exact ihr hr he

/-- The codes of a tree that is not too deep fit CODE, the one code "0" of a single leaf included. -/
theorem codeFits_of_mem_codes {t : HTree} (ht : holdsTree s h t = true) (hdepth : t.depth ≤ maxLen s.cfg)
    {e : Word × List Bool} (he : e ∈ t.codes) : CodeFits s.cfg e := by
  cases t with
  | leaf sym =>
    obtain rfl : e = (sym, [false]) := List.mem_singleton.mp he
    obtain ⟨-, -, rfl, -⟩ := holdsTree_leaf_iff.mp ht
    refine ⟨node_sym_lt _ _ _, Nat.one_lt_two_pow (n := 8) (by decide), fun k _ => ?_⟩
    cases k <;> rfl
  | internal l r =>
    have hlen : e.2.length ≤ maxLen s.cfg := ((length_le_of_mem_paths he).trans (Nat.zero_add _).le).trans hdepth
    have hmax : maxLen s.cfg ≤ 255 := Nat.sub_le_sub_right (config_bounds s.cfg).2.1 1
    exact ⟨toNat_lt_of_mem_paths ht he, by omega, fun k hk => getD_of_length_le (hlen.trans hk)⟩

end Tree

/-! ## Visits that find no defect (R143) -/

section Visit
variable {c : Config} {nnodes d n : Nat} {m : Memory} {h : Handle}

theorem visit_congr {m' : Memory} (hm : m.node = m'.node) : visit c nnodes m h d n = visit c nnodes m' h d n := by
  simp only [visit, node_congr c _ hm]

theorem visit_eq_leaf (hlt : h.toNat < nnodes) (hkind : (node c m h.toNat).kind = .leaf)
    (hl : (node c m h.toNat).left = nilHandle) (hr : (node c m h.toNat).right = nilHandle) (hn : n ≠ c.nsym) :
    visit c nnodes m h d n = .ok (.leaf (node c m h.toNat).sym) := by
  rw [visit, if_neg (not_le.mpr hlt)]
  simp [hkind, hl, hr, hn]

theorem visit_eq_internal (hlt : h.toNat < nnodes) (hkind : (node c m h.toNat).kind = .internal)
    (hl : (node c m h.toNat).left ≠ nilHandle) (hr : (node c m h.toNat).right ≠ nilHandle) (hd : d ≠ maxLen c) :
    visit c nnodes m h d n = .ok (.internal (node c m h.toNat).left (node c m h.toNat).right) := by
  rw [visit, if_neg (not_le.mpr hlt)]
  simp [hkind, hl, hr, hd]

end Visit

/-! ## The walk over a tree that fits -/

/-- The walk over a well-formed subtree records its paths, left before right (R143, R148). -/
theorem walk_holdsTree {s : State} (hnn : s.nnodes.toNat ≤ nnodeMax s.cfg) {t : HTree} {room n : Nat} {path : List Bool}
    {h : Handle} {m : Memory} (ht : holdsTree s h t = true) (hm : m.node = s.mem.node)
    (hroom : path.length + room = maxLen s.cfg) (hdepth : t.depth ≤ room) (hn : n + t.leaves ≤ s.cfg.nsym) :
    walk s.cfg s.nnodes.toNat room path h n m = .ok (n + t.leaves, recordCodes s.cfg n (t.paths path) m) := by
  induction t generalizing room path h n m with
  | leaf sym =>
    obtain ⟨hlt, hkind, rfl, hl, hr⟩ := holdsTree_leaf_iff.mp ht
    rw [HTree.leaves] at hn
    have hv := (visit_congr hm).trans (visit_eq_leaf (d := path.length) hlt hkind hl hr (by omega : n ≠ s.cfg.nsym))
    rw [walk_of_visit_leaf hv]
    rfl
  | internal l r ihl ihr =>
    obtain ⟨hlt, hkind, hl, hr⟩ := holdsTree_internal_iff.mp ht
    rw [HTree.depth] at hdepth
    rw [HTree.leaves] at hn ⊢
    obtain ⟨room, rfl⟩ : ∃ room', room = room' + 1 := ⟨room - 1, by omega⟩
    have hv := (visit_congr hm).trans (visit_eq_internal (d := path.length) (n := n) hlt hkind
      (ne_nilHandle_of_lt hnn _ (lt_of_holdsTree hl)) (ne_nilHandle_of_lt hnn _ (lt_of_holdsTree hr)) (by omega))
    have hlen (b : Bool) : (path ++ [b]).length + room = maxLen s.cfg := by
      rw [List.length_append, List.length_singleton]
      omega
    rw [walk_of_visit_internal hv, ihl hl hm (hlen false) (by omega) (by omega)]
    simp only [Except.bind]
    rw [ihr hr ((recordCodes_node ..).trans hm) (hlen true) (by omega) (by omega), HTree.paths, recordCodes_append,
      length_paths, Nat.add_assoc]

/-- The traversal of a tree that fits records its codes (R141). -/
theorem gencodesTraversal_holdsTree {s : State} (hnn : s.nnodes.toNat ≤ nnodeMax s.cfg) {t : HTree}
    (ht : holdsTree s s.root t = true) (hdepth : t.depth ≤ maxLen s.cfg) (hn : t.leaves ≤ s.cfg.nsym) :
    gencodesTraversal s = .ok (t.leaves, recordCodes s.cfg 0 t.codes s.mem) := by
  cases t with
  | leaf sym =>
    obtain ⟨-, hkind, rfl, hl, hr⟩ := holdsTree_leaf_iff.mp ht
    simp only [gencodesTraversal, hkind, singleLeaf, hl, hr]
    rfl
  | internal l r =>
    obtain ⟨-, hkind, -⟩ := holdsTree_internal_iff.mp ht
    simp only [gencodesTraversal, hkind]
    rw [walk_holdsTree hnn ht rfl (Nat.zero_add _) hdepth (by omega), Nat.zero_add, HTree.codes]

/-- GENCODES completes with the outputs of a traversal that succeeds (R141). -/
theorem exec_gencodes_of_traversal {s : State} (hnn : s.nnodes.toNat ≤ nnodeMax s.cfg)
    (hroot : s.root.toNat < s.nnodes.toNat) {n : Nat} {m : Memory} (ht : gencodesTraversal s = .ok (n, m)) :
    exec .gencodes s = .next (succeed { s with mem := m, ncode := BitVec.ofNat 32 n }) := by
  rw [exec_eq_finish, runOf, gencodesRun_eq, if_neg (not_lt.mpr hnn), if_neg (not_le.mpr hroot), ht]
  rfl

/-- Settles O33: the traversal records the tree's codes, which fit CODE and so are read back whole. -/
theorem gencodesListsThePathsOfTheTree : Obligations.GencodesListsThePathsOfTheTree := by
  intro s t hnn ht hdepth hn
  have htrav := gencodesTraversal_holdsTree hnn ht hdepth hn
  have hfit : ∀ e ∈ t.codes, CodeFits s.cfg e := fun _ => codeFits_of_mem_codes ht hdepth
  have hbounds := (config_bounds s.cfg).2.1
  have hncode : (BitVec.ofNat 32 t.leaves).toNat = t.codes.length := by
    rw [toNat_ofNat_of_le hn (by omega), length_codes]
  refine ⟨_, exec_gencodes_of_traversal hnn (lt_of_holdsTree ht) htrav, ⟨rfl, rfl, rfl, rfl⟩,
    codeTable_recordCodes hfit rfl hncode, fun j hj k hlen hk => ?_⟩
  rw [succeed_ncode, hncode] at hj
  have hentry := holdsCode_recordCodes (n := 0) (m := s.mem) hfit hj
  rw [Nat.zero_add] at hentry
  have hk' : k < s.cfg.nsym - 1 := hk
  exact (hentry.bits k (by omega)).trans (getD_of_length_le (hentry.len ▸ hlen))

/-! ## The first defect (R142, R143, R146) -/

section Defect
variable {s : State} {h : Handle} {d n : Nat}

theorem passable_iff : passable s h d = true ↔
    h.toNat < s.nnodes.toNat ∧ (node s.cfg s.mem h.toNat).kind = .internal ∧
    (node s.cfg s.mem h.toNat).left ≠ nilHandle ∧ (node s.cfg s.mem h.toNat).right ≠ nilHandle ∧ d < maxLen s.cfg := by
  simp only [passable, Bool.and_eq_true, decide_eq_true_eq, and_assoc]

/-- A path goes on from passable nodes only. -/
theorem passable_of_walksTo_cons {b : Bool} {p : List Bool} {done : List HTree} (hw : walksTo s h d (b :: p) done = true) :
    passable s h d = true := by
  match b, done with
  | false, done =>
    simp only [walksTo, Bool.and_eq_true] at hw
    exact hw.1
  | true, l :: done =>
    simp only [walksTo, Bool.and_eq_true] at hw
    exact hw.1.1.1

/-- Each of the five defects makes the visit fail, with the handle and the depth (R143). -/
theorem visit_defect (hdefect : s.nnodes.toNat ≤ h.toNat ∨ leafWithChild s h ∨
      ((node s.cfg s.mem h.toNat).kind = .leaf ∧ n = s.cfg.nsym) ∨ internalMissingChild s h ∨
      (d = maxLen s.cfg ∧ goodInternal s h)) :
    visit s.cfg s.nnodes.toNat s.mem h d n = .error (invalidTree h d) := by
  match hv : visit s.cfg s.nnodes.toNat s.mem h d n with
  | .error f => rw [visit_error hv]
  | .ok (.leaf sym) =>
    obtain ⟨hlt, hkind, hl, hr, hn, -⟩ := visit_leaf hv
    rcases hdefect with hge | ⟨-, hchild⟩ | ⟨-, hfull⟩ | ⟨hinternal, -⟩ | ⟨-, hinternal, -⟩
    · omega
    · exact absurd hchild (not_or.mpr ⟨not_not.mpr hl, not_not.mpr hr⟩)
    · exact absurd hfull hn
    · exact nomatch hkind.symm.trans hinternal
    · exact nomatch hkind.symm.trans hinternal
  | .ok (.internal l r) =>
    obtain ⟨hlt, hkind, hl, hr, -⟩ := visit_internal hv
    rcases hdefect with hge | ⟨hleaf, -⟩ | ⟨hleaf, -⟩ | ⟨-, hmissing⟩ | ⟨hdeep, -⟩
    · omega
    · exact nomatch hkind.symm.trans hleaf
    · exact nomatch hkind.symm.trans hleaf
    · exact absurd hmissing (not_or.mpr ⟨hl, hr⟩)
    · exact absurd hdeep (visit_internal_depth hv)

/-- The walk fails where the visit at the end of its path fails: the nodes on the path pass, and the left subtrees on the way
record their leaves. -/
theorem walk_of_walksTo (hnn : s.nnodes.toNat ≤ nnodeMax s.cfg) {p path : List Bool} {done : List HTree} {room : Nat}
    {m : Memory} {f : Failure} (hw : walksTo s h path.length p done = true) (hm : m.node = s.mem.node)
    (hroom : path.length + room = maxLen s.cfg) (hn : n + (done.map HTree.leaves).sum ≤ s.cfg.nsym)
    (hv : visit s.cfg s.nnodes.toNat s.mem (follow s h p) (path.length + p.length) (n + (done.map HTree.leaves).sum) =
      .error f) : walk s.cfg s.nnodes.toNat room path h n m = .error f := by
  induction p generalizing h path done room n m with
  | nil =>
    obtain rfl : done = [] := List.isEmpty_iff.mp hw
    exact walk_of_visit_error ((visit_congr hm).trans hv) room
  | cons b p ih =>
    obtain ⟨hlt, hkind, hl, hr, hd⟩ := passable_iff.mp (passable_of_walksTo_cons hw)
    obtain ⟨room, rfl⟩ : ∃ room', room = room' + 1 := ⟨room - 1, by omega⟩
    have hvisit := (visit_congr hm).trans (visit_eq_internal (d := path.length) (n := n) hlt hkind hl hr hd.ne)
    have hlen (b : Bool) : (path ++ [b]).length = path.length + 1 := List.length_append
    have hdepth (b : Bool) : (path ++ [b]).length + p.length = path.length + (p.length + 1) := by
      rw [hlen]
      omega
    rw [walk_of_visit_internal hvisit]
    match b, done with
    | false, done =>
      simp only [walksTo, Bool.and_eq_true] at hw
      rw [ih (by rw [hlen]; exact hw.2) hm (by rw [hlen]; omega) hn (by rw [hdepth]; exact hv)]
      rfl
    | true, l :: done =>
      simp only [walksTo, Bool.and_eq_true, decide_eq_true_eq] at hw
      obtain ⟨⟨⟨-, hleft⟩, hfits⟩, hright⟩ := hw
      rw [List.map_cons, List.sum_cons, ← Nat.add_assoc] at hn hv
      rw [walk_holdsTree hnn hleft hm (by rw [hlen]; omega) (by omega) (by omega)]
      exact ih (by rw [hlen]; exact hright) ((recordCodes_node ..).trans hm) (by rw [hlen]; omega) hn
        (by rw [hdepth]; exact hv)

/-- A LEAF at the root whose visit fails is no single leaf (R144). -/
theorem singleLeaf_of_visit_error {c : Config} {nnodes : Nat} {m : Memory} {f : Failure} (hlt : h.toNat < nnodes)
    (hkind : (node c m h.toNat).kind = .leaf) (hv : visit c nnodes m h 0 0 = .error f) :
    singleLeaf c h (node c m h.toNat) m = .error f := by
  unfold singleLeaf
  split_ifs with hchild
  · rw [visit_error hv]
  · rw [not_or, not_not, not_not] at hchild
    have hnsym : 0 ≠ c.nsym := Nat.ne_of_lt (config_bounds c).1
    exact nomatch hv.symm.trans (visit_eq_leaf hlt hkind hchild.1 hchild.2 hnsym)

/-- GENCODES fails where the visit at the end of the traversal's path fails. -/
theorem gencodesRun_of_walksTo (hnn : s.nnodes.toNat ≤ nnodeMax s.cfg) {p : List Bool} {done : List HTree} {f : Failure}
    (hw : walksTo s s.root 0 p done = true) (hn : (done.map HTree.leaves).sum ≤ s.cfg.nsym)
    (hv : visit s.cfg s.nnodes.toNat s.mem (follow s s.root p) p.length (done.map HTree.leaves).sum = .error f) :
    gencodesRun s = .error f := by
  have hstay (hp : ¬ passable s s.root 0 = true) : visit s.cfg s.nnodes.toNat s.mem s.root 0 0 = .error f := by
    match p, hw with
    | [], hw =>
      obtain rfl : done = [] := List.isEmpty_iff.mp hw
      exact hv
    | b :: p, hw => exact absurd (passable_of_walksTo_cons hw) hp
  rw [gencodesRun_eq, if_neg (not_lt.mpr hnn)]
  split_ifs with hroot
  · rw [visit_error (hstay fun hp => absurd (passable_iff.mp hp).1 (not_lt.mpr hroot))]
  · have htrav : gencodesTraversal s = .error f := by
      cases hkind : (node s.cfg s.mem s.root.toNat).kind with
      | leaf =>
        simp only [gencodesTraversal, hkind]
        refine singleLeaf_of_visit_error (not_le.mp hroot) hkind (hstay fun hp => ?_)
        exact nomatch hkind.symm.trans (passable_iff.mp hp).2.1
      | internal =>
        simp only [gencodesTraversal, hkind]
        refine walk_of_walksTo (path := []) hnn hw rfl (Nat.zero_add _) (by rwa [Nat.zero_add]) ?_
        rwa [List.length_nil, Nat.zero_add, Nat.zero_add]
    rw [htrav]
    rfl

end Defect

/-- Settles O35: the traversal comes to the defect, and the visit there fails. -/
theorem gencodesFailsAtTheFirstDefect : Obligations.GencodesFailsAtTheFirstDefect := by
  intro s p done hnn hw hn hdefect
  exact failsWith_of_runOf_error (f := invalidTree (follow s s.root p) p.length)
    (gencodesRun_of_walksTo hnn hw hn (visit_defect hdefect))

end Sys2Proof.Machine
end

section
/-! PROOFS. The tree BUILD makes yields a code table in which no code begins another (O36). -/

namespace Sys2Proof.Machine
open Sys2Proof.Safety

/-! ## The leaves and the paths of a tree (spec/00_scope.md R12) -/

/-- The symbols of a tree's leaves, left subtree first. -/
def leafSymbols : HTree → List Word
  | .leaf sym => [sym]
  | .internal l r => leafSymbols l ++ leafSymbols r

@[simp] theorem length_leafSymbols (t : HTree) : (leafSymbols t).length = t.leaves := by
  induction t with
  | leaf sym => rfl
  | internal l r ihl ihr => rw [leafSymbols, List.length_append, ihl, ihr, HTree.leaves]

theorem map_fst_paths (t : HTree) (path : List Bool) : (t.paths path).map Prod.fst = leafSymbols t := by
  induction t generalizing path with
  | leaf sym => rfl
  | internal l r ihl ihr => rw [HTree.paths, List.map_append, ihl, ihr, leafSymbols]

theorem map_fst_codes (t : HTree) : t.codes.map Prod.fst = leafSymbols t := by
  cases t with
  | leaf sym => rfl
  | internal l r => exact map_fst_paths _ _

/-- Every INTERNAL node has two children, so a tree has more leaves than levels below its root (R146). -/
theorem depth_lt_leaves (t : HTree) : t.depth < t.leaves := by
  induction t with
  | leaf sym => exact Nat.zero_lt_one
  | internal l r ihl ihr =>
    rw [HTree.depth, HTree.leaves]
    omega

/-- The path to a subtree begins the path to each of its leaves. -/
theorem prefix_of_mem_paths {t : HTree} {path : List Bool} {e : Word × List Bool} (h : e ∈ t.paths path) :
    path <+: e.2 := by
  induction t generalizing path with
  | leaf sym =>
    obtain rfl : e = (sym, path) := List.mem_singleton.mp h
    exact List.prefix_refl path
  | internal l r ihl ihr =>
    rcases List.mem_append.mp h with h | h
    · exact (List.prefix_append path [false]).trans (ihl h)
    · exact (List.prefix_append path [true]).trans (ihr h)

/-- Of two paths that part at a node neither begins the other. -/
theorem not_prefix_of_part {path p q : List Bool} {a b : Bool} (hab : a ≠ b) (hp : path ++ [a] <+: p)
    (hq : path ++ [b] <+: q) : ¬ p <+: q := by
  intro hpq
  have hsame : path ++ [a] <+: path ++ [b] := List.prefix_of_prefix_length_le (hp.trans hpq) hq (by simp)
  exact hab (by simpa using hsame)

theorem prefixFree_paths (t : HTree) (path : List Bool) : prefixFree (t.paths path) := by
  induction t generalizing path with
  | leaf sym => exact List.pairwise_singleton _ _
  | internal l r ihl ihr =>
    refine List.pairwise_append.mpr ⟨ihl _, ihr _, fun e he e' he' => ?_⟩
    have hl := prefix_of_mem_paths he
    have hr := prefix_of_mem_paths he'
    exact ⟨not_prefix_of_part Bool.false_ne_true hl hr, not_prefix_of_part Bool.false_ne_true.symm hr hl⟩

theorem prefixFree_codes (t : HTree) : prefixFree t.codes := by
  cases t with
  | leaf sym => exact List.pairwise_singleton _ _
  | internal l r => exact prefixFree_paths _ _

/-! ## The trees of BUILD's queue (R124) -/

/-- A tree stands where its nodes do. -/
theorem holdsTree_congr {s s' : State} {t : HTree} {h : Handle} (hnn : s.nnodes.toNat ≤ s'.nnodes.toNat)
    (hnode : ∀ g < s.nnodes.toNat, node s'.cfg s'.mem g = node s.cfg s.mem g) (ht : holdsTree s h t = true) :
    holdsTree s' h t = true := by
  have hlt := lt_of_holdsTree ht
  induction t generalizing h with
  | leaf sym =>
    rw [holdsTree_leaf_iff] at ht ⊢
    rw [hnode _ hlt]
    exact ⟨hlt.trans_le hnn, ht.2⟩
  | internal l r ihl ihr =>
    obtain ⟨-, hkind, hl, hr⟩ := holdsTree_internal_iff.mp ht
    rw [holdsTree_internal_iff, hnode _ hlt]
    exact ⟨hlt.trans_le hnn, hkind, ihl hl (lt_of_holdsTree hl), ihr hr (lt_of_holdsTree hr)⟩

/-- The state in the course of BUILD, `k` nodes made. -/
abbrev building (s : State) (k : Nat) (m : Memory) : State := { s with mem := m, nnodes := BitVec.ofNat 32 k }

/-- Each handle of the queue names a tree among the `k` nodes made, and their leaves together are the table's symbols. -/
structure QueueTrees (s : State) (k : Nat) (m : Memory) (q : List Handle) (tree : Handle → HTree) : Prop where
  holds : ∀ x ∈ q, holdsTree (building s k m) x (tree x) = true
  symbols : (q.flatMap fun x => leafSymbols (tree x)).Perm ((List.range s.nfreq.toNat).map (freqSym s.cfg s.mem))

section Trees
variable {s : State} {m0 m : Memory} {n k : Nat} {a b : Handle} {q r : List Handle} {tree : Handle → HTree}

theorem QueueTrees.perm {q' : List Handle} (h : QueueTrees s k m q tree) (hq : q.Perm q') : QueueTrees s k m q' tree :=
  ⟨fun x hx => h.holds x (hq.mem_iff.mpr hx), (hq.flatMap_right _).symm.trans h.symbols⟩

/-- A tree stays when the next node is written. -/
theorem holdsTree_building_setNode {t : HTree} {x : Handle} (hk : k < 512) (nd : Node)
    (ht : holdsTree (building s k m) x t = true) : holdsTree (building s (k + 1) (setNode s.cfg k nd m)) x t = true := by
  have hnn {j : Nat} (hj : j ≤ 512) : (BitVec.ofNat 32 j).toNat = j := toNat_ofNat_of_le hj (by decide)
  have hnode : ∀ g < k, node s.cfg (setNode s.cfg k nd m) g = node s.cfg m g :=
    fun g hg => node_setNode_ne s.cfg nd m hg.ne
  refine holdsTree_congr (s := building s k m) ?_ (fun g hg => hnode g ?_) ht
  · rw [hnn (by omega), hnn (by omega)]
    exact Nat.le_succ k
  · rwa [hnn (by omega)] at hg

/-- A merge puts the two trees under one node, and their leaves together. -/
theorem QueueTrees.merge (h : QueueTrees s k m (a :: b :: r) tree) (hf : Forest s.cfg m0 n k m (a :: b :: r))
    (hn : n ≤ s.cfg.nsym) : QueueTrees s (k + 1) (mergeNode s.cfg k m a b) (BitVec.ofNat 9 k :: r)
      (Function.update tree (BitVec.ofNat 9 k) (.internal (tree a) (tree b))) := by
  have hsize := hf.size
  have hle := hf.le
  have hnsym := (config_bounds s.cfg).2.1
  have hk : k < 512 := by
    simp only [List.length_cons] at hsize
    omega
  have hhandle := hf.handle_toNat hn
  have hold : ∀ x ∈ a :: b :: r, holdsTree (building s (k + 1) (mergeNode s.cfg k m a b)) x (tree x) = true :=
    fun x hx => holdsTree_building_setNode hk _ (h.holds x hx)
  have hother : ∀ x ∈ r, Function.update tree (BitVec.ofNat 9 k) (.internal (tree a) (tree b)) x = tree x := by
    intro x hx
    refine Function.update_of_ne (fun he => ?_) _ _
    have hbelow := hf.below x (by simp [hx])
    rw [he, hhandle] at hbelow
    exact absurd hbelow (lt_irrefl k)
  constructor
  case holds =>
    refine List.forall_mem_cons.mpr ⟨?_, fun x hx => ?_⟩
    · rw [Function.update_self, holdsTree_internal_iff, hhandle, hf.node_merge hn]
      refine ⟨?_, rfl, hold a (by simp), hold b (by simp)⟩
      rw [toNat_ofNat_of_le hk (by decide)]
      exact Nat.lt_succ_self k
    · rw [hother x hx]
      exact hold x (by simp [hx])
  case symbols =>
    refine List.Perm.trans (.of_eq ?_) h.symbols
    have hrest : (r.flatMap fun x => leafSymbols (Function.update tree (BitVec.ofNat 9 k) (.internal (tree a) (tree b)) x)) =
        r.flatMap fun x => leafSymbols (tree x) := List.flatMap_congr fun x hx => by rw [hother x hx]
    simp only [List.flatMap_cons, Function.update_self, leafSymbols, hrest, List.append_assoc]

theorem mergeLoop_queueTrees (hn : n ≤ s.cfg.nsym) (bound : Nat) (hf : HeapForest s.cfg m0 n k m q)
    (ht : QueueTrees s k m q tree) : ∃ tree', QueueTrees s (mergeLoop s.cfg bound k m q).1
      (mergeLoop s.cfg bound k m q).2.1 (mergeLoop s.cfg bound k m q).2.2 tree' := by
  induction bound generalizing k m q tree with
  | zero => exact ⟨tree, ht⟩
  | succ bound ih =>
    by_cases hlen : 1 < q.length
    · obtain ⟨a, b, r, q1, hperm, -, hq1, hnext, hloop⟩ := hf.merge hn hlen
      rw [hloop]
      exact ih hnext (((ht.perm hperm).merge (hf.forest.perm hperm) hn).perm hq1.symm)
    · rw [mergeLoop, if_neg hlen]
      exact ⟨tree, ht⟩

/-- Each leaf of the table is a tree of its own (R122). -/
theorem LeavesMade.queueTrees (h : LeavesMade s.cfg s.mem s.nfreq.toNat m q) (hn : s.nfreq.toNat ≤ 256) :
    QueueTrees s s.nfreq.toNat m q fun x => .leaf (freqSym s.cfg s.mem x.toNat) := by
  have hhandle : ∀ j < s.nfreq.toNat, (BitVec.ofNat 9 j).toNat = j := by
    intro j hj
    rw [BitVec.toNat_ofNat, Nat.mod_eq_of_lt (by omega)]
  refine QueueTrees.perm (q := (List.range s.nfreq.toNat).map (BitVec.ofNat 9)) ?_ h.queue.symm
  constructor
  case holds =>
    intro x hx
    obtain ⟨j, hj, rfl⟩ := List.mem_map.mp hx
    have hj := List.mem_range.mp hj
    rw [hhandle j hj, holdsTree_leaf_iff, hhandle j hj, h.leaves j hj, toNat_ofNat_of_le hn (by decide)]
    exact ⟨hj, rfl, rfl, rfl, rfl⟩
  case symbols =>
    refine .of_eq ?_
    simp only [leafSymbols, List.flatMap_map]
    rw [← List.map_eq_flatMap]
    exact List.map_congr_left fun j hj => by rw [hhandle j (List.mem_range.mp hj)]

end Trees

/-- BUILD leaves ROOT at a tree whose leaves are the entries of the table (R44, R124). -/
theorem exec_build_holdsTree {s t : State} (h1 : 1 ≤ s.nfreq.toNat) (h2 : s.nfreq.toNat ≤ s.cfg.nsym)
    (hx : exec .build s = .next t) :
    t.cfg = s.cfg ∧ t.nnodes.toNat = 2 * s.nfreq.toNat - 1 ∧ ∃ tree, holdsTree t t.root tree = true ∧
      (leafSymbols tree).Perm ((List.range s.nfreq.toNat).map (freqSym s.cfg s.mem)) := by
  cases hx.symm.trans (exec_build_of_le h1 h2)
  have hnsym := (config_bounds s.cfg).2.1
  obtain ⟨root, hq, -, hk, -⟩ := buildLoops_tree s.mem h1 h2
  obtain ⟨tree, htree⟩ := mergeLoop_queueTrees h2 s.nfreq.toNat (leafLoop_heapForest s.mem h2)
    ((leafLoop_table _ _ _).queueTrees (h2.trans hnsym))
  rw [← buildLoops_eq, hq] at htree
  refine ⟨rfl, ?_, tree root, ?_, by simpa using htree.symbols⟩
  · simp only [succeed_nnodes, hk]
    exact toNat_ofNat_of_le (b := 512) (by omega) (by decide)
  · have hroot := htree.holds root (List.mem_singleton_self root)
    simp only [succeed_root, hq]
    exact holdsTree_congr (s := building s _ _) (le_refl _) (fun _ _ => rfl) hroot

/-- Settles O36: the tree has as many leaves as the table has entries, so it fits GENCODES, which lists its codes. -/
theorem builtTreeYieldsAPrefixFreeTable : Obligations.BuiltTreeYieldsAPrefixFreeTable := by
  intro s t u h1 h2 hbuild hgen
  obtain ⟨hcfg, hnn, tree, ht, hsyms⟩ := exec_build_holdsTree h1 h2 hbuild
  have hleaves : tree.leaves = s.nfreq.toNat := by simpa using hsyms.length_eq
  have hdepth := depth_lt_leaves tree
  obtain ⟨u', hgen', hok, htable, -⟩ := gencodesListsThePathsOfTheTree t tree
    (by rw [hnn, hcfg, nnodeMax]; omega) ht (by rw [hcfg, maxLen]; omega) (by rw [hcfg]; omega)
  cases hgen.symm.trans hgen'
  have hncode : u.ncode.toNat = tree.leaves := by simpa [codeTable] using congrArg List.length htable
  refine ⟨hok, BitVec.eq_of_toNat_eq (hncode.trans hleaves), ?_, ?_⟩
  · rw [htable]
    exact prefixFree_codes tree
  · rw [htable, map_fst_codes]
    exact hsyms

end Sys2Proof.Machine
end

section
/-! PROOFS. ENCODE concatenates the codes of its symbols (O38), and where it fails (O39). -/

namespace Sys2Proof.Machine
open Sys2Proof.Safety

/-! ## The lookup in the rule's words (R157) -/

theorem isEntry_iff {c : Config} {m : Memory} {x : Word} {j : Nat} :
    isEntry c m x j = true ↔ codeSym c m j = x ∧ 1 ≤ codeLen c m j ∧ codeLen c m j ≤ maxLen c := by
  simp only [isEntry, Bool.and_eq_true, beq_iff_eq, decide_eq_true_eq, and_assoc]

theorem lookup_eq_some_iff_usedEntry {s : State} {x : Word} {j : Nat} :
    lookup s.cfg s.mem x s.ncode.toNat = some j ↔ usedEntry s x j := by
  simp only [lookup_eq_some, usedEntry, ← isEntry_iff, Bool.not_eq_true, and_assoc]

theorem lookup_eq_none_iff_noEntry {s : State} {x : Word} :
    lookup s.cfg s.mem x s.ncode.toNat = none ↔ noEntry s x := by
  simp only [lookup_eq_none, noEntry, ← isEntry_iff, Bool.not_eq_true]

theorem codeSym_congr {m m' : Memory} (c : Config) (j : Nat) (h : m.code = m'.code) : codeSym c m j = codeSym c m' j :=
  codeWord_congr c _ h

theorem codeLen_congr {m m' : Memory} (c : Config) (j : Nat) (h : m.code = m'.code) : codeLen c m j = codeLen c m' j :=
  congrArg BitVec.toNat (codeWord_congr c _ h)

theorem codeBit_congr {m m' : Memory} (c : Config) (j : Nat) (h : m.code = m'.code) : codeBit c m j = codeBit c m' j :=
  funext fun k => congrArg (·.getLsbD (k % 32)) (codeWord_congr c _ h)

theorem lookup_congr {m m' : Memory} (c : Config) (x : Word) (n : Nat) (h : m.code = m'.code) :
    lookup c m x n = lookup c m' x n :=
  List.find?_congr fun j _ => by rw [isEntry, isEntry, codeSym_congr c j h, codeLen_congr c j h]

/-! ## The bits of the codes (R158) -/

/-- The codes of the first `n` symbols one after another, symbol k encoded by CODE[f k]. -/
def codedBits (s : State) (f : Nat → Nat) (n : Nat) : List Bool := (List.range n).flatMap fun k => (codeEntry s (f k)).2

theorem codedBits_succ (s : State) (f : Nat → Nat) (n : Nat) :
    codedBits s f (n + 1) = codedBits s f n ++ (codeEntry s (f n)).2 := by
  simp [codedBits, List.range_succ]

theorem codedLength_succ (s : State) (f : Nat → Nat) (n : Nat) :
    codedLength s f (n + 1) = codedLength s f n + codeLen s.cfg s.mem (f n) := by
  simp [codedLength, List.range_succ]

/-- Writing `n` bits behind the first `out` appends them to the bit string. -/
theorem map_bit_setBits (out : Nat) (g : Nat → Bool) (n : Nat) (m : Memory) :
    (List.range (out + n)).map (bit (setBits out g n m)) = (List.range out).map (bit m) ++ (List.range n).map g := by
  rw [List.range_add, List.map_append, List.map_map]
  congr 1
  · refine List.map_congr_left fun k hk => ?_
    have hk := List.mem_range.mp hk
    rw [bit_setBits, if_neg (by omega)]
  · refine List.map_congr_left fun k hk => ?_
    have hk := List.mem_range.mp hk
    rw [Function.comp_apply, bit_setBits, if_pos (by omega), Nat.add_sub_cancel_left]

/-! ## ENCODE's loop runs along the sequence (R156) -/

section Turn
variable {c : Config} {m : Memory} {ncode i out j : Nat}

/-! A turn of the loop, by what the lookup finds: no entry, an entry and no room for its code, or an entry and room. -/

theorem encodeLoop_unknown (hl : lookup c m (symbol c m i) ncode = none) (rem : Nat) : encodeLoop c ncode (rem + 1) i out m =
    .error { err := .unknownSymbol, info := symbol c m i, pos := BitVec.ofNat 32 i } := by
  simp only [encodeLoop, hl]

theorem encodeLoop_full (hl : lookup c m (symbol c m i) ncode = some j) (hfull : c.bitN < out + codeLen c m j) (rem : Nat) :
    encodeLoop c ncode (rem + 1) i out m =
      .error { err := .capacity, info := symbol c m i, pos := BitVec.ofNat 32 i } := by
  simp only [encodeLoop, hl, if_pos hfull]

theorem encodeLoop_found (hl : lookup c m (symbol c m i) ncode = some j) (hroom : out + codeLen c m j ≤ c.bitN) (rem : Nat) :
    encodeLoop c ncode (rem + 1) i out m =
      encodeLoop c ncode rem (i + 1) (out + codeLen c m j) (setBits out (codeBit c m j) (codeLen c m j) m) := by
  simp only [encodeLoop, hl, if_neg (not_lt.mpr hroom)]

end Turn

/-- ENCODE's loop after `i` symbols: their codes stand in BITBUF, and nothing else has changed. -/
structure Encoded (s : State) (f : Nat → Nat) (i : Nat) (m : Memory) : Prop where
  coded : (List.range (codedLength s f i)).map (bit m) = codedBits s f i
  beyond : ∀ k, codedLength s f i ≤ k → bit m k = bit s.mem k
  symbuf : m.symbuf = s.mem.symbuf
  code : m.code = s.mem.code

section Loop
variable {s : State} {f : Nat → Nat} {i : Nat} {m : Memory}

theorem Encoded.symbol_eq (h : Encoded s f i m) (k : Nat) : symbol s.cfg m k = symbol s.cfg s.mem k :=
  symbol_congr _ _ h.symbuf

theorem Encoded.lookup_eq_some (h : Encoded s f i m) {j : Nat} (hu : usedEntry s (symbol s.cfg s.mem i) j) :
    lookup s.cfg m (symbol s.cfg m i) s.ncode.toNat = some j := by
  rw [h.symbol_eq, lookup_congr _ _ _ h.code]
  exact lookup_eq_some_iff_usedEntry.mpr hu

theorem Encoded.lookup_eq_none (h : Encoded s f i m) (hno : noEntry s (symbol s.cfg s.mem i)) :
    lookup s.cfg m (symbol s.cfg m i) s.ncode.toNat = none := by
  rw [h.symbol_eq, lookup_congr _ _ _ h.code]
  exact lookup_eq_none_iff_noEntry.mpr hno

/-- One turn of the loop where the symbol has an entry and its code fits. -/
theorem Encoded.step (h : Encoded s f i m) (hu : usedEntry s (symbol s.cfg s.mem i) (f i))
    (hroom : codedLength s f (i + 1) ≤ s.cfg.bitN) :
    ∃ m', Encoded s f (i + 1) m' ∧ ∀ rem, encodeLoop s.cfg s.ncode.toNat (rem + 1) i (codedLength s f i) m =
      encodeLoop s.cfg s.ncode.toNat rem (i + 1) (codedLength s f (i + 1)) m' := by
  have hlen : codedLength s f (i + 1) = codedLength s f i + codeLen s.cfg m (f i) := by
    rw [codedLength_succ, codeLen_congr _ _ h.code]
  refine ⟨setBits (codedLength s f i) (codeBit s.cfg m (f i)) (codeLen s.cfg m (f i)) m, ?_, ?_⟩
  · constructor
    case coded =>
      rw [hlen, map_bit_setBits, h.coded, codedBits_succ, codeBit_congr _ _ h.code, codeLen_congr _ _ h.code]
      rfl
    case beyond =>
      intro k hk
      rw [bit_setBits, if_neg (by omega)]
      exact h.beyond k (by omega)
    case symbuf => rw [setBits_symbuf, h.symbuf]
    case code => rw [setBits_code, h.code]
  · rw [hlen] at hroom ⊢
    exact encodeLoop_found (h.lookup_eq_some hu) hroom

/-- The loop reaches every index up to which the symbols have entries and their codes find room. -/
theorem encodeLoop_reaches (hu : ∀ k < i, usedEntry s (symbol s.cfg s.mem k) (f k))
    (hroom : codedLength s f i ≤ s.cfg.bitN) :
    ∃ m, Encoded s f i m ∧ ∀ rem, encodeLoop s.cfg s.ncode.toNat (i + rem) 0 0 s.mem =
      encodeLoop s.cfg s.ncode.toNat rem i (codedLength s f i) m := by
  induction i with
  | zero => exact ⟨s.mem, ⟨rfl, fun _ _ => rfl, rfl, rfl⟩, fun rem => by rw [Nat.zero_add]; rfl⟩
  | succ i ih =>
    have hlen := codedLength_succ s f i
    obtain ⟨m, hm, hloop⟩ := ih (fun k hk => hu k (by omega)) (by omega)
    obtain ⟨m', hm', hstep⟩ := hm.step (hu i (Nat.lt_succ_self i)) hroom
    exact ⟨m', hm', fun rem => by rw [Nat.add_assoc, Nat.add_comm 1, hloop, hstep]⟩

end Loop

/-! ## The command -/

/-- ENCODE's run on a sequence and a table that fit is its loop (R156). -/
theorem encodeRun_of_le {s : State} (hs : s.slen.toNat ≤ s.cfg.seqN) (hn : s.ncode.toNat ≤ s.cfg.nsym) : encodeRun s =
    (encodeLoop s.cfg s.ncode.toNat s.slen.toNat 0 0 s.mem).map
      fun r => { s with mem := r.2, blen := BitVec.ofNat 32 r.1 } := by
  unfold encodeRun
  rw [if_neg (not_lt.mpr hs), if_neg (not_lt.mpr hn)]
  cases encodeLoop s.cfg s.ncode.toNat s.slen.toNat 0 0 s.mem <;> rfl

/-- Where every symbol has an entry and the codes fit, ENCODE succeeds with all of them in BITBUF. -/
theorem exec_encode_encoded {s : State} {f : Nat → Nat} (hs : s.slen.toNat ≤ s.cfg.seqN) (hn : s.ncode.toNat ≤ s.cfg.nsym)
    (hu : ∀ i < s.slen.toNat, usedEntry s (symbol s.cfg s.mem i) (f i))
    (hroom : codedLength s f s.slen.toNat ≤ s.cfg.bitN) :
    ∃ m, Encoded s f s.slen.toNat m ∧ exec .encode s =
      .next (succeed { s with mem := m, blen := BitVec.ofNat 32 (codedLength s f s.slen.toNat) }) := by
  obtain ⟨m, hm, hloop⟩ := encodeLoop_reaches hu hroom
  refine ⟨m, hm, ?_⟩
  have hok : encodeLoop s.cfg s.ncode.toNat s.slen.toNat 0 0 s.mem = .ok (codedLength s f s.slen.toNat, m) := hloop 0
  rw [exec_eq_finish, runOf, encodeRun_of_le hs hn, hok]
  rfl

/-- Settles O38: each turn of the loop appends one code, and the whole of them is within the range of BLEN. -/
theorem encodeConcatenatesTheCodes : Obligations.EncodeConcatenatesTheCodes := by
  intro s f hs hn hu hroom
  obtain ⟨m, hm, hx⟩ := exec_encode_encoded hs hn hu hroom
  have hbitN : s.cfg.bitN ≤ 1048576 := by have := config_bounds s.cfg; omega
  have hblen := toNat_ofNat_of_le hroom hbitN
  refine ⟨_, hx, ⟨rfl, rfl, rfl, rfl⟩, hblen, ?_, fun k hk => hm.beyond k ?_, hm.symbuf, hm.code⟩
  · rw [bits, succeed_blen, hblen]
    exact hm.coded
  · rwa [succeed_blen, hblen] at hk

/-- What the loop raises at the first index it does not get past is what ENCODE fails with (R159). -/
theorem encode_failsWith_of_loop {s : State} {f : Nat → Nat} {i : Nat} {e : Err} (hs : s.slen.toNat ≤ s.cfg.seqN)
    (hn : s.ncode.toNat ≤ s.cfg.nsym) (hi : i < s.slen.toNat) (hu : ∀ k < i, usedEntry s (symbol s.cfg s.mem k) (f k))
    (hroom : codedLength s f i ≤ s.cfg.bitN) (hraise : ∀ m rem, Encoded s f i m →
      encodeLoop s.cfg s.ncode.toNat (rem + 1) i (codedLength s f i) m =
        .error { err := e, info := symbol s.cfg m i, pos := BitVec.ofNat 32 i }) :
    failsWith .encode s e (symbol s.cfg s.mem i) (BitVec.ofNat 32 i) := by
  obtain ⟨m, hm, hloop⟩ := encodeLoop_reaches hu hroom
  obtain ⟨rem, hrem⟩ : ∃ rem, s.slen.toNat = i + (rem + 1) := ⟨s.slen.toNat - (i + 1), by omega⟩
  rw [← hm.symbol_eq]
  refine failsWith_of_runOf_error (i := .encode) (f := ⟨e, _, _⟩) ?_
  rw [runOf, encodeRun_of_le hs hn, hrem, hloop, hraise m rem hm]
  rfl

/-- Settles O39: the loop reaches index i, where the lookup finds nothing or the code finds no room. -/
theorem encodeReportsTheFirstFailure : Obligations.EncodeReportsTheFirstFailure := by
  intro s f i hs hn hi hu hroom
  refine ⟨fun hno => ?_, fun hui hfull => ?_⟩
  · exact encode_failsWith_of_loop hs hn hi hu hroom fun _ rem hm => encodeLoop_unknown (hm.lookup_eq_none hno) rem
  · refine encode_failsWith_of_loop hs hn hi hu hroom fun m rem hm => encodeLoop_full (hm.lookup_eq_some hui) ?_ rem
    rwa [codeLen_congr _ _ hm.code, ← codedLength_succ]

end Sys2Proof.Machine
end

section
/-! PROOFS. DECODE's loop runs down the tree along the bits (R171), from the state after any number of emitted symbols. -/

namespace Sys2Proof.Machine
open Sys2Proof.Safety

/-! ## Paths through INTERNAL nodes (R171, R172) -/

theorem follow_append (s : State) (h : Handle) (p q : List Bool) : follow s h (p ++ q) = follow s (follow s h p) q := by
  induction p generalizing h with
  | nil => rfl
  | cons b p ih => exact ih _

/-- The path `p` from `h` goes through well-formed INTERNAL nodes, and selects children below NNODES. -/
def wellPath (s : State) (h : Handle) (p : List Bool) : Prop :=
  ∀ k < p.length, goodInternal s (follow s h (p.take k)) ∧ (follow s h (p.take (k + 1))).toNat < s.nnodes.toNat

/-- Node `h` is a LEAF of `x` without children. -/
def goodLeaf (s : State) (h : Handle) (x : Word) : Prop :=
  (node s.cfg s.mem h.toNat).kind = .leaf ∧ (node s.cfg s.mem h.toNat).sym = x ∧
  (node s.cfg s.mem h.toNat).left = nilHandle ∧ (node s.cfg s.mem h.toNat).right = nilHandle

section Path
variable {s : State} {h : Handle} {b : Bool} {p q : List Bool} {x : Word} {t : HTree}

theorem wellPath_nil : wellPath s h [] := nofun

theorem wellPath_cons : wellPath s h (b :: p) ↔
    goodInternal s h ∧ (follow s h [b]).toNat < s.nnodes.toNat ∧ wellPath s (follow s h [b]) p := by
  rw [wellPath, List.length_cons, Nat.forall_lt_succ_left, and_assoc]
  rfl

theorem wellPath_append : wellPath s h (p ++ q) ↔ wellPath s h p ∧ wellPath s (follow s h p) q := by
  induction p generalizing h with
  | nil => exact ⟨fun hq => ⟨wellPath_nil, hq⟩, fun hq => hq.2⟩
  | cons b p ih => rw [List.cons_append, wellPath_cons, wellPath_cons, ih, and_assoc, and_assoc]; rfl

theorem emits_iff : emits s x q ↔ q ≠ [] ∧ wellPath s s.root q ∧ goodLeaf s (follow s s.root q) x := Iff.rfl

theorem goodLeaf.toNat_lt (hl : goodLeaf s h x) : x.toNat < 2 ^ s.cfg.symW := by
  obtain ⟨-, rfl, -, -⟩ := hl
  exact node_sym_lt _ _ _

theorem goodInternal_of_holdsTree (hnn : s.nnodes.toNat ≤ nnodeMax s.cfg) {l r : HTree}
    (ht : holdsTree s h (.internal l r) = true) : goodInternal s h := by
  obtain ⟨-, hkind, hl, hr⟩ := holdsTree_internal_iff.mp ht
  exact ⟨hkind, ne_nilHandle_of_lt hnn _ (lt_of_holdsTree hl), ne_nilHandle_of_lt hnn _ (lt_of_holdsTree hr)⟩

/-- Every path listed for a tree in NODE leads to a well-formed LEAF of its symbol. -/
theorem wellPath_of_mem_paths (hnn : s.nnodes.toNat ≤ nnodeMax s.cfg) {path : List Bool} (ht : holdsTree s h t = true)
    {e : Word × List Bool} (he : e ∈ t.paths path) :
    ∃ q, e.2 = path ++ q ∧ wellPath s h q ∧ goodLeaf s (follow s h q) e.1 := by
  induction t generalizing h path with
  | leaf sym =>
    obtain rfl : e = (sym, path) := List.mem_singleton.mp he
    exact ⟨[], (List.append_nil path).symm, wellPath_nil, (holdsTree_leaf_iff.mp ht).2⟩
  | internal l r ihl ihr =>
    have hgood := goodInternal_of_holdsTree hnn ht
    obtain ⟨-, -, hl, hr⟩ := holdsTree_internal_iff.mp ht
    rcases List.mem_append.mp he with he | he
    · obtain ⟨q, hq, hpath, hleaf⟩ := ihl hl he
      exact ⟨false :: q, hq.trans (List.append_cons ..).symm, wellPath_cons.mpr ⟨hgood, lt_of_holdsTree hl, hpath⟩, hleaf⟩
    · obtain ⟨q, hq, hpath, hleaf⟩ := ihr hr he
      exact ⟨true :: q, hq.trans (List.append_cons ..).symm, wellPath_cons.mpr ⟨hgood, lt_of_holdsTree hr, hpath⟩, hleaf⟩

/-- The codes of an INTERNAL root are emitted by the descent. -/
theorem emits_of_mem_codes (hnn : s.nnodes.toNat ≤ nnodeMax s.cfg) {l r : HTree}
    (ht : holdsTree s s.root (.internal l r) = true) {e : Word × List Bool} (he : e ∈ (HTree.internal l r).codes) :
    emits s e.1 e.2 := by
  obtain ⟨q, hq, hpath, hleaf⟩ := wellPath_of_mem_paths hnn ht he
  rw [List.nil_append] at hq
  rw [emits_iff, hq]
  refine ⟨?_, hpath, hleaf⟩
  rintro rfl
  exact nomatch hleaf.1.symm.trans (holdsTree_internal_iff.mp ht).2.1

/-- A handle names one tree at most. -/
theorem holdsTree_unique {t' : HTree} (ht : holdsTree s h t = true) (ht' : holdsTree s h t' = true) : t = t' := by
  induction t generalizing h t' with
  | leaf sym =>
    obtain ⟨-, hkind, rfl, -⟩ := holdsTree_leaf_iff.mp ht
    cases t' with
    | leaf sym' => rw [(holdsTree_leaf_iff.mp ht').2.2.1]
    | internal l' r' => exact nomatch hkind.symm.trans (holdsTree_internal_iff.mp ht').2.1
  | internal l r ihl ihr =>
    obtain ⟨-, hkind, hl, hr⟩ := holdsTree_internal_iff.mp ht
    cases t' with
    | leaf sym' => exact nomatch hkind.symm.trans (holdsTree_leaf_iff.mp ht').2.1
    | internal l' r' =>
      obtain ⟨-, -, hl', hr'⟩ := holdsTree_internal_iff.mp ht'
      rw [ihl hl hl', ihr hr hr']

/-- A path through INTERNAL nodes of a tree comes to a subtree, less deep by its length. -/
theorem holdsTree_follow (ht : holdsTree s h t = true) (hp : wellPath s h p) :
    ∃ t', holdsTree s (follow s h p) t' = true ∧ t'.depth + p.length ≤ t.depth := by
  induction p generalizing h t with
  | nil => exact ⟨t, ht, le_refl _⟩
  | cons b p ih =>
    obtain ⟨⟨hkind, -⟩, -, hp⟩ := wellPath_cons.mp hp
    cases t with
    | leaf sym => exact nomatch hkind.symm.trans (holdsTree_leaf_iff.mp ht).2.1
    | internal l r =>
      obtain ⟨-, -, hl, hr⟩ := holdsTree_internal_iff.mp ht
      rw [HTree.depth, List.length_cons]
      cases b with
      | false =>
        obtain ⟨t', ht', hdepth⟩ := ih hl hp
        exact ⟨t', ht', by omega⟩
      | true =>
        obtain ⟨t', ht', hdepth⟩ := ih hr hp
        exact ⟨t', ht', by omega⟩

/-- No descent in a tree comes back to its root. -/
theorem follow_ne_of_holdsTree (ht : holdsTree s h t = true) (hp : wellPath s h p) (hne : p ≠ []) : follow s h p ≠ h := by
  intro heq
  obtain ⟨t', ht', hdepth⟩ := holdsTree_follow ht hp
  rw [heq] at ht'
  obtain rfl := holdsTree_unique ht ht'
  have := List.length_pos_of_ne_nil hne
  omega

end Path

/-! ## One bit (R171, R173) -/

/-- DECODE's loop after the symbols `xs`: they stand in SYMBUF, and nothing else has changed. -/
structure Decoded (s : State) (xs : List Word) (m : Memory) : Prop where
  symbols : (List.range xs.length).map (symbol s.cfg m) = xs
  beyond : ∀ k, xs.length ≤ k → symbol s.cfg m k = symbol s.cfg s.mem k
  bitbuf : m.bitbuf = s.mem.bitbuf
  node : m.node = s.mem.node

theorem emit_of_lt {c : Config} {out : Nat} (h : out < c.seqN) (x : Word) (i : Nat) (m : Memory) :
    emit c x i out m = .ok (out + 1, setSymbol c out x m) := if_neg h.ne

theorem emit_full (c : Config) (x : Word) (i : Nat) (m : Memory) :
    emit c x i c.seqN m = .error { err := .capacity, info := x, pos := BitVec.ofNat 32 i } := if_pos rfl

theorem Decoded.emit {s : State} {xs : List Word} {m : Memory} (h : Decoded s xs m) {x : Word}
    (hx : x.toNat < 2 ^ s.cfg.symW) : Decoded s (xs ++ [x]) (setSymbol s.cfg xs.length x m) where
  symbols := by
    have hold : ∀ k ∈ List.range xs.length, symbol s.cfg (setSymbol s.cfg xs.length x m) k = symbol s.cfg m k :=
      fun k hk => by rw [symbol_setSymbol, if_neg (List.mem_range.mp hk).ne]
    rw [List.length_append, List.length_singleton, List.range_succ, List.map_append, List.map_congr_left hold, h.symbols,
      List.map_singleton, symbol_setSymbol, if_pos rfl, keepLow_of_lt hx]
  beyond k hk := by
    rw [List.length_append, List.length_singleton] at hk
    rw [symbol_setSymbol, if_neg (by omega), h.beyond k (by omega)]
  bitbuf := h.bitbuf
  node := h.node

/-- What the loop of R171 does at the child `t` that bit `i` selected, the tree being that of `s`. -/
def arrive (s : State) (i : Nat) (t : Handle) (out : Nat) (m : Memory) : Except Failure (Handle × Nat × Memory) :=
  if s.nnodes.toNat ≤ t.toNat then .error (invalidTree t i)
  else
    match (node s.cfg s.mem t.toNat).kind with
    | .leaf =>
      if (node s.cfg s.mem t.toNat).left ≠ nilHandle ∨ (node s.cfg s.mem t.toNat).right ≠ nilHandle then
        .error (invalidTree t i)
      else (emit s.cfg (node s.cfg s.mem t.toNat).sym i out m).map (Prod.mk s.root)
    | .internal => .ok (t, out, m)

section Arrive
variable {s : State} {i out : Nat} {t : Handle} {m : Memory} {x : Word}

theorem arrive_bad (h : s.nnodes.toNat ≤ t.toNat ∨ leafWithChild s t) : arrive s i t out m = .error (invalidTree t i) := by
  by_cases hrange : s.nnodes.toNat ≤ t.toNat
  · exact if_pos hrange
  · rw [arrive, if_neg hrange]
    obtain ⟨hkind, hchild⟩ := h.resolve_left hrange
    simp only [hkind]
    exact if_pos hchild

theorem arrive_internal (hlt : t.toNat < s.nnodes.toNat) (hkind : (node s.cfg s.mem t.toNat).kind = .internal) :
    arrive s i t out m = .ok (t, out, m) := by
  rw [arrive, if_neg (not_le.mpr hlt)]
  simp only [hkind]

theorem arrive_goodLeaf (hlt : t.toNat < s.nnodes.toNat) (hleaf : goodLeaf s t x) :
    arrive s i t out m = (emit s.cfg x i out m).map (Prod.mk s.root) := by
  obtain ⟨hkind, rfl, hl, hr⟩ := hleaf
  rw [arrive, if_neg (not_le.mpr hlt)]
  simp only [hkind]
  exact if_neg (not_or.mpr ⟨not_not.mpr hl, not_not.mpr hr⟩)

end Arrive

section Turn
variable {s : State} {xs : List Word} {m : Memory} {i out : Nat} {cur : Handle} {b : Bool} {x : Word}

/-! What a turn of the loop answers, by the node at the cursor. -/

theorem Decoded.decodeBit_missingChild (h : Decoded s xs m) (hcur : internalMissingChild s cur) :
    decodeBit s.cfg s.nnodes.toNat s.root i cur out m = .error (invalidTree cur i) := by
  obtain ⟨hkind, hmissing⟩ := hcur
  simp only [decodeBit, node_congr s.cfg _ h.node, hkind]
  exact if_pos hmissing

theorem Decoded.decodeBit_goodInternal (h : Decoded s xs m) (hb : bit s.mem i = b) (hcur : goodInternal s cur) :
    decodeBit s.cfg s.nnodes.toNat s.root i cur out m = arrive s i (follow s cur [b]) out m := by
  obtain ⟨hkind, hl, hr⟩ := hcur
  have hchild : (if b = true then (Machine.node s.cfg s.mem cur.toNat).right else (Machine.node s.cfg s.mem cur.toNat).left) =
    follow s cur [b] := rfl
  simp only [decodeBit, decodeAtInternal, node_congr s.cfg _ h.node, bit_congr i h.bitbuf, hkind, hb, hchild]
  rw [if_neg (not_or.mpr ⟨hl, hr⟩), arrive]
  cases Machine.emit s.cfg (Machine.node s.cfg s.mem (follow s cur [b]).toNat).sym i out m <;> rfl

theorem Decoded.decodeBit_goodLeaf (h : Decoded s xs m) (hb : bit s.mem i = b) (hcur : goodLeaf s cur x) :
    decodeBit s.cfg s.nnodes.toNat s.root i cur out m =
      if b = true then .error (incompleteCode cur i) else (Machine.emit s.cfg x i out m).map (Prod.mk cur) := by
  obtain ⟨hkind, rfl, hl, hr⟩ := hcur
  simp only [decodeBit, decodeAtLeaf, node_congr s.cfg _ h.node, bit_congr i h.bitbuf, hkind, hb]
  rw [if_neg (not_or.mpr ⟨not_not.mpr hl, not_not.mpr hr⟩)]
  cases b with
  | true => rfl
  | false =>
    simp only [Bool.false_eq_true, if_false]
    cases Machine.emit s.cfg (Machine.node s.cfg s.mem cur.toNat).sym i out m <;> rfl

theorem Decoded.decodeBit_leafWithChild (h : Decoded s xs m) (hcur : leafWithChild s cur) :
    decodeBit s.cfg s.nnodes.toNat s.root i cur out m = .error (invalidTree cur i) := by
  obtain ⟨hkind, hchild⟩ := hcur
  simp only [decodeBit, decodeAtLeaf, node_congr s.cfg _ h.node, hkind, if_pos hchild]

end Turn

/-! ## Along the bits -/

/-- The prechecks of DECODE pass: the lengths are within their capacities, and ROOT names a node (R171, R172). -/
structure Decodable (s : State) : Prop where
  blen : s.blen.toNat ≤ s.cfg.bitN
  nnodes : s.nnodes.toNat ≤ nnodeMax s.cfg
  root : s.root.toNat < s.nnodes.toNat

/-- DECODE's run past its prechecks: the loop, then the end test of R174. -/
theorem Decodable.decodeRun_eq {s : State} (h : Decodable s) : decodeRun s =
    (decodeLoop s.cfg s.nnodes.toNat s.root s.blen.toNat 0 s.root 0 s.mem).bind fun r =>
      if r.1 ≠ s.root then .error (incompleteCode r.1 s.blen.toNat)
      else .ok { s with mem := r.2.2, slen := BitVec.ofNat 32 r.2.1 } := by
  rw [decodeRun, if_neg (not_lt.mpr h.blen), if_neg (not_lt.mpr h.nnodes), if_neg (not_le.mpr h.root)]
  cases decodeLoop s.cfg s.nnodes.toNat s.root s.blen.toNat 0 s.root 0 s.mem <;> rfl

/-- The loop gets past the bits `p`, with the cursor then at `cur` and the symbols `xs` emitted. -/
def DecodesTo (s : State) (p : List Bool) (cur : Handle) (xs : List Word) : Prop :=
  ∃ m, Decoded s xs m ∧ ∀ rem, decodeLoop s.cfg s.nnodes.toNat s.root (p.length + rem) 0 s.root 0 s.mem =
    decodeLoop s.cfg s.nnodes.toNat s.root rem p.length cur xs.length m

theorem decodesTo_nil (s : State) : DecodesTo s [] s.root [] :=
  ⟨s.mem, ⟨rfl, fun _ _ => rfl, rfl, rfl⟩, fun rem => by rw [List.length_nil, Nat.zero_add]; rfl⟩

theorem lt_of_prefix_bits {s : State} {p : List Bool} {b : Bool} (h : p ++ [b] <+: bits s) : p.length < s.blen.toNat := by
  simpa [bits] using h.length_le

theorem bit_of_prefix_bits {s : State} {p : List Bool} {b : Bool} (h : p ++ [b] <+: bits s) : bit s.mem p.length = b := by
  have := h.getElem (i := p.length) (by simp)
  simpa [bits] using this.symm

section Run
variable {s : State} {p q : List Bool} {b : Bool} {cur : Handle} {xs : List Word}

/-- One turn that answers. -/
theorem DecodesTo.step (h : DecodesTo s p cur xs) {cur' : Handle} {xs' : List Word}
    (hturn : ∀ m, Decoded s xs m → ∃ m', Decoded s xs' m' ∧
      decodeBit s.cfg s.nnodes.toNat s.root p.length cur xs.length m = .ok (cur', xs'.length, m')) :
    DecodesTo s (p ++ [b]) cur' xs' := by
  obtain ⟨m, hm, hloop⟩ := h
  obtain ⟨m', hm', hbit⟩ := hturn m hm
  refine ⟨m', hm', fun rem => ?_⟩
  rw [List.length_append, List.length_singleton, Nat.add_assoc, Nat.add_comm 1, hloop, decodeLoop, hbit]

/-- One turn that raises. -/
theorem DecodesTo.failsWith (h : DecodesTo s p cur xs) (hs : Decodable s) (hlt : p.length < s.blen.toNat) {f : Failure}
    (hturn : ∀ m, Decoded s xs m → decodeBit s.cfg s.nnodes.toNat s.root p.length cur xs.length m = .error f) :
    failsWith .decode s f.err f.info f.pos := by
  obtain ⟨m, hm, hloop⟩ := h
  obtain ⟨rem, hrem⟩ : ∃ rem, s.blen.toNat = p.length + (rem + 1) := ⟨s.blen.toNat - (p.length + 1), by omega⟩
  refine failsWith_of_runOf_error ?_
  rw [runOf, hs.decodeRun_eq, hrem, hloop, decodeLoop, hturn m hm]
  rfl

/-- The end of the bits: the loop's results meet the end test. -/
theorem DecodesTo.decodeRun_eq (h : DecodesTo s (bits s) cur xs) (hs : Decodable s) :
    ∃ m, Decoded s xs m ∧ decodeRun s =
      if cur ≠ s.root then .error (incompleteCode cur s.blen.toNat)
      else .ok { s with mem := m, slen := BitVec.ofNat 32 xs.length } := by
  obtain ⟨m, hm, hloop⟩ := h
  refine ⟨m, hm, ?_⟩
  have hlen : s.blen.toNat = (bits s).length + 0 := by simp [bits]
  rw [hs.decodeRun_eq]
  nth_rw 1 [hlen]
  rw [hloop]
  rfl

/-- The cursor goes down a path through INTERNAL nodes. -/
theorem DecodesTo.descend (h : DecodesTo s p cur xs) (hbits : p ++ q <+: bits s) (hq : wellPath s cur q)
    (hend : (node s.cfg s.mem (follow s cur q).toNat).kind = .internal) : DecodesTo s (p ++ q) (follow s cur q) xs := by
  induction q generalizing p cur with
  | nil => rwa [List.append_nil]
  | cons b q ih =>
    rw [List.append_cons] at hbits ⊢
    obtain ⟨hgood, hlt, hq⟩ := wellPath_cons.mp hq
    have hbit := bit_of_prefix_bits ((List.prefix_append _ _).trans hbits)
    have hkind : (node s.cfg s.mem (follow s cur [b]).toNat).kind = .internal := by
      cases q with
      | nil => exact hend
      | cons b' q => exact (wellPath_cons.mp hq).1.1
    have hchild : DecodesTo s (p ++ [b]) (follow s cur [b]) xs := h.step fun m hm => ⟨m, hm, by
      rw [hm.decodeBit_goodInternal hbit hgood, arrive_internal hlt hkind]⟩
    exact ih hchild hbits hq hend

end Run

/-- The bits of `e` complete its symbol from ROOT: a descent to a LEAF, or the bit 0 at a single LEAF (R171, R173). -/
def completes (s : State) (e : Word × List Bool) : Prop := emits s e.1 e.2 ∨ goodLeaf s s.root e.1 ∧ e.2 = [false]

section Run
variable {s : State} {p : List Bool} {xs : List Word} {e : Word × List Bool}

theorem completes_of_mem_codes (hnn : s.nnodes.toNat ≤ nnodeMax s.cfg) {t : HTree} (ht : holdsTree s s.root t = true)
    (he : e ∈ t.codes) : completes s e := by
  cases t with
  | leaf sym =>
    obtain rfl : e = (sym, [false]) := List.mem_singleton.mp he
    exact .inr ⟨(holdsTree_leaf_iff.mp ht).2, rfl⟩
  | internal l r => exact .inl (emits_of_mem_codes hnn ht he)

theorem completes.toNat_lt (he : completes s e) : e.1.toNat < 2 ^ s.cfg.symW := by
  rcases he with ⟨-, -, hleaf⟩ | ⟨hleaf, -⟩ <;> exact goodLeaf.toNat_lt hleaf

/-- Before the last bit of a code nothing is emitted, and the last bit emits its symbol and brings the cursor back to ROOT. -/
theorem DecodesTo.lastBit (h : DecodesTo s p s.root xs) (he : completes s e) (hbits : p ++ e.2 <+: bits s) :
    ∃ q b cur, e.2 = q ++ [b] ∧ DecodesTo s (p ++ q) cur xs ∧ ∀ m, Decoded s xs m →
      decodeBit s.cfg s.nnodes.toNat s.root (p ++ q).length cur xs.length m =
        (emit s.cfg e.1 (p ++ q).length xs.length m).map (Prod.mk s.root) := by
  rcases he with he | ⟨hleaf, he⟩
  · obtain ⟨hne, hpath, hleaf⟩ := emits_iff.mp he
    obtain ⟨q, b, hq⟩ := (List.eq_nil_or_concat' e.2).resolve_left hne
    rw [hq] at hbits hpath hleaf
    obtain ⟨hq', hlast⟩ := wellPath_append.mp hpath
    obtain ⟨hgood, hlt, -⟩ := wellPath_cons.mp hlast
    rw [follow_append] at hleaf
    rw [← List.append_assoc] at hbits
    refine ⟨q, b, _, hq, h.descend ((List.prefix_append _ _).trans hbits) hq' hgood.1, fun m hm => ?_⟩
    rw [hm.decodeBit_goodInternal (bit_of_prefix_bits hbits) hgood, arrive_goodLeaf hlt hleaf]
  · rw [he] at hbits
    refine ⟨[], false, s.root, he, by rwa [List.append_nil], fun m hm => ?_⟩
    rw [List.append_nil, hm.decodeBit_goodLeaf (bit_of_prefix_bits hbits) hleaf]
    rfl

/-- One more code, where SYMBUF has room (R175). -/
theorem DecodesTo.code (h : DecodesTo s p s.root xs) (he : completes s e) (hbits : p ++ e.2 <+: bits s)
    (hroom : xs.length < s.cfg.seqN) : DecodesTo s (p ++ e.2) s.root (xs ++ [e.1]) := by
  obtain ⟨q, b, cur, hq, hdesc, hturn⟩ := h.lastBit he hbits
  rw [hq, ← List.append_assoc]
  refine hdesc.step fun m hm => ⟨_, hm.emit he.toNat_lt, ?_⟩
  rw [hturn m hm, emit_of_lt hroom, List.length_append]
  rfl

/-- Any number of codes, where SYMBUF has room. -/
theorem DecodesTo.codes (h : DecodesTo s p s.root xs) {es : List (Word × List Bool)} (hes : ∀ e ∈ es, completes s e)
    (hbits : p ++ es.flatMap Prod.snd <+: bits s) (hroom : xs.length + es.length ≤ s.cfg.seqN) :
    DecodesTo s (p ++ es.flatMap Prod.snd) s.root (xs ++ es.map Prod.fst) := by
  induction es generalizing p xs with
  | nil => simpa using h
  | cons e es ih =>
    obtain ⟨he, hes⟩ := List.forall_mem_cons.mp hes
    rw [List.length_cons] at hroom
    rw [List.flatMap_cons, ← List.append_assoc] at hbits ⊢
    rw [List.map_cons, List.append_cons]
    refine ih (h.code he ((List.prefix_append _ _).trans hbits) (by omega)) hes hbits ?_
    rw [List.length_append, List.length_singleton]
    omega

/-- The codes at the beginning of the bits. -/
theorem decodesTo_codes {es : List (Word × List Bool)} (hes : ∀ e ∈ es, completes s e)
    (hbits : es.flatMap Prod.snd <+: bits s) (hroom : es.length ≤ s.cfg.seqN) :
    DecodesTo s (es.flatMap Prod.snd) s.root (es.map Prod.fst) :=
  (decodesTo_nil s).codes hes hbits ((Nat.zero_add _).trans_le hroom)

end Run

end Sys2Proof.Machine
end

section
/-! PROOFS. DECODE recovers the symbols (O41), and where it fails (O42 to O45). -/

namespace Sys2Proof.Machine
open Sys2Proof.Safety

theorem decodable_of_holdsTree {s : State} {t : HTree} (hb : s.blen.toNat ≤ s.cfg.bitN)
    (hnn : s.nnodes.toNat ≤ nnodeMax s.cfg) (ht : holdsTree s s.root t = true) : Decodable s :=
  ⟨hb, hnn, lt_of_holdsTree ht⟩

/-- Settles O41: the loop gets past code after code, and the cursor is at ROOT at the end. -/
theorem decodeRecoversTheSymbols : Obligations.DecodeRecoversTheSymbols := by
  intro s tree picks hb hnn ht hmem hbits hroom
  have hcodes := decodesTo_codes (fun e he => completes_of_mem_codes hnn ht (hmem e he)) (hbits ▸ List.prefix_rfl) hroom
  rw [← hbits] at hcodes
  obtain ⟨m, hm, hrun⟩ := hcodes.decodeRun_eq (decodable_of_holdsTree hb hnn ht)
  rw [if_neg (not_not.mpr rfl)] at hrun
  have hx := exec_eq_finish .decode s
  rw [runOf, hrun, finish_ok] at hx
  have hseqN : s.cfg.seqN ≤ 1048576 := by have := config_bounds s.cfg; omega
  have hslen : (BitVec.ofNat 32 (picks.map Prod.fst).length).toNat = (picks.map Prod.fst).length := by
    rw [List.length_map]
    exact toNat_ofNat_of_le hroom hseqN
  refine ⟨_, hx, ⟨rfl, rfl, rfl, rfl⟩, ?_, fun i hi => hm.beyond i ?_⟩
  · rw [symbols, succeed_slen, hslen]
    exact hm.symbols
  · rwa [succeed_slen, hslen] at hi

/-- The codes of a single LEAF have no proper part, so a code that has one is emitted by a descent. -/
theorem emits_of_proper_prefix {s : State} {e : Word × List Bool} {p : List Bool} (he : completes s e) (hne : p ≠ [])
    (hp : p <+: e.2) (hproper : p ≠ e.2) : emits s e.1 e.2 := by
  refine he.resolve_right fun ⟨_, hcode⟩ => ?_
  rw [hcode] at hp hproper
  have hlen : p.length ≤ 1 := hp.length_le
  exact hproper (hp.eq_of_length (le_antisymm hlen (List.length_pos_of_ne_nil hne)))

/-- Settles O42: the cursor has left ROOT, and in a tree no descent comes back to it. -/
theorem decodeOfATruncatedCodeFails : Obligations.DecodeOfATruncatedCodeFails := by
  intro s tree picks p hb hnn ht hmem hroom hne ⟨e, he, hp, hproper⟩ hbits
  have hcodes := decodesTo_codes (fun e he => completes_of_mem_codes hnn ht (hmem e he))
    (hbits ▸ List.prefix_append _ _) hroom
  obtain ⟨-, hpath, -⟩ := emits_iff.mp (emits_of_proper_prefix (completes_of_mem_codes hnn ht he) hne hp hproper)
  obtain ⟨q, hq⟩ := hp
  rw [← hq, wellPath_append] at hpath
  obtain ⟨hpath, hrest⟩ := hpath
  have hend : goodInternal s (follow s s.root p) := by
    cases q with
    | nil => exact absurd ((List.append_nil p).symm.trans hq) hproper
    | cons b q => exact (wellPath_cons.mp hrest).1
  have hlast := hcodes.descend (hbits ▸ List.prefix_rfl) hpath hend.1
  rw [← hbits] at hlast
  obtain ⟨m, -, hrun⟩ := hlast.decodeRun_eq (decodable_of_holdsTree hb hnn ht)
  rw [if_pos (follow_ne_of_holdsTree ht hpath hne)] at hrun
  have hfails := failsWith_of_runOf_error (i := .decode) hrun
  rwa [incompleteCode, BitVec.ofNat_toNat, BitVec.setWidth_eq] at hfails

/-- Bits that are all 0 are the one code of a single LEAF over and over. -/
theorem flatMap_replicate_zero (x : Word) (n : Nat) :
    (List.replicate n (x, [false])).flatMap Prod.snd = List.replicate n false := by
  rw [List.flatMap_replicate]
  simp

theorem take_bits_eq_replicate {s : State} {n : Nat} (hn : n ≤ s.blen.toNat) (h : ∀ k < n, bit s.mem k = false) :
    (bits s).take n = List.replicate n false := by
  rw [bits, ← List.map_take, List.take_range, Nat.min_eq_left hn, List.eq_replicate_iff]
  simpa using h

/-- Settles O43: bits 0 are codes of the single LEAF, and a bit 1 at it raises. -/
theorem decodeAgainstASingleLeaf : Obligations.DecodeAgainstASingleLeaf := by
  intro s x hb hnn ht
  have hmem (n : Nat) : ∀ e ∈ List.replicate n (x, [false]), e ∈ (HTree.leaf x).codes := fun e he =>
    List.mem_singleton.mpr (List.eq_of_mem_replicate he)
  refine ⟨rfl, fun hzero hroom => ?_, fun i hi hroom hzero hone => ?_⟩
  · have hbits := take_bits_eq_replicate (le_refl _) hzero
    rw [List.take_of_length_le (by simp [bits]), ← flatMap_replicate_zero x] at hbits
    obtain ⟨t, hx, hok, hsyms, -⟩ := decodeRecoversTheSymbols s (.leaf x) _ hb hnn ht (hmem _) hbits (by simpa using hroom)
    exact ⟨t, hx, hok, by rw [hsyms, List.map_replicate]⟩
  · have hbits := take_bits_eq_replicate hi.le hzero
    have hcodes := decodesTo_codes (s := s) (es := List.replicate i (x, [false]))
      (fun e he => completes_of_mem_codes hnn ht (hmem i e he))
      (by rw [flatMap_replicate_zero, ← hbits]; exact List.take_prefix _ _) (by simpa using hroom)
    have hlen : ((List.replicate i (x, [false])).flatMap Prod.snd).length = i := by
      rw [flatMap_replicate_zero, List.length_replicate]
    refine hcodes.failsWith (f := incompleteCode s.root i) (decodable_of_holdsTree hb hnn ht) (by rwa [hlen]) fun m hm => ?_
    rw [hlen, hm.decodeBit_goodLeaf hone (holdsTree_leaf_iff.mp ht).2, if_pos rfl]

/-- Settles O44: the loop comes to the malformed node behind the codes emitted, and the turn that touches it raises. -/
theorem decodeFailsAtTheMalformedNodeItTouches : Obligations.DecodeFailsAtTheMalformedNodeItTouches := by
  refine ⟨fun s picks p b rest hb hnn hroot hroom hemits hbits hp => ?_, fun s hb hnn hroot hleaf hpos => ?_⟩
  · have hs : Decodable s := ⟨hb, hnn, hroot⟩
    obtain ⟨hpath, hkind⟩ := hp
    have hbefore : picks.flatMap Prod.snd ++ p ++ [b] <+: bits s := ⟨rest, by rw [hbits, List.append_assoc]; rfl⟩
    have hcodes := decodesTo_codes (fun e he => .inl (hemits e he))
      ((List.prefix_append _ _).trans ((List.prefix_append _ _).trans hbefore)) hroom
    have hcur := hcodes.descend ((List.prefix_append _ _).trans hbefore) hpath
      (by simpa using hkind p.length (le_refl _))
    rw [← List.length_append, follow_append]
    refine ⟨fun hmissing => ?_, fun hgood hbad => ?_⟩
    · exact hcur.failsWith (f := invalidTree _ _) hs (lt_of_prefix_bits hbefore) fun m hm => hm.decodeBit_missingChild hmissing
    · refine hcur.failsWith (f := invalidTree _ _) hs (lt_of_prefix_bits hbefore) fun m hm => ?_
      rw [hm.decodeBit_goodInternal (bit_of_prefix_bits hbefore) hgood, arrive_bad hbad]
  · exact (decodesTo_nil s).failsWith (f := invalidTree s.root 0) ⟨hb, hnn, hroot⟩ hpos
      fun m hm => hm.decodeBit_leafWithChild hleaf

/-- Settles O45: the loop comes to the last bit of the code too many, whose symbol finds SYMBUF full. -/
theorem decodeFailsWhenSymbufIsFull : Obligations.DecodeFailsWhenSymbufIsFull := by
  intro s tree picks e rest hb hnn ht hmem he hfull hbits
  have hbefore : picks.flatMap Prod.snd ++ e.2 <+: bits s := hbits ▸ List.prefix_append _ _
  have hcodes := decodesTo_codes (fun e he => completes_of_mem_codes hnn ht (hmem e he))
    ((List.prefix_append _ _).trans hbefore) hfull.le
  obtain ⟨q, b, cur, hq, hcur, hturn⟩ := hcodes.lastBit (completes_of_mem_codes hnn ht he) hbefore
  rw [hq, ← List.append_assoc] at hbefore
  have hpos : (picks.flatMap Prod.snd).length + e.2.length - 1 = (picks.flatMap Prod.snd ++ q).length := by
    simp [hq, ← Nat.add_assoc]
  rw [hpos]
  refine hcur.failsWith (f := ⟨.capacity, e.1, _⟩) (decodable_of_holdsTree hb hnn ht) (lt_of_prefix_bits hbefore)
    fun m hm => ?_
  rw [hturn m hm, List.length_map, hfull, emit_full]
  rfl

end Sys2Proof.Machine
end

section
/-! PROOFS. The five commands one after another give the sequence back (O48). -/

namespace Sys2Proof.Machine
open Sys2Proof.Safety

/-! ## What the commands keep for each other (R96) -/

/-- The locations a successful command writes beside the result registers. -/
def isOutput : Instr → Location → Bool
  | .count, .nfreq | .count, .freqWord _ | .build, .nnodes | .build, .root | .build, .nodeWord _ => true
  | .gencodes, .ncode | .gencodes, .codeWord _ | .encode, .blen | .encode, .bitbufWord _ => true
  | .decode, .slen | .decode, .symbufWord _ => true
  | _, _ => false

theorem isOutput_sequence {i : Instr} (hi : i ≠ .decode) {l : Location} (hl : l = .slen ∨ ∃ k, l = .symbufWord k) :
    isOutput i l = false := by
  cases i with
  | decode => exact absurd rfl hi
  | _ => rcases hl with rfl | ⟨k, rfl⟩ <;> rfl

theorem isOutput_tree {i : Instr} (hi : i ≠ .build) {l : Location} (hl : l = .nnodes ∨ l = .root ∨ ∃ k, l = .nodeWord k) :
    isOutput i l = false := by
  cases i with
  | build => exact absurd rfl hi
  | _ => rcases hl with rfl | rfl | ⟨k, rfl⟩ <;> rfl

theorem cfg_of_exec {i : Instr} {s t : State} (hx : exec i s = .next t) : t.cfg = s.cfg := by
  obtain ⟨⟨hcfg, -⟩, -⟩ := exec_completes hx
  exact hcfg

section Frame
variable {i : Instr} {s t : State} (hx : exec i s = .next t) (hok : t.status.err = .success)
include hx hok

/-- The frames of the five commands as one. -/
theorem wordAt_of_exec {l : Location} (hres : resultRegisters l = false) (hl : isOutput i l = false) :
    wordAt t l = wordAt s l := by
  cases i with
  | count =>
    obtain ⟨-, -, -, hframe⟩ := countChangesOnlyItsTable s t hx hok
    exact hframe l hres (by rintro rfl; cases hl) (by rintro k rfl; cases hl)
  | build =>
    obtain ⟨-, hframe⟩ := buildChangesOnlyItsTree s t hx hok
    exact hframe l hres (by rintro rfl; cases hl) (by rintro rfl; cases hl) (by rintro k rfl; cases hl)
  | gencodes =>
    obtain ⟨-, -, -, hframe⟩ := gencodesChangesOnlyItsTable s t hx hok
    exact hframe l hres (by rintro rfl; cases hl) (by rintro k rfl; cases hl)
  | encode =>
    obtain ⟨-, -, -, -, hframe⟩ := encodeChangesOnlyItsBits s t hx hok
    exact hframe l hres (by rintro rfl; cases hl) (by rintro k rfl; cases hl)
  | decode =>
    obtain ⟨-, -, -, hframe⟩ := decodeChangesOnlyItsSymbols s t hx hok
    exact hframe l hres (by rintro rfl; cases hl) (by rintro k rfl; cases hl)

/-- Every command but DECODE keeps the symbol sequence. -/
theorem symbols_of_exec (hi : i ≠ .decode) : t.slen = s.slen ∧ symbols t = symbols s := by
  have hslen : t.slen = s.slen := wordAt_of_exec hx hok (l := .slen) rfl (isOutput_sequence hi (.inl rfl))
  refine ⟨hslen, ?_⟩
  rw [symbols, symbols, hslen, map_range_eq_iff]
  exact fun k _ => wordAt_of_exec hx hok (l := .symbufWord k) rfl (isOutput_sequence hi (.inr ⟨k, rfl⟩))

/-- Every command but BUILD keeps the tree at ROOT. -/
theorem holdsTree_of_exec (hi : i ≠ .build) : t.nnodes = s.nnodes ∧
    ∀ tree, holdsTree s s.root tree = true → holdsTree t t.root tree = true := by
  have hnn : t.nnodes = s.nnodes := wordAt_of_exec hx hok (l := .nnodes) rfl (isOutput_tree hi (.inl rfl))
  have hword (k : Nat) : nodeWord t.cfg t.mem k = nodeWord s.cfg s.mem k :=
    wordAt_of_exec hx hok (l := .nodeWord k) rfl (isOutput_tree hi (.inr (.inr ⟨k, rfl⟩)))
  have hrootWord : t.root.setWidth 32 = s.root.setWidth 32 :=
    wordAt_of_exec hx hok (l := .root) rfl (isOutput_tree hi (.inr (.inl rfl)))
  have hroot : t.root = s.root := by
    simpa [BitVec.setWidth_setWidth_of_le] using congrArg (BitVec.setWidth 9) hrootWord
  refine ⟨hnn, fun tree ht => ?_⟩
  rw [hroot]
  exact holdsTree_congr (by rw [hnn]) (fun g _ => by simp only [node, hword]) ht

end Frame

/-! ## The table of COUNT -/

/-- A statement false at 0 and true at `n` becomes true at some step before `n`. -/
theorem exists_lt_not_and_succ {P : Nat → Prop} (h0 : ¬ P 0) {n : Nat} (hn : P n) : ∃ i < n, ¬ P i ∧ P (i + 1) := by
  induction n with
  | zero => exact absurd hn h0
  | succ n ih =>
    by_cases h : P n
    · obtain ⟨i, hi, hP⟩ := ih h
      exact ⟨i, by omega, hP⟩
    · exact ⟨n, Nat.lt_succ_self n, h, hn⟩

theorem not_failsWith_of_success {i : Instr} {s t : State} {e : Err} {info pos : Word} (hx : exec i s = .next t)
    (hok : t.status.err = .success) (he : e ≠ .success) : ¬ failsWith i s e info pos := by
  rintro ⟨t', hx', ⟨hstatus, -⟩, -⟩
  cases hx.symm.trans hx'
  rw [hstatus] at hok
  exact he hok

/-- COUNT succeeds only on a sequence that fits, with room for its different symbols (R111, R114). -/
theorem room_of_exec_count {s t : State} (hx : exec .count s = .next t) (hok : t.status.err = .success) :
    s.slen.toNat ≤ s.cfg.seqN ∧ (firstOccurrences (symbols s)).length ≤ s.cfg.nsym := by
  obtain ⟨u, hu, -⟩ := exec_success hx hok
  obtain ⟨hfit, -⟩ := countRun_ok hu
  refine ⟨hfit, not_lt.mp fun hfull => ?_⟩
  have hall : (symbols s).take s.slen.toNat = symbols s := List.take_of_length_le (length_symbols s).le
  obtain ⟨i, hi, hbefore, hafter⟩ := exists_lt_not_and_succ
    (P := fun i => s.cfg.nsym < (firstOccurrences ((symbols s).take i)).length) (Nat.not_lt_zero _) (by rwa [hall])
  rw [take_symbols_succ hi, firstOccurrences_concat, List.length_append] at hafter
  by_cases hmem : symbol s.cfg s.mem i ∈ (symbols s).take i
  · rw [if_pos hmem] at hafter
    exact hbefore hafter
  · rw [if_neg hmem, List.length_singleton] at hafter
    exact not_failsWith_of_success (e := .capacity) hx hok nofun (count_failsWith_capacity hfit hi (by omega) hmem)

/-- After a successful COUNT the symbols of FREQ are the different ones of the sequence. -/
theorem freqSyms_of_exec_count {s t : State} (hx : exec .count s = .next t) (hok : t.status.err = .success) :
    (List.range t.nfreq.toNat).map (freqSym t.cfg t.mem) = firstOccurrences (symbols s) := by
  obtain ⟨hfit, hroom⟩ := room_of_exec_count hx hok
  obtain ⟨n, m, htable, hx'⟩ := exec_count_tabulates hfit hroom
  cases hx.symm.trans hx'
  have hnsym : s.cfg.nsym ≤ 1048576 := by have := config_bounds s.cfg; omega
  have hn : (BitVec.ofNat 32 n).toNat = n := toNat_ofNat_of_le (htable.length_eq ▸ hroom) hnsym
  rw [succeed_nfreq, hn]
  exact htable.syms

/-! ## The code table of the tree, as ENCODE uses it (R157) -/

/-- No symbol stands in two entries of CODE, and every code has a length that ENCODE accepts. -/
structure UsableTable (s : State) : Prop where
  nodup : ((codeTable s).map Prod.fst).Nodup
  len : ∀ e ∈ codeTable s, 1 ≤ e.2.length ∧ e.2.length ≤ maxLen s.cfg

/-- The index of the entry of `x` that ENCODE uses, 0 where there is none. -/
def entryOf (s : State) (x : Word) : Nat := (lookup s.cfg s.mem x s.ncode.toNat).getD 0

theorem length_codeEntry (s : State) (j : Nat) : (codeEntry s j).2.length = codeLen s.cfg s.mem j := by
  simp [codeEntry]

section Table
variable {s : State}

theorem entryOf_eq_of_usedEntry {x : Word} {j : Nat} (h : usedEntry s x j) : entryOf s x = j := by
  rw [entryOf, lookup_eq_some_iff_usedEntry.mpr h, Option.getD_some]

/-- Every element of a usable table is the one ENCODE uses for its symbol. -/
theorem UsableTable.used (h : UsableTable s) {j : Nat} (hj : j < s.ncode.toNat) :
    usedEntry s (codeSym s.cfg s.mem j) j := by
  have hlen := h.len (codeEntry s j) (List.mem_map_of_mem (List.mem_range.mpr hj))
  rw [length_codeEntry] at hlen
  refine ⟨⟨hj, rfl, hlen⟩, fun k hk ⟨hsym, _⟩ => ?_⟩
  have hnodup := h.nodup
  rw [codeTable, List.map_map] at hnodup
  exact hk.ne (List.inj_on_of_nodup_map hnodup (List.mem_range.mpr (hk.trans hj)) (List.mem_range.mpr hj) hsym)

theorem UsableTable.used_entryOf (h : UsableTable s) {x : Word} (hx : x ∈ (codeTable s).map Prod.fst) :
    usedEntry s x (entryOf s x) := by
  rw [codeTable, List.map_map] at hx
  obtain ⟨j, hj, rfl⟩ := List.mem_map.mp hx
  have hused := h.used (List.mem_range.mp hj)
  change usedEntry s (codeSym s.cfg s.mem j) (entryOf s (codeSym s.cfg s.mem j))
  rwa [entryOf_eq_of_usedEntry hused]

theorem UsableTable.used_symbol (h : UsableTable s) (hkeys : ∀ x ∈ symbols s, x ∈ (codeTable s).map Prod.fst) {i : Nat}
    (hi : i < s.slen.toNat) : usedEntry s (symbol s.cfg s.mem i) (entryOf s (symbol s.cfg s.mem i)) :=
  h.used_entryOf (hkeys _ (List.mem_map_of_mem (List.mem_range.mpr hi)))

theorem UsableTable.codeEntry_entryOf (h : UsableTable s) {e : Word × List Bool} (he : e ∈ codeTable s) :
    codeEntry s (entryOf s e.1) = e := by
  obtain ⟨j, hj, rfl⟩ := List.mem_map.mp he
  exact congrArg (codeEntry s) (entryOf_eq_of_usedEntry (h.used (List.mem_range.mp hj)))

/-- The code table's elements of a sequence's symbols, one after another. -/
def picksOf (s : State) (xs : List Word) : List (Word × List Bool) := xs.map fun x => codeEntry s (entryOf s x)

theorem codedBits_entryOf (s : State) : codedBits s (fun i => entryOf s (symbol s.cfg s.mem i)) s.slen.toNat =
    (picksOf s (symbols s)).flatMap Prod.snd := by
  simp only [codedBits, picksOf, symbols, List.flatMap_map]

theorem codedLength_entryOf (s : State) : codedLength s (fun i => entryOf s (symbol s.cfg s.mem i)) s.slen.toNat =
    ((symbols s).map fun x => codeLen s.cfg s.mem (entryOf s x)).sum := by
  rw [codedLength, symbols, List.map_map]
  rfl

/-- A sum over a sequence, by its different values and their counts. -/
theorem sum_map_count {xs ys : List Word} (hnodup : ys.Nodup) (hsub : ∀ x ∈ xs, x ∈ ys) (g : Word → Nat) :
    (ys.map fun y => xs.count y * g y).sum = (xs.map g).sum := by
  rw [← List.sum_toFinset _ hnodup, Finset.sum_list_map_count xs]
  refine (Finset.sum_subset (fun x hx => ?_) fun y _ hy => ?_).symm
  · rw [List.mem_toFinset] at hx ⊢
    exact hsub x hx
  · rw [List.count_eq_zero.mpr (by rwa [List.mem_toFinset] at hy), zero_mul]

/-- The sum over the code table of count times code length. -/
def totalLength (s : State) : Nat := ((codeTable s).map fun e => (symbols s).count e.1 * e.2.length).sum

theorem UsableTable.codedLength_eq (h : UsableTable s) (hkeys : ∀ x ∈ symbols s, x ∈ (codeTable s).map Prod.fst) :
    codedLength s (fun i => entryOf s (symbol s.cfg s.mem i)) s.slen.toNat = totalLength s := by
  rw [codedLength_entryOf, ← sum_map_count h.nodup hkeys, List.map_map]
  refine congrArg List.sum (List.map_congr_left fun e he => ?_)
  rw [Function.comp_apply, ← length_codeEntry, h.codeEntry_entryOf he]

theorem UsableTable.map_fst_picksOf (h : UsableTable s) {xs : List Word}
    (hkeys : ∀ x ∈ xs, x ∈ (codeTable s).map Prod.fst) : (picksOf s xs).map Prod.fst = xs := by
  rw [picksOf, List.map_map]
  refine (List.map_congr_left fun x hx => ?_).trans (List.map_id xs)
  obtain ⟨⟨-, hsym, -⟩, -⟩ := h.used_entryOf (hkeys x hx)
  exact hsym

theorem UsableTable.mem_of_mem_picksOf (h : UsableTable s) {xs : List Word}
    (hkeys : ∀ x ∈ xs, x ∈ (codeTable s).map Prod.fst) : ∀ e ∈ picksOf s xs, e ∈ codeTable s := by
  intro e he
  obtain ⟨x, hx, rfl⟩ := List.mem_map.mp he
  obtain ⟨⟨hlt, -⟩, -⟩ := h.used_entryOf (hkeys x hx)
  exact List.mem_map_of_mem (List.mem_range.mpr hlt)

end Table

/-! ## COUNT, BUILD and GENCODES prepare the tree and the table -/

/-- What BUILD leaves after COUNT: the sequence, and at ROOT a tree of its different symbols. -/
structure Built (s : State) (tree : HTree) : Prop where
  fits : s.slen.toNat ≤ s.cfg.seqN
  nnodes : s.nnodes.toNat ≤ nnodeMax s.cfg
  holds : holdsTree s s.root tree = true
  leaves : tree.leaves ≤ s.cfg.nsym
  syms : (leafSymbols tree).Perm (firstOccurrences (symbols s))

/-- What stands ready for ENCODE and DECODE: GENCODES has added the tree's code table. -/
structure Prepared (s : State) (tree : HTree) : Prop extends Built s tree where
  table : codeTable s = tree.codes

theorem firstOccurrences_symbols_pos {s : State} (hpos : 1 ≤ s.slen.toNat) : 1 ≤ (firstOccurrences (symbols s)).length := by
  have hmem : symbol s.cfg s.mem 0 ∈ firstOccurrences (symbols s) :=
    mem_firstOccurrences.mpr (List.mem_map_of_mem (List.mem_range.mpr hpos))
  exact List.length_pos_of_mem hmem

/-- After a successful COUNT of a sequence that is not empty BUILD succeeds. -/
theorem built_of_exec {s0 s1 s2 : State} (hpos : 1 ≤ s0.slen.toNat) (hcount : exec .count s0 = .next s1)
    (hok1 : s1.status.err = .success) (hbuild : exec .build s1 = .next s2) : s2.status.err = .success ∧
      s2.cfg = s0.cfg ∧ s2.slen = s0.slen ∧ symbols s2 = symbols s0 ∧ ∃ tree, Built s2 tree := by
  obtain ⟨hfit, hroom⟩ := room_of_exec_count hcount hok1
  have hfreq := freqSyms_of_exec_count hcount hok1
  have hn : s1.nfreq.toNat = (firstOccurrences (symbols s0)).length := by simpa using congrArg List.length hfreq
  have hcfg1 := cfg_of_exec hcount
  obtain ⟨hslen1, hsyms1⟩ := symbols_of_exec hcount hok1 nofun
  have h1 : 1 ≤ s1.nfreq.toNat := hn ▸ firstOccurrences_symbols_pos hpos
  have h2 : s1.nfreq.toNat ≤ s1.cfg.nsym := by rwa [hn, hcfg1]
  have hok2 : s2.status.err = .success := by
    cases hbuild.symm.trans (exec_build_of_le h1 h2)
    rfl
  obtain ⟨hslen2, hsyms2⟩ := symbols_of_exec hbuild hok2 nofun
  obtain ⟨hcfg2, hnn, tree, ht, hleaves⟩ := exec_build_holdsTree h1 h2 hbuild
  rw [hfreq] at hleaves
  have hcfg := hcfg2.trans hcfg1
  have hslen := hslen2.trans hslen1
  have hsyms := hsyms2.trans hsyms1
  refine ⟨hok2, hcfg, hslen, hsyms, tree, ?_⟩
  exact {
    fits := by rwa [hslen, hcfg]
    nnodes := by rw [hnn, hcfg2, nnodeMax]; omega
    holds := ht
    leaves := by rwa [← length_leafSymbols, hleaves.length_eq, hcfg]
    syms := by rwa [hsyms] }

/-- On the tree BUILD leaves GENCODES succeeds. -/
theorem Built.prepared {s t : State} {tree : HTree} (h : Built s tree) (hgen : exec .gencodes s = .next t) :
    t.status.err = .success ∧ t.cfg = s.cfg ∧ t.slen = s.slen ∧ symbols t = symbols s ∧ Prepared t tree := by
  have hdepth : tree.depth ≤ maxLen s.cfg := Nat.le_sub_one_of_lt ((depth_lt_leaves tree).trans_le h.leaves)
  obtain ⟨t', hgen', ⟨hstatus, -⟩, htable, -⟩ := gencodesListsThePathsOfTheTree s tree h.nnodes h.holds hdepth h.leaves
  cases hgen.symm.trans hgen'
  have hok : t.status.err = .success := by rw [hstatus]
  have hcfg := cfg_of_exec hgen
  obtain ⟨hslen, hsyms⟩ := symbols_of_exec hgen hok nofun
  obtain ⟨hnn, hholds⟩ := holdsTree_of_exec hgen hok nofun
  refine ⟨hok, hcfg, hslen, hsyms, ?_⟩
  exact {
    fits := by rw [hslen, hcfg]; exact h.fits
    nnodes := by rw [hnn, hcfg]; exact h.nnodes
    holds := hholds tree h.holds
    leaves := by rw [hcfg]; exact h.leaves
    syms := by rw [hsyms]; exact h.syms
    table := htable }

/-! ## ENCODE and DECODE on the tree and the table -/

section Prepared
variable {s t : State} {tree : HTree}

theorem Prepared.ncode_le (h : Prepared s tree) : s.ncode.toNat ≤ s.cfg.nsym := by
  have hlen := congrArg List.length h.table
  rw [codeTable, List.length_map, List.length_range, length_codes] at hlen
  exact hlen ▸ h.leaves

theorem Prepared.keys (h : Prepared s tree) : ∀ x ∈ symbols s, x ∈ (codeTable s).map Prod.fst := by
  intro x hx
  rw [h.table, map_fst_codes, h.syms.mem_iff]
  exact mem_firstOccurrences.mpr hx

theorem completes.length_pos {e : Word × List Bool} (he : completes s e) : 1 ≤ e.2.length := by
  rcases he with ⟨hne, -⟩ | ⟨-, hcode⟩
  · exact List.length_pos_of_ne_nil hne
  · rw [hcode]
    exact le_refl 1

/-- The tree has at most NSYM leaves, so it is at most MAXLEN deep; the code "0" of a single leaf needs MAXLEN >= 1. -/
theorem Prepared.usable (h : Prepared s tree) (htwo : 2 ≤ s.cfg.nsym) : UsableTable s := by
  constructor
  case nodup =>
    rw [h.table, map_fst_codes]
    exact h.syms.nodup_iff.mpr (nodup_firstOccurrences _)
  case len =>
    intro e he
    rw [h.table] at he
    refine ⟨(completes_of_mem_codes h.nnodes h.holds he).length_pos, ?_⟩
    have hleaves := h.leaves
    rw [maxLen]
    cases tree with
    | leaf sym =>
      obtain rfl : e = (sym, [false]) := List.mem_singleton.mp he
      exact Nat.le_sub_one_of_lt htwo
    | internal l r =>
      have hlen := length_le_of_mem_paths he
      have hdepth := depth_lt_leaves (.internal l r)
      rw [List.length_nil] at hlen
      omega

/-- Where the codes fit, ENCODE puts them into BITBUF one after another (R158). -/
theorem Prepared.encode_fits (h : Prepared s tree) (htwo : 2 ≤ s.cfg.nsym) (hx : exec .encode s = .next t)
    (hroom : totalLength s ≤ s.cfg.bitN) : t.status.err = .success ∧ t.blen.toNat = totalLength s ∧
      bits t = (picksOf s (symbols s)).flatMap Prod.snd := by
  have husable := h.usable htwo
  have hlen := husable.codedLength_eq h.keys
  obtain ⟨t', hx', ⟨hstatus, -⟩, hblen, hbits, -⟩ := encodeConcatenatesTheCodes s _ h.fits h.ncode_le
    (fun _ hi => husable.used_symbol h.keys hi) (hlen.trans_le hroom)
  cases hx.symm.trans hx'
  exact ⟨by rw [hstatus], hblen.trans hlen, hbits.trans (codedBits_entryOf s)⟩

/-- Where they do not, ENCODE fails with Capacity at the first code that finds no room (R159). -/
theorem Prepared.encode_full (h : Prepared s tree) (htwo : 2 ≤ s.cfg.nsym) (hx : exec .encode s = .next t)
    (hfull : s.cfg.bitN < totalLength s) : t.status.err = .capacity := by
  have husable := h.usable htwo
  rw [← husable.codedLength_eq h.keys] at hfull
  obtain ⟨i, hi, hroom, hnext⟩ := exists_lt_not_and_succ
    (P := fun i => s.cfg.bitN < codedLength s (fun i => entryOf s (symbol s.cfg s.mem i)) i) (Nat.not_lt_zero _) hfull
  have hused (k : Nat) (hk : k ≤ i) := husable.used_symbol h.keys (hk.trans_lt hi)
  obtain ⟨-, hcapacity⟩ := encodeReportsTheFirstFailure s _ i h.fits h.ncode_le hi (fun k hk => hused k hk.le)
    (not_lt.mp hroom)
  obtain ⟨t', hx', ⟨hstatus, -⟩, -⟩ := hcapacity (hused i (le_refl i)) hnext
  cases hx.symm.trans hx'
  rw [hstatus]

/-- With NSYM = 1 no code has a length that ENCODE accepts (log 11). -/
theorem Prepared.encode_of_nsym_one (h : Prepared s tree) (hpos : 1 ≤ s.slen.toNat) (hone : s.cfg.nsym = 1)
    (hx : exec .encode s = .next t) : t.status.err = .unknownSymbol := by
  have hmax : maxLen s.cfg = 0 := by rw [maxLen, hone]
  have hno : noEntry s (symbol s.cfg s.mem 0) := fun j _ ⟨_, h1, h2⟩ => by omega
  obtain ⟨hunknown, -⟩ := encodeReportsTheFirstFailure s id 0 h.fits h.ncode_le hpos
    (fun _ hk => absurd hk (Nat.not_lt_zero _)) (Nat.zero_le _)
  obtain ⟨t', hx', ⟨hstatus, -⟩, -⟩ := hunknown hno
  cases hx.symm.trans hx'
  rw [hstatus]

/-- A successful ENCODE leaves in BITBUF the codes of the symbols. -/
theorem Prepared.encode_success (h : Prepared s tree) (hpos : 1 ≤ s.slen.toNat) (hx : exec .encode s = .next t)
    (hok : t.status.err = .success) : UsableTable s ∧ t.blen.toNat ≤ s.cfg.bitN ∧
      bits t = (picksOf s (symbols s)).flatMap Prod.snd := by
  obtain ⟨hnsym, -⟩ := config_bounds s.cfg
  rcases hnsym.eq_or_lt with hone | htwo
  · exact nomatch hok.symm.trans (h.encode_of_nsym_one hpos hone.symm hx)
  · have hroom : totalLength s ≤ s.cfg.bitN := not_lt.mp fun hfull => nomatch hok.symm.trans (h.encode_full htwo hx hfull)
    obtain ⟨-, hblen, hbits⟩ := h.encode_fits htwo hx hroom
    exact ⟨h.usable htwo, hblen ▸ hroom, hbits⟩

/-- After a successful ENCODE, DECODE gives the sequence back (R177). -/
theorem Prepared.decode {u : State} (h : Prepared s tree) (hpos : 1 ≤ s.slen.toNat) (henc : exec .encode s = .next t)
    (hok : t.status.err = .success) (hdec : exec .decode t = .next u) :
    u.status.err = .success ∧ symbols u = symbols s := by
  obtain ⟨husable, hblen, hbits⟩ := h.encode_success hpos henc hok
  have hcfg := cfg_of_exec henc
  obtain ⟨hnn, hholds⟩ := holdsTree_of_exec henc hok nofun
  have hmem : ∀ e ∈ picksOf s (symbols s), e ∈ tree.codes := h.table ▸ husable.mem_of_mem_picksOf h.keys
  have hcount : (picksOf s (symbols s)).length ≤ t.cfg.seqN := by
    rw [picksOf, List.length_map, length_symbols, hcfg]
    exact h.fits
  obtain ⟨u', hdec', ⟨hstatus, -⟩, hsyms, -⟩ := decodeRecoversTheSymbols t tree _ (hcfg ▸ hblen)
    (by rw [hnn, hcfg]; exact h.nnodes) (hholds tree h.holds) hmem hbits hcount
  cases hdec.symm.trans hdec'
  exact ⟨by rw [hstatus], hsyms.trans (husable.map_fst_picksOf h.keys)⟩

end Prepared

/-- Settles O48: COUNT, BUILD and GENCODES prepare the tree and the table, ENCODE concatenates the codes of the symbols, and
DECODE recovers the symbols of a concatenation of codes. -/
theorem pipelineRoundTripGivesTheSequenceBack : Obligations.PipelineRoundTripGivesTheSequenceBack := by
  intro s0 s1 s2 s3 s4 s5 hpos hcount hok1 hbuild hgen henc hdec
  obtain ⟨hok2, hcfg2, hslen2, hsyms2, tree, hbuilt⟩ := built_of_exec hpos hcount hok1 hbuild
  obtain ⟨hok3, hcfg3, hslen3, hsyms3, h⟩ := hbuilt.prepared hgen
  have hcfg := hcfg3.trans hcfg2
  have hslen := hslen3.trans hslen2
  have hsyms := hsyms3.trans hsyms2
  rw [← hcfg, ← hslen, ← hsyms]
  refine ⟨hok2, hok3, fun htwo => ⟨fun hroom => ?_, h.encode_full htwo henc⟩, fun hok4 => ?_⟩
  · obtain ⟨hok4, hblen, -⟩ := h.encode_fits htwo henc hroom
    exact ⟨hok4, hblen⟩
  · obtain ⟨hok5, hback⟩ := h.decode (hslen ▸ hpos) henc hok4 hdec
    refine ⟨hok5, BitVec.eq_of_toNat_eq ?_, hback⟩
    rw [← length_symbols, ← length_symbols, hback]

end Sys2Proof.Machine
end

section
/-! PROOFS. How a command ends: completion (O20), the failure effect (O21), the length prechecks (O22) and the interrupt (O18). -/

namespace Sys2Proof.Machine
open Sys2Proof.Safety

/-! ## Completion (R197) -/

/-- No command ends in IllegalCommand, and the details of a success are 0 (R192, R195). -/
theorem exec_details {i : Instr} {s t : State} (hx : exec i s = .next t) :
    t.status.err ≠ .illegalCommand ∧ (t.status.err = .success → t.errinfo = 0 ∧ t.errpos = 0) := by
  rcases exec_cases hx with ⟨u, -, rfl⟩ | ⟨f, hr, rfl⟩
  · exact ⟨nofun, fun _ => ⟨rfl, rfl⟩⟩
  · rw [raise_status, completedStatus_err]
    obtain ⟨hsuccess, hillegal⟩ := raisable_ne (runOf_error hr)
    exact ⟨hillegal, fun h => absurd h hsuccess⟩

/-- Settles O20: every command answers its completion. -/
theorem everyCommandCompletes : Obligations.EveryCommandCompletes := by
  intro i s
  have hx := exec_eq_finish i s
  obtain ⟨hkeeps, hphase, hbusy, hdone⟩ := exec_completes hx
  exact ⟨_, hx, hkeeps, hphase, hbusy, hdone, exec_details hx⟩

/-! ## The failure effect (R198) -/

/-- A command that ends with an error has raised it. -/
theorem exec_failure {i : Instr} {s t : State} (hx : exec i s = .next t) (h : t.status.err ≠ .success) :
    ∃ f, runOf i s = .error f ∧ t = raise i f s := by
  rcases exec_cases hx with ⟨u, -, rfl⟩ | hf
  · exact absurd rfl h
  · exact hf

/-- A completion writes the result registers only, whatever its result. -/
theorem wordAt_complete {l : Location} (h : resultRegisters l = false) (e : Err) (info pos : Word) (s : State) :
    wordAt (complete e info pos s) l = wordAt s l := by
  cases l with
  | status => cases h
  | errinfo => cases h
  | errpos => cases h
  | _ => rfl

/-- The host reads none of the working registers (R43). -/
theorem wordAt_spoilWork (s : State) (l : Location) : wordAt (spoilWork s) l = wordAt s l := by cases l <;> rfl

/-- The locations outside the length or handle registers and the output memory of a command; a failed BUILD keeps NODE. -/
def keptByFailure (i : Instr) (l : Location) : Prop :=
  match i with
  | .count => l ≠ .nfreq ∧ ∀ k, l ≠ .freqWord k
  | .build => l ≠ .nnodes ∧ l ≠ .root
  | .gencodes => l ≠ .ncode ∧ ∀ k, l ≠ .codeWord k
  | .encode => l ≠ .blen ∧ ∀ w, l ≠ .bitbufWord w
  | .decode => l ≠ .slen ∧ ∀ k, l ≠ .symbufWord k

theorem wordAt_emptyOutput {i : Instr} {l : Location} (h : keptByFailure i l) (s : State) :
    wordAt (emptyOutput i s) l = wordAt s l := by
  cases i with
  | count =>
    obtain ⟨hlength, hmemory⟩ := h
    cases l with
    | nfreq => exact absurd rfl hlength
    | freqWord k => exact absurd rfl (hmemory k)
    | _ => rfl
  | build =>
    obtain ⟨hnnodes, hroot⟩ := h
    cases l with
    | nnodes => exact absurd rfl hnnodes
    | root => exact absurd rfl hroot
    | _ => rfl
  | gencodes =>
    obtain ⟨hlength, hmemory⟩ := h
    cases l with
    | ncode => exact absurd rfl hlength
    | codeWord k => exact absurd rfl (hmemory k)
    | _ => rfl
  | encode =>
    obtain ⟨hlength, hmemory⟩ := h
    cases l with
    | blen => exact absurd rfl hlength
    | bitbufWord w => exact absurd rfl (hmemory w)
    | _ => rfl
  | decode =>
    obtain ⟨hlength, hmemory⟩ := h
    cases l with
    | slen => exact absurd rfl hlength
    | symbufWord k => exact absurd rfl (hmemory k)
    | _ => rfl

/-- A failure changes what the host reads at the result registers and at its emptied output only. -/
theorem wordAt_raise {i : Instr} {l : Location} (hres : resultRegisters l = false) (hl : keptByFailure i l) (f : Failure)
    (s : State) : wordAt (raise i f s) l = wordAt s l := by
  rw [raise, wordAt_complete hres, wordAt_spoilWork, wordAt_emptyOutput hl]

/-- Only a failed BUILD spoils HEAP and HEAPN. -/
theorem raise_keeps_heap {i : Instr} (hi : i ≠ .build) (f : Failure) (s : State) :
    (raise i f s).heap = s.heap ∧ (raise i f s).heapn = s.heapn := by
  cases i with
  | build => exact absurd rfl hi
  | _ => exact ⟨rfl, rfl⟩

/-- Settles O21, by the frame of the failure effect; IllegalCommand is a completion alone. -/
theorem failureEmptiesOutputAndKeepsTheRest : Obligations.FailureEmptiesOutputAndKeepsTheRest := by
  refine ⟨fun i s t hx herr => ?_, fun s l hres => wordAt_complete hres _ _ _ s⟩
  obtain ⟨f, hr, rfl⟩ := exec_failure hx herr
  obtain ⟨t', hx', -, hempty⟩ := failsWith_of_runOf_error hr
  cases hx.symm.trans hx'
  exact ⟨hempty, fun hi => raise_keeps_heap hi f s, fun l hres hl => wordAt_raise hres hl f s⟩

/-! ## The length prechecks (R199) -/

/-- A length register the command reads is over its capacity. -/
def overCapacity (i : Instr) (s : State) : Prop :=
  match i with
  | .count => s.cfg.seqN < s.slen.toNat
  | .build => s.cfg.nsym < s.nfreq.toNat
  | .gencodes => nnodeMax s.cfg < s.nnodes.toNat
  | .encode => s.cfg.seqN < s.slen.toNat ∨ s.cfg.nsym < s.ncode.toNat
  | .decode => s.cfg.bitN < s.blen.toNat ∨ nnodeMax s.cfg < s.nnodes.toNat

/-- Only a precheck raises BadLength. -/
theorem overCapacity_of_badLength {i : Instr} {s : State} {f : Failure} (h : runOf i s = .error f) (hf : f.err = .badLength) :
    overCapacity i s := by
  cases i with
  | count =>
    rcases countRun_error h with ⟨hs, -⟩ | ⟨-, hl⟩
    · exact hs
    · exact nomatch hf.symm.trans (countLoop_error hl)
  | build =>
    rcases buildRun_error h with ⟨hn, -⟩ | ⟨-, rfl⟩
    · exact hn
    · cases hf
  | gencodes =>
    rcases gencodesRun_error h with ⟨hn, -⟩ | ⟨-, rfl⟩ | ht
    · exact hn
    · cases hf
    · exact nomatch hf.symm.trans (gencodesTraversal_error ht)
  | encode =>
    rcases encodeRun_error h with ⟨hs, -⟩ | ⟨-, hn, -⟩ | ⟨-, -, hl⟩
    · exact .inl hs
    · exact .inr hn
    · exact absurd (encodeLoop_error hl) (hf ▸ nofun)
  | decode =>
    rcases decodeRun_error h with ⟨hb, -⟩ | ⟨-, hn, -⟩ | ⟨-, rfl⟩ | hl | ⟨cur, out, m, -, -, rfl⟩
    · exact .inl hb
    · exact .inr hn
    · cases hf
    · exact absurd (decodeLoop_error hl) (hf ▸ nofun)
    · cases hf

/-- A run that raises BadLength ends with the register's address and its value in the details (R192). -/
theorem failsWith_badLength {i : Instr} {s : State} {addr value : Word} (h : runOf i s = .error (badLength addr value)) :
    failsWith i s .badLength addr value := failsWith_of_runOf_error h

/-- Settles O22: the prechecks are the first tests of each run, and nothing after them raises BadLength. -/
theorem lengthPrechecksComeFirst : Obligations.LengthPrechecksComeFirst := by
  intro s
  refine ⟨fun hs => failsWith_badLength ?_, fun hn => failsWith_badLength ?_, fun hn => failsWith_badLength ?_,
    fun hs => failsWith_badLength ?_, fun hs hn => failsWith_badLength ?_, fun hb => failsWith_badLength ?_,
    fun hb hn => failsWith_badLength ?_, fun i t hx herr => ?_⟩
  · exact if_pos hs
  · exact if_pos hn
  · exact if_pos hn
  · exact if_pos hs
  · exact (if_neg (not_lt.mpr hs)).trans (if_pos hn)
  · exact if_pos hb
  · exact (if_neg (not_lt.mpr hb)).trans (if_pos hn)
  · obtain ⟨f, hr, rfl⟩ := exec_failure hx (by rw [herr]; nofun)
    rw [raise_status, completedStatus_err] at herr
    exact overCapacity_of_badLength hr herr

/-! ## The interrupt (R204, R205) -/

theorem irq_of_done {s : State} (h : s.status.done = true) : irq s = s.ie := by rw [irq, h, Bool.and_true]

theorem irq_of_not_done {s : State} (h : s.status.done = false) : irq s = false := by rw [irq, h, Bool.and_false]

/-- A write to STATUS while BUSY = 0 is the acknowledgement of R26. -/
theorem hostWrite_status {s : State} (hb : s.status.busy = false) (d : Word) :
    hostWrite 0x02 d s = { s with status := acknowledgedStatus s.status d } := hostWrite_idle hb 0x02 d

/-- A write to CTRL sets IE at all times (R66). -/
theorem hostWrite_ctrl (d : Word) (s : State) : hostWrite 0x00 d s = { s with ie := d.getLsbD 0 } := by
  cases hb : s.status.busy with
  | false => exact hostWrite_idle hb 0x00 d
  | true => rw [hostWrite_busy hb, if_pos rfl]

/-- Settles O18: a completion sets DONE, an acknowledgement and an acceptance clear it, and IE masks it. -/
theorem interruptIsRaisedByCompletionAndDropped : Obligations.InterruptIsRaisedByCompletionAndDropped := by
  refine ⟨⟨rfl, rfl⟩, fun i s t hx => ?_, fun s => ⟨rfl, irq_of_done rfl⟩, fun s d hb hd => ?_, fun s d hb => ?_,
    fun s d hd => ?_⟩
  · obtain ⟨⟨-, hie, -⟩, -, -, hdone⟩ := exec_completes hx
    exact ⟨hdone, (irq_of_done hdone).trans hie⟩
  · rw [hostWrite_status hb]
    refine irq_of_not_done ?_
    rw [acknowledgedStatus_done, hd, Bool.not_true, Bool.and_false]
  · rw [hostWrite_cmd hb]
    exact irq_of_not_done rfl
  · rw [hostWrite_ctrl, hd]
    exact ⟨rfl, rfl⟩

end Sys2Proof.Machine
end

section
/-! PROOFS. A running command ends (O54), `rst` gives the registers their reset values (O57), and the five commands in the reset state (O56). -/

namespace Sys2Proof.Machine
open Sys2Proof.Safety

/-! ## A running command ends (R221, R241) -/

/-- The engine's move ends the running word: a command completes, another word is rejected. -/
theorem engineMove_ends {s : State} (hb : s.status.busy = true) : ∃ t, engineMove s = .next t ∧ t.status.busy = false := by
  obtain ⟨t, ht⟩ := engineMove_next s
  refine ⟨t, ht, ?_⟩
  rcases engineMove_cases ht with ⟨hidle, rfl⟩ | ⟨-, i, -, hx⟩ | ⟨-, -, rfl⟩
  · exact hidle
  · obtain ⟨-, -, hbusy, -⟩ := exec_completes hx
    exact hbusy
  · rfl

/-- A pending input ends the running command, or leaves it running with one input less. -/
theorem performInput_ends_or_keeps_busy (e : Input) {s : State} (hb : s.status.busy = true) :
    ∃ t, performInput e s = .next t ∧ (t.status.busy = true → t.inputs = s.inputs) := by
  cases e with
  | hostRead a => exact ⟨_, rfl, fun _ => rfl⟩
  | hostWrite a d => exact ⟨_, rfl, fun _ => by rw [hostWrite_busy hb]⟩
  | tick =>
    obtain ⟨t, ht, hend⟩ := engineMove_ends hb
    exact ⟨t, ht, fun hbusy => nomatch hend.symm.trans hbusy⟩
  | rst => exact ⟨_, rfl, nofun⟩

theorem core_run_succ {s s' : State} (h : step s = .next s') (k : Nat) : core.run (k + 1) s = core.run k s' := by
  have hstep : core.step s = .next s' := h
  simp only [Host.Core.run, hstep]

/-- Settles O54, by induction on the pending inputs: each ends the command or is used up, and with none left the engine moves. -/
theorem runningCommandEnds : Obligations.RunningCommandEnds := by
  intro s hb
  induction hin : s.inputs generalizing s with
  | nil =>
    obtain ⟨t, ht, hend⟩ := engineMove_ends hb
    exact ⟨1, le_refl 1, t, core_run_succ ((step_no_input hin).trans ht) 0, hend⟩
  | cons e rest ih =>
    obtain ⟨u, hu, hleft⟩ := performInput_ends_or_keeps_busy e (s := { s with inputs := rest }) hb
    have hrun := core_run_succ ((step_input hin).trans hu)
    cases hbusy : u.status.busy with
    | false => exact ⟨1, Nat.le_add_left 1 _, u, hrun 0, hbusy⟩
    | true =>
      obtain ⟨k, hk, t, ht, hend⟩ := ih u hbusy (hleft hbusy)
      exact ⟨k + 1, Nat.succ_le_succ hk, t, (hrun k).trans ht, hend⟩

/-! ## Reset by `rst` (R220, R221) -/

/-- Settles O57: the step is `pinReset`, with the other inputs still pending. -/
theorem pinResetGivesTheResetRegisters : Obligations.PinResetGivesTheResetRegisters := by
  intro s rest hin
  exact ⟨pinReset { s with inputs := rest }, step_input hin, rfl, rfl, rfl, rfl, rfl, rfl, rfl, rfl, rfl, rfl, rfl, rfl, rfl,
    rfl, rfl, rfl, irq_of_not_done rfl⟩

/-! ## The five commands on empty registers (R222) -/

/-- COUNT of the empty sequence succeeds with the empty table. -/
theorem count_empty_sequence {s : State} (h : s.slen = 0) : ∃ t, exec .count s = .next t ∧ completedOk s t ∧ t.nfreq = 0 := by
  have hlen : s.slen.toNat = 0 := by rw [h]; rfl
  have hrun : runOf .count s = .ok { s with nfreq := 0 } := by
    rw [runOf, countRun_of_le (hlen ▸ Nat.zero_le _), hlen]
    rfl
  exact ⟨_, by rw [exec_eq_finish, hrun, finish_ok], ⟨rfl, rfl, rfl, rfl⟩, rfl⟩

/-- ENCODE of the empty sequence succeeds with the empty bit string. -/
theorem encode_empty_sequence {s : State} (hslen : s.slen = 0) (hncode : s.ncode.toNat ≤ s.cfg.nsym) :
    ∃ t, exec .encode s = .next t ∧ completedOk s t ∧ t.blen = 0 := by
  have hlen : s.slen.toNat = 0 := by rw [hslen]; rfl
  have hrun : runOf .encode s = .ok { s with blen := 0 } := by
    rw [runOf, encodeRun_of_le (hlen ▸ Nat.zero_le _) hncode, hlen]
    rfl
  exact ⟨_, by rw [exec_eq_finish, hrun, finish_ok], ⟨rfl, rfl, rfl, rfl⟩, rfl⟩

/-- GENCODES and DECODE have no tree where ROOT is NIL and NNODES is 0, whatever the memories hold. -/
theorem gencodes_and_decode_no_tree {s : State} (hnnodes : s.nnodes = 0) (hroot : s.root = 0x1FF) :
    failsWith .gencodes s .invalidTree 0x1FF 0 ∧
    (s.blen.toNat ≤ s.cfg.bitN → failsWith .decode s .invalidTree 0x1FF 0) := by
  have hn : s.nnodes.toNat = 0 := by rw [hnnodes]; rfl
  have hfail := gencodesAndDecodeNeedATree s (hn ▸ Nat.zero_le _) (hn ▸ Nat.zero_le _)
  rw [hroot] at hfail
  exact hfail

/-- Settles O56, command by command: the empty registers decide each of them. -/
theorem commandsInTheResetState : Obligations.CommandsInTheResetState := by
  refine ⟨⟨rfl, rfl, rfl, rfl, rfl, rfl⟩, fun s hslen hblen hnfreq hnnodes hroot hncode => ?_⟩
  obtain ⟨hgencodes, hdecode⟩ := gencodes_and_decode_no_tree hnnodes hroot
  refine ⟨count_empty_sequence hslen, build_no_entries hnfreq, hgencodes, encode_empty_sequence hslen ?_, hdecode ?_⟩
  · rw [hncode]; exact Nat.zero_le _
  · rw [hblen]; exact Nat.zero_le _

end Sys2Proof.Machine
end
